-- ==== Sys2Proof/Word.lean ====
section
/-! DEFINITION. The words HUFF-CORE works on (R8, R11): 32-bit registers, 8-bit symbols and DMEM
bytes, 9-bit node indices, and tables indexed by a symbol. -/

namespace Sys2Proof

/-- A host-visible register or table word, 32 bits (R8 REG_BITS). -/
abbrev Word := BitVec 32

/-- One symbol, which is one DMEM byte (R8 SYMBOL_BITS, R9). -/
abbrev Byte := BitVec 8

/-- A node slot number 0 .. 511 (R8 NODE_SLOTS). -/
abbrev NodeIdx := BitVec 9

/-- A table with one entry per symbol value (R8 ALPHABET_MAX). -/
abbrev SymTable (α : Type) := Vector α 256

/-- A table with one entry per node slot (R8 NODE_SLOTS). -/
abbrev NodeTable (α : Type) := Vector α 512

end Sys2Proof
end

