-- ==== Sys2Proof/Syntax.lean ====
section
/-! DEFINITION. The instruction set: the six commands of HUFF-CORE (R3, R84). No command has an
operand in its word (R83, R88): operands are the argument registers of the state. -/

namespace Sys2Proof

/-- The six commands of R84, one constructor per row of spec/opcode_table.json. -/
inductive Instr where
  /-- NOP, word 0x0000_0000 (R180). -/
  | nop
  /-- CLRF, word 0x0000_0001 (R100). -/
  | clrf
  /-- SCAN, word 0x0000_0002 (R102). -/
  | scan
  /-- BUILD, word 0x0000_0003 (R120). -/
  | build
  /-- ENCODE, word 0x0000_0004 (R140). -/
  | encode
  /-- DECODE, word 0x0000_0005 (R160). -/
  | decode
  deriving DecidableEq, Repr

end Sys2Proof
end

