-- ==== Sys2Proof/Decode.lean ====
section
/-! DEFINITION. The command word CMD32 (R83, R84): the decoder, total on every 32-bit word and
rejecting by name, and after it the encoder, written from the same opcode map. -/

namespace Sys2Proof

/-- Why a command word is illegal (R84, R182): the names of the two rejections. -/
inductive IllegalWord where
  /-- A bit of 31:8 is 1 (R83). -/
  | reservedBits
  /-- OPCODE is 0x06 to 0xFF (R89). -/
  | reservedOpcode
  deriving DecidableEq, Repr

/-- The OPCODE field, bits 7:0 (R83). -/
def opcodeField (w : Word) : Byte := w.extractLsb' 0 8

/-- The RESERVED field, bits 31:8 (R83). -/
def reservedField (w : Word) : BitVec 24 := w.extractLsb' 8 24

/-- The opcode map of R84 on the OPCODE field. -/
def opcodeInstr (op : Byte) : Option Instr :=
  match op.toNat with
  | 0x00 => some .nop
  | 0x01 => some .clrf
  | 0x02 => some .scan
  | 0x03 => some .build
  | 0x04 => some .encode
  | 0x05 => some .decode
  | _ => none

/-- R84 `decode`: RESERVED is looked at first, then OPCODE. -/
def decode (w : Word) : Except IllegalWord Instr :=
  if reservedField w = 0#24 then
    match opcodeInstr (opcodeField w) with
    | some i => .ok i
    | none => .error .reservedOpcode
  else .error .reservedBits

/-- The OPCODE value of a command (R84). -/
def opcodeOf : Instr → Byte
  | .nop => 0x00#8
  | .clrf => 0x01#8
  | .scan => 0x02#8
  | .build => 0x03#8
  | .encode => 0x04#8
  | .decode => 0x05#8

/-- The CMD32 word of a command: RESERVED = 0 above OPCODE (R83, R84). -/
def encode (i : Instr) : Word := 0#24 ++ opcodeOf i

/-- The first `nbits` bits of an instruction given as a number, as the 32-bit command word the host
writes: bits from `nbits` up are 0. The block has no byte order for command words (R90: a command is
always one 32-bit word). -/
def tableWord (nbits w : Nat) : Word := BitVec.ofNat 32 (w % 2 ^ nbits)

/-- What the decoder reads from an instruction whose bits, numbered as spec/opcode_table.json numbers
them, are `w`. Nothing longer than 32 bits is a command (R90). -/
def decodeTableWord (nbits w : Nat) : Option Instr :=
  if nbits ≤ 32 then
    match decode (tableWord nbits w) with
    | .ok i => some i
    | .error _ => none
  else none

end Sys2Proof
end

