-- ==== Sys2Proof/Config.lean ====
section
/-! DEFINITION. What one launch of the block fixes (R8) and the free values the spec calls UNSPEC
(R12, 93_implementation_defined.md U1 to U6). The free values are constants with no body: no proof
can learn what they are. -/

namespace Sys2Proof

/-- Which value one UNSPEC event leaves unspecified: one constructor per kind of value of
93_implementation_defined.md section 2, so that no two of them are drawn alike. -/
inductive UnspecItem where
  /-- DMEM[a] (U1, U5, U6). -/
  | dmem (a : Nat)
  /-- CODE_LEN[s] (U2). -/
  | codeLen (s : Nat)
  /-- CODE_BITS[s][w] (U2). -/
  | codeBits (s w : Nat)
  /-- NODE_FREQ[i] (U2). -/
  | nodeFreq (i : Nat)
  /-- NODE_INFO[i] (U2). -/
  | nodeInfo (i : Nat)
  /-- OUT_BITS (U5). -/
  | outBits
  /-- OUT_BYTES (U5). -/
  | outBytes
  /-- OUT_SYMS (U5). -/
  | outSyms
  /-- The data of a host read made while BUSY = 1 (U4). -/
  | readData
  deriving DecidableEq, Repr

/-- The free 32-bit value of an item at the UNSPEC event numbered `draw` (R12 UNSPEC). -/
opaque Config.unspecWord (draw : Nat) (item : UnspecItem) : Word

/-- The free 8-bit value of an item at the UNSPEC event numbered `draw` (R12 UNSPEC). -/
opaque Config.unspecByte (draw : Nat) (item : UnspecItem) : Byte

/-- DMEM_SIZE of the launch that `State.reset` stands for (R8, P1). DESIGN CHOICE (log entry 1): the
spec leaves it open; 0x400 is the size its test vectors assume. Every other launch is a state whose
PARAM register holds another size; no step changes PARAM and no meaning reads this constant. -/
def Config.dmemSize : Word := 0x400#32

/-- The largest DMEM_SIZE the spec allows, 2^28 bytes (R8, R10). -/
def Config.dmemSizeMax : Nat := 2 ^ 28

/-- The value of the ID register, the ASCII bytes "HUF1" (R2, R22). -/
def Config.idValue : Word := 0x48554631#32

end Sys2Proof
end

