-- ==== Sys2Proof/Machine/Bits.lean ====
section
/-! DEFINITION. Bit strings and tables: packing a bit string most significant bit first (R42, R66,
R141), its inverse, byte counts (R12 ceil8), and building and reading a table. -/

namespace Sys2Proof.Machine

/-- `ceil8(n)`: the number of bytes that hold n bits (R12). -/
def ceil8 (n : Nat) : Nat := (n + 7) / 8

/-- The first `n` bits of a bit string as an `n`-bit value, its first bit in the most significant
place; a place past the end of the string is 0 (R42, R141). -/
def packMsb : (n : Nat) → List Bool → BitVec n
  | 0, _ => 0#0
  | n + 1, [] => 0#(n + 1)
  | n + 1, b :: bs => (packMsb n bs).cons b

/-- Byte `q` of a packed bit string (R141): stream bits 8q .. 8q + 7, the first in bit 7, padding 0. -/
def packByte (bits : List Bool) (q : Nat) : Byte := packMsb 8 (bits.drop (8 * q))

/-- All the bytes of a packed bit string (R66, R141): ceil8 of its length. -/
def packBytes (bits : List Bool) : List Byte :=
  (List.range' 0 (ceil8 bits.length)).map (packByte bits)

/-- Word `w` of a code laid out as CODE_BITS (R42): code bits 32w .. 32w + 31, the first in bit 31. -/
def packWord (bits : List Bool) (w : Nat) : Word := packMsb 32 (bits.drop (32 * w))

/-- Bit `j mod 8` of a stream byte, counted from its most significant bit (R66, R161). -/
def streamBit (byte : Byte) (j : Nat) : Bool := byte.getLsbD (7 - j % 8)

/-- The 32-bit word of four bytes, the first in bits 7:0 (R64 little-endian). -/
def littleEndian (b0 b1 b2 b3 : Byte) : Word := b3 ++ b2 ++ b1 ++ b0

/-- Byte `n` of a word, byte 0 being bits 7:0 (R64). -/
def byteOf (v : Word) (n : Nat) : Byte := v.extractLsb' (8 * n) 8

/-- A table of `n` entries from a function of the index. -/
def tabulate {α : Type} (n : Nat) (f : Nat → α) : Vector α n :=
  ⟨((List.range' 0 n).map f).toArray, by simp⟩

/-- The entry of a symbol in a table with one entry per symbol value. -/
def entry {α : Type} (t : SymTable α) (s : Byte) : α := t[s.toNat]'s.isLt

/-- A table with the entry of one symbol replaced. -/
def setEntry {α : Type} (t : SymTable α) (s : Byte) (v : α) : SymTable α := t.set s.toNat v s.isLt

/-- The slot of a node index in the node arena. -/
def slot {α : Type} (t : NodeTable α) (i : NodeIdx) : α := t[i.toNat]'i.isLt

/-- All symbol values in ascending order (R9, R122). -/
def allSymbols : List Byte := (List.range' 0 256).map (BitVec.ofNat 8)

end Sys2Proof.Machine
end

