-- ==== Sys2Proof/Machine/Registers.lean ====
section
/-! DEFINITION. The registers and tables of HUFF-CORE as structures (R24 to R44), and the 32-bit words
the host reads them as. Reserved bits hold nothing and read 0 (R39). -/

namespace Sys2Proof.Machine

/-- STATUS (R24): its five flags. -/
structure Status where
  /-- Bit 0: a command is pending. -/
  busy : Bool
  /-- Bit 1: the last command completed without error. -/
  done : Bool
  /-- Bit 2: the last command completed with an error. -/
  err : Bool
  /-- Bit 3: the node arena and code table are BUILD's for the current FREQ. -/
  tableValid : Bool
  /-- Bit 4: a host write was dropped while BUSY = 1. -/
  busyViol : Bool
  deriving DecidableEq, Repr

/-- IRQ_EN (R35): its three enables. -/
structure IrqEnable where
  /-- Bit 0 DONE_IE. -/
  doneIe : Bool
  /-- Bit 1 ERR_IE. -/
  errIe : Bool
  /-- Bit 2 VIOL_IE. -/
  violIe : Bool
  deriving DecidableEq, Repr

/-- The error codes of R200 (ERR_CODE bits 7:0). Codes 0x0A to 0xFF are never reported (X3), so they
have no constructor. -/
inductive ErrCode where
  | none
  | illegalCmd
  | range
  | overlap
  | noTable
  | noCode
  | dstOverflow
  | truncated
  | badBit
  | freqOverflow
  deriving DecidableEq, Repr

/-- The argument registers (R27), written only by the host. -/
structure Args where
  src : Word
  len : Word
  dst : Word
  dcap : Word
  nbits : Word
  deriving DecidableEq, Repr

/-- The result registers of ENCODE and DECODE (R29). -/
structure Results where
  outBits : Word
  outBytes : Word
  outSyms : Word
  deriving DecidableEq, Repr

/-- One NODE_INFO entry (R44). -/
structure NodeInfo where
  /-- Bit 31 LEAF. -/
  leaf : Bool
  /-- Bit 30 USED. -/
  used : Bool
  /-- Bits 25:17 RIGHT. -/
  right : NodeIdx
  /-- Bits 16:8 LEFT. -/
  left : NodeIdx
  /-- Bits 7:0 SYMBOL. -/
  symbol : Byte
  deriving DecidableEq, Repr

/-- What BUILD writes besides TABLE_VALID (R129): its result registers, the code table and the node
arena. -/
structure Built where
  /-- ALPHA bits 8:0 (R30). -/
  alpha : BitVec 9
  /-- TOTAL (R31). -/
  total : Word
  /-- ROOT (R32): `none` is NONE = 1 with INDEX = 0, `some i` is NONE = 0 with INDEX = i. -/
  root : Option NodeIdx
  /-- NODE_COUNT bits 9:0 (R33). -/
  nodeCount : BitVec 10
  /-- MAXLEN bits 7:0 (R34). -/
  maxlen : Byte
  /-- CODE_LEN bits 7:0 per symbol (R41). -/
  codeLen : SymTable Byte
  /-- CODE_BITS, eight words per symbol (R42). -/
  codeBits : SymTable (Vector Word 8)
  /-- NODE_FREQ (R43). -/
  nodeFreq : NodeTable Word
  /-- NODE_INFO (R44). -/
  nodeInfo : NodeTable NodeInfo
  deriving DecidableEq, Repr

/-- STATUS as the host reads it (R24). -/
def Status.toWord (st : Status) : Word :=
  0#27 ++ BitVec.ofBool st.busyViol ++ BitVec.ofBool st.tableValid ++ BitVec.ofBool st.err
    ++ BitVec.ofBool st.done ++ BitVec.ofBool st.busy

/-- IRQ_EN as the host reads it (R35). -/
def IrqEnable.toWord (e : IrqEnable) : Word :=
  0#29 ++ BitVec.ofBool e.violIe ++ BitVec.ofBool e.errIe ++ BitVec.ofBool e.doneIe

/-- What a host write of `v` to IRQ_EN stores (R35, R39: bits 31:3 are ignored). -/
def IrqEnable.ofWord (v : Word) : IrqEnable where
  doneIe := v.getLsbD 0
  errIe := v.getLsbD 1
  violIe := v.getLsbD 2

/-- The number of an error code (R200). -/
def ErrCode.number : ErrCode → Byte
  | .none => 0x00#8
  | .illegalCmd => 0x01#8
  | .range => 0x02#8
  | .overlap => 0x03#8
  | .noTable => 0x04#8
  | .noCode => 0x05#8
  | .dstOverflow => 0x06#8
  | .truncated => 0x07#8
  | .badBit => 0x08#8
  | .freqOverflow => 0x09#8

/-- ERR_CODE as the host reads it (R25). -/
def ErrCode.toWord (e : ErrCode) : Word := e.number.setWidth 32

/-- ROOT as the host reads it (R32). -/
def rootWord : Option NodeIdx → Word
  | none => 0x80000000#32
  | some i => i.setWidth 32

/-- ROOT.INDEX (R32): 0 when NONE = 1. -/
def Built.rootIndex (b : Built) : NodeIdx := b.root.getD 0#9

/-- NODE_INFO as the host reads it (R44). -/
def NodeInfo.toWord (n : NodeInfo) : Word :=
  BitVec.ofBool n.leaf ++ BitVec.ofBool n.used ++ 0#4 ++ n.right ++ n.left ++ n.symbol

/-- NODE_INFO's fields from a word laid out as R44 says; its reserved bits are dropped, so that they read
0 whatever the word holds (R39; log entry 3). -/
def NodeInfo.ofWord (w : Word) : NodeInfo where
  leaf := w.getLsbD 31
  used := w.getLsbD 30
  right := w.extractLsb' 17 9
  left := w.extractLsb' 8 9
  symbol := w.extractLsb' 0 8

/-- CODE_LEN[s] (R41) as a number of bits. -/
def Built.lenOf (b : Built) (s : Byte) : Nat := (entry b.codeLen s).toNat

/-- CODE_BITS[s][w] (R42). -/
def Built.codeWord (b : Built) (s : Byte) (w : Fin 8) : Word := (entry b.codeBits s)[w]

/-- Bit `j` of the 256-bit row CODE_BITS[s]: bit 31 - (j mod 32) of word j div 32 (R42). -/
def Built.codeBit (b : Built) (s : Byte) (j : Nat) : Bool :=
  ((entry b.codeBits s)[j / 32]?.getD 0#32).getLsbD (31 - j % 32)

/-- `code(s)` (R42): the first CODE_LEN[s] bits of CODE_BITS[s]. -/
def Built.codeOf (b : Built) (s : Byte) : List Bool :=
  (List.range' 0 (b.lenOf s)).map (b.codeBit s)

/-- BUILD's results after a reset (R49, U2, U3): the registers at their reset values, the code table
and node arena UNSPEC, drawn at the event `draw`. -/
def Built.reset (draw : Nat) : Built where
  alpha := 0#9
  total := 0#32
  root := none
  nodeCount := 0#10
  maxlen := 0#8
  codeLen := tabulate 256 fun s => Config.unspecByte draw (.codeLen s)
  codeBits := tabulate 256 fun s => tabulate 8 fun w => Config.unspecWord draw (.codeBits s w)
  nodeFreq := tabulate 512 fun i => Config.unspecWord draw (.nodeFreq i)
  nodeInfo := tabulate 512 fun i => NodeInfo.ofWord (Config.unspecWord draw (.nodeInfo i))

end Sys2Proof.Machine
end

