-- ==== Sys2Proof/Machine/Txn.lean ====
section
/-! DEFINITION. What reaches the block from outside and what it answers: host bus transactions, their
responses (R80), and the turns that say which agent moves next (R17). -/

namespace Sys2Proof.Machine

/-- The direction of a host transaction (R80). -/
inductive Dir where
  /-- The host reads. -/
  | read
  /-- The host writes. -/
  | write
  deriving DecidableEq, Repr

/-- A host transaction (R80). `offset` is the byte offset from BLOCK_BASE, `size` the access width in
bits (any number: only 8 and 32 are ever accepted, R63). `wdata` holds the value written in its low
`size` bits; a transaction wider than 32 bits is never accepted, so what it would write is not kept
(log entry 8). -/
structure Txn where
  dir : Dir
  offset : Word
  size : Nat
  wdata : Word
  deriving DecidableEq, Repr

/-- The answer to a host transaction (R80). DESIGN CHOICE (log entry 8): read data is 32 bits wide. R63 and
R80 let the bus be wider, and no rule gives the width to which R64 zero-extends an 8-bit read. -/
inductive Response where
  /-- OK for a write: no data. -/
  | okWrite
  /-- OK(rdata) for a read. -/
  | okRead (rdata : Word)
  /-- BUSERR: the transaction was not accepted (R81, R209). -/
  | busErr
  deriving DecidableEq, Repr

/-- One turn of the model (R17): the host issues a transaction, the core takes its step, or the
reset input rst is asserted and released. -/
inductive Turn where
  /-- The host issues one transaction (R80). -/
  | host (t : Txn)
  /-- The core is given the chance to complete the pending command (R86). -/
  | core
  /-- The reset input is asserted and released (R230). -/
  | rst
  deriving DecidableEq, Repr

end Sys2Proof.Machine
end

