-- ==== Sys2Proof/Machine/State.lean ====
section
/-! DEFINITION. The whole state of HUFF-CORE (R20) as plain data, the reasons a step can stop, and the
state after the reset input rst (R49). ID and CTRL hold nothing: ID reads a constant (R22), CTRL
reads 0 (R36). -/

namespace Sys2Proof.Machine

/-- The written bytes of DMEM as (address, byte) pairs, addresses strictly rising (`Memory.wf`). An
address that is not listed holds an UNSPEC byte (R231), which is no fixed value. -/
abbrev Memory := List Host.Cell

/-- The state of HUFF-CORE (R20). The last four fields are the model's own, not the spec's: the two
numbers that name UNSPEC draws (log entry 2), the turns still to be taken and the last bus response
(log entry 5). -/
structure State where
  /-- CMD (R23): the last word stored; the pending command while `status.busy`. -/
  cmd : Word
  /-- STATUS (R24). -/
  status : Status
  /-- ERR_CODE (R25). -/
  errCode : ErrCode
  /-- ERR_INFO (R26). -/
  errInfo : Word
  /-- SRC, LEN, DST, DCAP, NBITS (R27). -/
  args : Args
  /-- OUT_BITS, OUT_BYTES, OUT_SYMS (R29). -/
  results : Results
  /-- ALPHA, TOTAL, ROOT, NODE_COUNT, MAXLEN, CODE_LEN, CODE_BITS, NODE_FREQ, NODE_INFO (R30 to R34,
  R41 to R44). -/
  built : Built
  /-- IRQ_EN (R35). -/
  irqEn : IrqEnable
  /-- PARAM (R37): DMEM_SIZE, fixed for a launch. -/
  param : Word
  /-- FREQ (R40). -/
  freq : SymTable Word
  /-- DMEM (R46): the bytes that have been given a value. -/
  mem : Memory
  /-- MODEL'S OWN: the UNSPEC event that gives the bytes of DMEM with no entry in `mem`. -/
  dmemDraw : Nat
  /-- MODEL'S OWN: the number of the next UNSPEC event. -/
  draws : Nat
  /-- MODEL'S OWN: the turns still to be taken, next first. -/
  turns : List Turn
  /-- MODEL'S OWN: the answer to the last host transaction. -/
  response : Option Response
  deriving DecidableEq, Repr

/-- The reasons the machine stops with a fault: there are none. The spec gives every command and every
transaction an outcome after which the block goes on (R84, R182, R200, R209: an error completes the
command, BUSERR is a bus response). Safe: the type is empty, so no step can hide a stop in it. -/
inductive Fault
  deriving DecidableEq, Repr

/-- The reasons a step is refused. -/
inductive Refusal where
  /-- Raised by `exec`'s arm for an instruction that has no meaning yet, and by nothing else. Safe:
  the run stops where the hardware goes on. No arm raises it in this model. -/
  | notModelled (mnemonic : String)
  deriving DecidableEq, Repr

/-- The state right after the reset input rst (R49, column "after rst"), for a launch with DMEM_SIZE =
`Config.dmemSize` (log entry 1). UNSPEC event 0 gives the tables and the DMEM bytes (U1, U2). -/
def State.reset : State where
  cmd := 0#32
  status := ⟨false, false, false, false, false⟩
  errCode := .none
  errInfo := 0#32
  args := ⟨0#32, 0#32, 0#32, 0#32, 0#32⟩
  results := ⟨0#32, 0#32, 0#32⟩
  built := Built.reset 0
  irqEn := ⟨false, false, false⟩
  param := Config.dmemSize
  freq := Vector.replicate 256 0#32
  mem := []
  dmemDraw := 0
  draws := 1
  turns := []
  response := none

end Sys2Proof.Machine
end

