-- ==== Sys2Proof/Machine/Flags.lean ====
section
/-! DEFINITION. Every computation on the flags of STATUS (R24, R48) and the irq output (R210). -/

namespace Sys2Proof.Machine

/-- The flags after the issue of a command (R85): BUSY set, DONE and ERR cleared, the rest kept. -/
def Status.issue (st : Status) : Status := { st with busy := true, done := false, err := false }

/-- The flags after a completion without error (R86, R206). -/
def Status.succeed (st : Status) : Status := { st with done := true, busy := false }

/-- The flags after a completion with an error (R86, R203). -/
def Status.fail (st : Status) : Status := { st with err := true, busy := false }

/-- The flags after a host write of `v` to STATUS (R24): DONE, ERR and BUSY_VIOL are cleared where `v`
has a 1 in their place; the other bits of `v` are ignored. -/
def Status.writeOneClear (st : Status) (v : Word) : Status :=
  { st with
    done := st.done && !v.getLsbD 1
    err := st.err && !v.getLsbD 2
    busyViol := st.busyViol && !v.getLsbD 4 }

/-- The flags after a change to FREQ (R48): TABLE_VALID cleared. -/
def Status.invalidate (st : Status) : Status := { st with tableValid := false }

/-- The flags after a successful BUILD (R129): TABLE_VALID set. -/
def Status.validate (st : Status) : Status := { st with tableValid := true }

/-- The flags after a host write was dropped (R50): BUSY_VIOL set. -/
def Status.violate (st : Status) : Status := { st with busyViol := true }

/-- The irq output (R210), a function of the state at every moment. -/
def State.irq (s : State) : Bool :=
  (s.status.done && s.irqEn.doneIe) || (s.status.err && s.irqEn.errIe)
    || (s.status.busyViol && s.irqEn.violIe)

end Sys2Proof.Machine
end

