-- ==== Sys2Proof/Machine/Operands.lean ====
section
/-! DEFINITION. The operands of the commands (R28, R87, R88): the argument registers read as natural
numbers, the windows they name (R69), and the range and overlap checks on windows (R69, R70). -/

namespace Sys2Proof.Machine

/-- DMEM_SIZE of the launch (R8), the value of PARAM (R37). -/
def State.dmemSize (s : State) : Nat := s.param.toNat

/-- A byte range [base, base + len) of DMEM (R16, R69). -/
structure Window where
  base : Nat
  len : Nat
  deriving DecidableEq, Repr

/-- The address lies in the window. -/
abbrev Window.has (w : Window) (a : Nat) : Prop := w.base ≤ a ∧ a < w.base + w.len

/-- R69: a window is in range when base + len <= DMEM_SIZE, on unbounded naturals. -/
abbrev Window.inRange (w : Window) (size : Nat) : Prop := w.base + w.len ≤ size

/-- R70: two windows overlap when neither is empty and each begins before the other ends. -/
abbrev Window.overlaps (v w : Window) : Prop :=
  0 < v.len ∧ 0 < w.len ∧ v.base < w.base + w.len ∧ w.base < v.base + v.len

/-- The source window of SCAN and ENCODE, [SRC, SRC + LEN) (R69). -/
def State.inputWindow (s : State) : Window := ⟨s.args.src.toNat, s.args.len.toNat⟩

/-- The source window of DECODE, [SRC, SRC + ceil8(NBITS)) (R69). -/
def State.streamWindow (s : State) : Window := ⟨s.args.src.toNat, ceil8 s.args.nbits.toNat⟩

/-- The destination window of ENCODE and DECODE, [DST, DST + DCAP) (R69). -/
def State.outputWindow (s : State) : Window := ⟨s.args.dst.toNat, s.args.dcap.toNat⟩

end Sys2Proof.Machine
end

