-- ==== Sys2Proof/Machine/Ops.lean ====
section
/-! DEFINITION. The named operations over DMEM and the registers: reading and writing bytes, making
bytes UNSPEC, the issue of a command, its completion without error, and its completion with an error
(the "trap entry" of HUFF-CORE, R203) with what undoes it (R207). -/

namespace Sys2Proof.Machine

/-- The canonical form of DMEM: addresses strictly rising. An unlisted address has no fixed value, so
no entry can equal it. -/
abbrev Memory.wf (m : Memory) : Prop := m.Pairwise fun c d => c.1 < d.1

/-- The byte listed for an address, if there is one. -/
def Memory.find : Memory → Nat → Option Byte
  | [], _ => none
  | (a', b) :: m, a => if a = a' then some b else Memory.find m a

/-- DMEM with one byte written: its entry replaced, or put in its place by address. -/
def Memory.write : Memory → Nat → Byte → Memory
  | [], a, v => [(a, v)]
  | (a', b) :: m, a, v =>
    if a < a' then (a, v) :: (a', b) :: m
    else if a = a' then (a, v) :: m
    else (a', b) :: Memory.write m a v

/-- The byte an address holds that nothing has written since the last UNSPEC event over it (R231, U1):
a free value. This is the one definition of what an unlisted address reads as. -/
def State.unwrittenByte (s : State) (a : Nat) : Byte := Config.unspecByte s.dmemDraw (.dmem a)

/-- `MemRead(a, 1)` (R12). -/
def State.readByte (s : State) (a : Nat) : Byte := (Memory.find s.mem a).getD (s.unwrittenByte a)

/-- `MemWrite(a, 1, v)` (R12). -/
def State.writeByte (s : State) (a : Nat) (v : Byte) : State := { s with mem := Memory.write s.mem a v }

/-- The bytes of a window, in address order (R65). -/
def State.readBytes (s : State) (w : Window) : List Byte :=
  (List.range' 0 w.len).map fun i => s.readByte (w.base + i)

/-- Bytes written one after another from an address up (R65, R96). -/
def State.writeBytes : State → Nat → List Byte → State
  | s, _, [] => s
  | s, a, v :: vs => (s.writeByte a v).writeBytes (a + 1) vs

/-- The stream bits 0 .. n - 1 stored at a byte address (R66, R161). -/
def State.streamBits (s : State) (base n : Nat) : List Bool :=
  (List.range' 0 n).map fun j => streamBit (s.readByte (base + j / 8)) j

/-- The free bytes that the UNSPEC event about to happen gives a window: one per address of the
window that lies in DMEM (log entry 4). -/
def State.unspecBytes (s : State) (w : Window) : List Byte :=
  (List.range' 0 (min w.len (s.dmemSize - w.base))).map fun q =>
    Config.unspecByte s.draws (.dmem (w.base + q))

/-- DMEM with every byte of a window UNSPEC (U5, U6). -/
def State.forgetWindow (s : State) (w : Window) : State := s.writeBytes w.base (s.unspecBytes w)

/-- OUT_BITS, OUT_BYTES and OUT_SYMS UNSPEC (U5). -/
def Results.unspec (draw : Nat) : Results where
  outBits := Config.unspecWord draw .outBits
  outBytes := Config.unspecWord draw .outBytes
  outSyms := Config.unspecWord draw .outSyms

/-- The whole output of ENCODE or DECODE UNSPEC, as a runtime error leaves it (R205): the destination
window and the three result registers. It is one UNSPEC event. -/
def State.forgetOutput (s : State) : State :=
  { s.forgetWindow s.outputWindow with results := Results.unspec s.draws, draws := s.draws + 1 }

/-- The issue of a command word (R85), in one step. -/
def State.issue (s : State) (w : Word) : State :=
  { s with cmd := w, status := s.status.issue, errCode := .none, errInfo := 0#32 }

/-- Completion without error (R86, R206). -/
def State.succeed (s : State) : State := { s with status := s.status.succeed }

/-- Completion with an error (R86, R203): HUFF-CORE's way of taking an exception. ERR is set, ERR_CODE
and ERR_INFO record it, BUSY is cleared; nothing is saved and nothing is switched. After an up-front
error nothing else changes (R204). -/
def State.raise (s : State) (e : ErrCode) (info : Word) : State :=
  { s with status := s.status.fail, errCode := e, errInfo := info }

/-- Completion with a runtime error (R205): the output is UNSPEC, then the error is recorded. -/
def State.raiseRuntime (s : State) (e : ErrCode) (info : Word) : State := s.forgetOutput.raise e info

/-- The up-front checks of ENCODE and DECODE in the order of R202, for a source window: the error and
its ERR_INFO, or none. -/
def State.upFrontError (s : State) (source : Window) : Option (ErrCode × Word) :=
  if s.status.tableValid = false then some (.noTable, 0#32)
  else if ¬ source.inRange s.dmemSize then some (.range, 0#32)
  else if ¬ s.outputWindow.inRange s.dmemSize then some (.range, 1#32)
  else if source.overlaps s.outputWindow then some (.overlap, 0#32)
  else none

/-- What returns from an error (R207): nothing is restored; the host clears STATUS bits by writing 1 to
them (R24). ERR_CODE and ERR_INFO stay until the next issue. -/
def State.acknowledge (s : State) (v : Word) : State := { s with status := s.status.writeOneClear v }

/-- A change of FREQ (R48): the new table, TABLE_VALID cleared. -/
def State.setFreq (s : State) (f : SymTable Word) : State :=
  { s with freq := f, status := s.status.invalidate }

/-- The answer of the bus to the transaction just handled (R80). -/
def State.respond (s : State) (r : Response) : State := { s with response := some r }

end Sys2Proof.Machine
end

