-- ==== Sys2Proof/Machine/Reset.lean ====
section
/-! DEFINITION. The two resets (70_reset_and_hazards.md section 1). -/

namespace Sys2Proof.Machine

/-- The state both resets leave (R49), over the DMEM given: every register at its reset value, FREQ 0,
the code table and node arena UNSPEC. PARAM, the turns still to come and the last bus response are not
reset (log entry 5). It is one UNSPEC event. -/
def State.resetOver (s : State) (mem : Memory) (dmemDraw : Nat) : State :=
  { State.reset with
    built := Built.reset s.draws
    param := s.param
    mem := mem
    dmemDraw := dmemDraw
    draws := s.draws + 1
    turns := s.turns
    response := s.response }

/-- The reset input rst (R230, R231): every DMEM byte UNSPEC too. -/
def State.hardReset (s : State) : State := s.resetOver [] s.draws

/-- An ENCODE or DECODE is pending, so a reset may catch it writing its output (R232). -/
def State.outputPending (s : State) : Bool :=
  s.status.busy &&
    match decode s.cmd with
    | .ok .encode | .ok .decode => true
    | .ok .nop | .ok .clrf | .ok .scan | .ok .build | .error _ => false

/-- Soft reset (R232): DMEM is kept, but the destination window of a pending ENCODE or DECODE becomes
UNSPEC. -/
def State.softReset (s : State) : State :=
  s.resetOver (if s.outputPending then (s.forgetWindow s.outputWindow).mem else s.mem) s.dmemDraw

end Sys2Proof.Machine
end

