-- ==== Sys2Proof/Machine/Scanner.lean ====
section
/-! DEFINITION. The frequency table scanner: CLRF, SCAN and the host's write to FREQ
(40_frequency_scanner.md). -/

namespace Sys2Proof.Machine

/-- The all-zero frequency table (R100, R102). -/
def zeroFreq : SymTable Word := Vector.replicate 256 0#32

/-- One symbol counted: its entry plus 1, in 32 bits (R102). -/
def countSymbol (f : SymTable Word) (s : Byte) : SymTable Word := setEntry f s (entry f s + 1#32)

/-- The frequency table of a byte sequence, counted from zero (R102). -/
def histogram (input : List Byte) : SymTable Word := input.foldl countSymbol zeroFreq

/-- CLRF (R100): FREQ all 0, TABLE_VALID cleared. -/
def execClrf (s : State) : Host.Outcome State Fault Refusal := .next (s.setFreq zeroFreq).succeed

/-- SCAN (R102): RANGE(0) when the source window is out of range, else FREQ becomes the histogram of
the window and TABLE_VALID is cleared. -/
def execScan (s : State) : Host.Outcome State Fault Refusal :=
  if s.inputWindow.inRange s.dmemSize then
    .next (s.setFreq (histogram (s.readBytes s.inputWindow))).succeed
  else .next (s.raise .range 0#32)

/-- An accepted host write of `v` to FREQ[sym] while BUSY = 0 (R105). -/
def State.writeFreq (s : State) (sym : Byte) (v : Word) : State := s.setFreq (setEntry s.freq sym v)

end Sys2Proof.Machine
end

