-- ==== Sys2Proof/Machine/Bus.lean ====
section
/-! DEFINITION. The host interface: the register map (R38), which transactions are accepted (R81), what
an access does while BUSY = 0 (R51) and while BUSY = 1 (R50), and one host step (R82). -/

namespace Sys2Proof.Machine

/-- The control and status registers of R38, in the order of their offsets. -/
inductive Reg where
  | id | cmd | status | errCode | errInfo | src | len | dst | dcap | nbits
  | outBits | outBytes | outSyms | alpha | total | root | nodeCount | maxlen | irqEn | ctrl | param
  deriving DecidableEq, Repr

/-- What a mapped host offset names (R38). -/
inductive Target where
  | reg (r : Reg)
  | freq (s : Byte)
  | codeLen (s : Byte)
  | codeBits (s : Byte) (w : Fin 8)
  | nodeFreq (i : NodeIdx)
  | nodeInfo (i : NodeIdx)
  | dmem (a : Nat)
  deriving DecidableEq, Repr

/-- The register at word number `n` of the map (offset 4n), R38. -/
def regAt : Nat → Option Reg
  | 0 => some .id | 1 => some .cmd | 2 => some .status | 3 => some .errCode | 4 => some .errInfo
  | 5 => some .src | 6 => some .len | 7 => some .dst | 8 => some .dcap | 9 => some .nbits
  | 10 => some .outBits | 11 => some .outBytes | 12 => some .outSyms | 13 => some .alpha
  | 14 => some .total | 15 => some .root | 16 => some .nodeCount | 17 => some .maxlen
  | 18 => some .irqEn | 19 => some .ctrl | 20 => some .param | _ => none

/-- What the byte at a host offset belongs to (R38, R62); none where nothing is mapped (R79). -/
def locate (size off : Nat) : Option Target :=
  if off < 0x400 then (regAt (off / 4)).map .reg
  else if off < 0x800 then some (.freq (BitVec.ofNat 8 ((off - 0x400) / 4)))
  else if off < 0xC00 then some (.codeLen (BitVec.ofNat 8 ((off - 0x800) / 4)))
  else if off < 0x1000 then none
  else if off < 0x3000 then
    some (.codeBits (BitVec.ofNat 8 ((off - 0x1000) / 32)) (Fin.ofNat 8 ((off - 0x1000) / 4)))
  else if off < 0x4000 then none
  else if off < 0x4800 then some (.nodeFreq (BitVec.ofNat 9 ((off - 0x4000) / 4)))
  else if off < 0x5000 then some (.nodeInfo (BitVec.ofNat 9 ((off - 0x4800) / 4)))
  else if off < 0x10000 then none
  else if off < 0x10000 + size then some (.dmem (off - 0x10000))
  else none

/-- R63: the sizes and alignments accepted at a target. -/
def sizeOk (size off bits : Nat) : Target → Bool
  | .dmem a => bits == 8 || (bits == 32 && a % 4 == 0 && decide (a + 3 < size))
  | .reg _ | .freq _ | .codeLen _ | .codeBits _ _ | .nodeFreq _ | .nodeInfo _ =>
    bits == 32 && off % 4 == 0

/-- R81 item 3: the read-only offsets. -/
def Target.readOnly : Target → Bool
  | .reg .id | .reg .errCode | .reg .errInfo | .reg .outBits | .reg .outBytes | .reg .outSyms
  | .reg .alpha | .reg .total | .reg .root | .reg .nodeCount | .reg .maxlen | .reg .param
  | .codeLen _ | .codeBits _ _ | .nodeFreq _ | .nodeInfo _ => true
  | .reg .cmd | .reg .status | .reg .src | .reg .len | .reg .dst | .reg .dcap | .reg .nbits
  | .reg .irqEn | .reg .ctrl | .freq _ | .dmem _ => false

/-- R50: the offsets whose value the host can read while BUSY = 1. -/
def Target.readableWhileBusy : Target → Bool
  | .reg .id | .reg .cmd | .reg .status | .reg .src | .reg .len | .reg .dst | .reg .dcap
  | .reg .nbits | .reg .irqEn | .reg .ctrl | .reg .param => true
  | .reg .errCode | .reg .errInfo | .reg .outBits | .reg .outBytes | .reg .outSyms | .reg .alpha
  | .reg .total | .reg .root | .reg .nodeCount | .reg .maxlen | .freq _ | .codeLen _
  | .codeBits _ _ | .nodeFreq _ | .nodeInfo _ | .dmem _ => false

/-- R81: the target of an accepted transaction; none when it is answered BUSERR. The checks come in
R81's order: mapped, size and alignment, writable. -/
def accept (size : Nat) (t : Txn) : Option Target :=
  match locate size t.offset.toNat with
  | none => none
  | some target =>
    if sizeOk size t.offset.toNat t.size target = false then none
    else if t.dir = .write ∧ target.readOnly = true then none
    else some target

/-- The value of a control or status register (R22 to R37). -/
def State.readReg (s : State) : Reg → Word
  | .id => Config.idValue
  | .cmd => s.cmd
  | .status => s.status.toWord
  | .errCode => s.errCode.toWord
  | .errInfo => s.errInfo
  | .src => s.args.src
  | .len => s.args.len
  | .dst => s.args.dst
  | .dcap => s.args.dcap
  | .nbits => s.args.nbits
  | .outBits => s.results.outBits
  | .outBytes => s.results.outBytes
  | .outSyms => s.results.outSyms
  | .alpha => s.built.alpha.setWidth 32
  | .total => s.built.total
  | .root => rootWord s.built.root
  | .nodeCount => s.built.nodeCount.setWidth 32
  | .maxlen => s.built.maxlen.setWidth 32
  | .irqEn => s.irqEn.toWord
  | .ctrl => 0#32
  | .param => s.param

/-- A 32-bit read of DMEM (R64 little-endian). -/
def State.readWord (s : State) (a : Nat) : Word :=
  littleEndian (s.readByte a) (s.readByte (a + 1)) (s.readByte (a + 2)) (s.readByte (a + 3))

/-- A 32-bit write of DMEM (R64 little-endian). -/
def State.writeWord (s : State) (a : Nat) (v : Word) : State :=
  s.writeBytes a [byteOf v 0, byteOf v 1, byteOf v 2, byteOf v 3]

/-- What an accepted read returns while its value is defined (R51). An 8-bit read zero-extends (R64). -/
def State.readTarget (s : State) (bits : Nat) : Target → Word
  | .reg r => s.readReg r
  | .freq sym => entry s.freq sym
  | .codeLen sym => (entry s.built.codeLen sym).setWidth 32
  | .codeBits sym w => s.built.codeWord sym w
  | .nodeFreq i => slot s.built.nodeFreq i
  | .nodeInfo i => (slot s.built.nodeInfo i).toWord
  | .dmem a => if bits = 8 then (s.readByte a).setWidth 32 else s.readWord a

/-- A host write to a control or status register while BUSY = 0 (R51), CTRL at any time (R36). The
read-only registers are never reached (R81). -/
def State.writeReg (s : State) (v : Word) : Reg → State
  | .cmd => s.issue v
  | .status => s.acknowledge v
  | .src => { s with args := { s.args with src := v } }
  | .len => { s with args := { s.args with len := v } }
  | .dst => { s with args := { s.args with dst := v } }
  | .dcap => { s with args := { s.args with dcap := v } }
  | .nbits => { s with args := { s.args with nbits := v } }
  | .irqEn => { s with irqEn := IrqEnable.ofWord v }
  | .ctrl => if v.getLsbD 0 then s.softReset else s
  | .id | .errCode | .errInfo | .outBits | .outBytes | .outSyms | .alpha | .total | .root
  | .nodeCount | .maxlen | .param => s

/-- R82 `performWrite`: an accepted host write. An 8-bit write stores its low 8 bits (R64). -/
def State.writeTarget (s : State) (bits : Nat) (v : Word) : Target → State
  | .reg r => s.writeReg v r
  | .freq sym => s.writeFreq sym v
  | .dmem a => if bits = 8 then s.writeByte a (byteOf v 0) else s.writeWord a v
  | .codeLen _ | .codeBits _ _ | .nodeFreq _ | .nodeInfo _ => s

/-- A host read of a value that is UNSPEC while BUSY = 1 (R50, U4): a free word, drawn per read, also for
an 8-bit access (log entry 7). -/
def State.respondUnspec (s : State) : State :=
  { s.respond (.okRead (Config.unspecWord s.draws .readData)) with draws := s.draws + 1 }

/-- A host write dropped while BUSY = 1 (R50). -/
def State.dropWrite (s : State) : State := { s with status := s.status.violate }

/-- One host step (R82): a transaction handled and answered. -/
def State.hostStep (s : State) (t : Txn) : State :=
  match accept s.dmemSize t with
  | none => s.respond .busErr
  | some target =>
    match t.dir with
    | .write =>
      if s.status.busy = true ∧ target ≠ .reg .ctrl then s.dropWrite.respond .okWrite
      else (s.writeTarget t.size t.wdata target).respond .okWrite
    | .read =>
      if s.status.busy = true ∧ target.readableWhileBusy = false then s.respondUnspec
      else s.respond (.okRead (s.readTarget t.size target))

end Sys2Proof.Machine
end

