-- ==== Sys2Proof/Machine/Control.lean ====
section
/-! DEFINITION. The control commands: NOP and illegal command words (44_control_commands.md). -/

namespace Sys2Proof.Machine

/-- NOP (R180): nothing but the completion. -/
def execNop (s : State) : Host.Outcome State Fault Refusal := .next s.succeed

/-- An illegal command word (R182): ILLEGAL_CMD with ERR_INFO = the word in CMD. -/
def illegalCommand (s : State) : State := s.raise .illegalCmd s.cmd

end Sys2Proof.Machine
end

