-- ==== Sys2Proof/Machine/Encoder.lean ====
section
/-! DEFINITION. The encoder, ENCODE: code-table lookup and bit packer (42_encoder.md). -/

namespace Sys2Proof.Machine

/-- ENCODE's loop over the input bytes (R140) from offset `i` on, with the bits so far: NO_CODE(i) for
a byte with CODE_LEN 0 (R142), then DST_OVERFLOW(i) when its code would pass 8 * DCAP bits. -/
def encodeFrom (b : Built) (dcap : Nat) : Nat → List Bool → List Byte → Except (ErrCode × Nat) (List Bool)
  | _, bits, [] => .ok bits
  | i, bits, s :: rest =>
    if b.lenOf s = 0 then .error (.noCode, i)
    else if 8 * dcap < bits.length + b.lenOf s then .error (.dstOverflow, i)
    else encodeFrom b dcap (i + 1) (bits ++ b.codeOf s) rest

/-- ENCODE's results (R140): the packed bytes at DST, OUT_BITS, OUT_BYTES, OUT_SYMS = LEN. -/
def State.writeEncoded (s : State) (bits : List Bool) : State :=
  { s.writeBytes s.args.dst.toNat (packBytes bits) with
    results :=
      { outBits := BitVec.ofNat 32 bits.length
        outBytes := BitVec.ofNat 32 (ceil8 bits.length)
        outSyms := s.args.len } }

/-- ENCODE (R140). -/
def execEncode (s : State) : Host.Outcome State Fault Refusal :=
  match s.upFrontError s.inputWindow with
  | some (e, info) => .next (s.raise e info)
  | none =>
    match encodeFrom s.built s.args.dcap.toNat 0 [] (s.readBytes s.inputWindow) with
    | .error (e, i) => .next (s.raiseRuntime e (BitVec.ofNat 32 i))
    | .ok bits => .next (s.writeEncoded bits).succeed

end Sys2Proof.Machine
end

