-- ==== Sys2Proof/Machine/Decoder.lean ====
section
/-! DEFINITION. The decoder, DECODE: bit unpacker and tree walker (43_decoder.md). -/

namespace Sys2Proof.Machine

/-- DECODE's variables (R160): the symbols emitted, the position in the tree, and the index of the first
bit of the code being read. -/
structure Walk where
  out : List Byte
  pos : NodeIdx
  start : Nat
  deriving DecidableEq, Repr

/-- R160 `emit` (R166): DST_OVERFLOW(j) when DCAP symbols have been emitted; else the symbol is added,
the position returns to the root and the next code starts at bit j + 1. -/
def Walk.emit (w : Walk) (b : Built) (dcap j : Nat) (sym : Byte) : Except (ErrCode × Nat) Walk :=
  if w.out.length = dcap then .error (.dstOverflow, j)
  else .ok { out := w.out ++ [sym], pos := b.rootIndex, start := j + 1 }

/-- The child that a bit leads to (R162): LEFT for 0, RIGHT for 1. -/
def Built.child (b : Built) (i : NodeIdx) (bit : Bool) : NodeIdx :=
  if bit then (slot b.nodeInfo i).right else (slot b.nodeInfo i).left

/-- DECODE's loop body (R160) on stream bit `j`: BAD_BIT(j) for an empty tree (R164) and for a 1 bit
under a single-leaf tree (R163); a move in the tree otherwise (R162). -/
def Walk.step (w : Walk) (b : Built) (dcap j : Nat) (bit : Bool) : Except (ErrCode × Nat) Walk :=
  if b.alpha = 0#9 then .error (.badBit, j)
  else if b.alpha = 1#9 then
    if bit then .error (.badBit, j) else w.emit b dcap j (slot b.nodeInfo b.rootIndex).symbol
  else
    let next := b.child w.pos bit
    if (slot b.nodeInfo next).leaf then w.emit b dcap j (slot b.nodeInfo next).symbol
    else .ok { w with pos := next }

/-- DECODE's loop (R160) over the stream bits from index `j` on. -/
def Walk.run (b : Built) (dcap : Nat) : Nat → Walk → List Bool → Except (ErrCode × Nat) Walk
  | _, w, [] => .ok w
  | j, w, bit :: bits =>
    match w.step b dcap j bit with
    | .error e => .error e
    | .ok w' => Walk.run b dcap (j + 1) w' bits

/-- DECODE's whole walk (R160): the loop from the root, then TRUNCATED (R165) when the position is not
the root after the last bit. -/
def decodeStream (b : Built) (dcap : Nat) (bits : List Bool) : Except (ErrCode × Nat) (List Byte) :=
  match Walk.run b dcap 0 { out := [], pos := b.rootIndex, start := 0 } bits with
  | .error e => .error e
  | .ok w => if w.pos ≠ b.rootIndex then .error (.truncated, w.start) else .ok w.out

/-- DECODE's results (R160): the symbols at DST, OUT_BITS = NBITS, OUT_BYTES = OUT_SYMS = their
number. -/
def State.writeDecoded (s : State) (out : List Byte) : State :=
  { s.writeBytes s.args.dst.toNat out with
    results :=
      { outBits := s.args.nbits
        outBytes := BitVec.ofNat 32 out.length
        outSyms := BitVec.ofNat 32 out.length } }

/-- DECODE (R160). -/
def execDecode (s : State) : Host.Outcome State Fault Refusal :=
  match s.upFrontError s.streamWindow with
  | some (e, info) => .next (s.raise e info)
  | none =>
    match decodeStream s.built s.args.dcap.toNat
        (s.streamBits s.args.src.toNat s.args.nbits.toNat) with
    | .error (e, i) => .next (s.raiseRuntime e (BitVec.ofNat 32 i))
    | .ok out => .next (s.writeDecoded out).succeed

end Sys2Proof.Machine
end

