-- ==== Sys2Proof/Machine/Generator.lean ====
section
/-! DEFINITION. The code-table generator, BUILD: the tree builder and the depth-first code deriver
(41_code_table_generator.md). -/

namespace Sys2Proof.Machine

/-- A node of the tree being built (R126): the tagged form of R44. Frequencies are exact naturals
until they are written to the arena. -/
inductive Node where
  | leaf (sym : Byte) (freq : Nat)
  | internal (freq left right : Nat)
  deriving DecidableEq, Repr

/-- freq(i) of a node (R123). -/
def Node.freq : Node → Nat
  | .leaf _ f => f
  | .internal f _ _ => f

/-- The sum of all FREQ entries, without wrap (R121). -/
def freqTotal (f : SymTable Word) : Nat := (allSymbols.map fun s => (entry f s).toNat).sum

/-- R121's overflow check: the sum is past 2^32 - 1. -/
abbrev freqOverflows (f : SymTable Word) : Prop := 2 ^ 32 - 1 < freqTotal f

/-- R122 `seed`: one leaf per symbol with a nonzero count, in ascending symbol order. -/
def seed (f : SymTable Word) : List Node :=
  allSymbols.filterMap fun s => if entry f s = 0#32 then none else some (.leaf s (entry f s).toNat)

/-- freq(i) of the node with index `i` (R123). -/
def freqAt (nodes : List Node) (i : Nat) : Nat := (nodes[i]?.map Node.freq).getD 0

/-- R123: node i comes before node j in the order of (freq, index). -/
abbrev comesBefore (nodes : List Node) (i j : Nat) : Prop :=
  freqAt nodes i < freqAt nodes j ∨ (freqAt nodes i = freqAt nodes j ∧ i < j)

/-- The first index of a pool in the order of R123, and the pool without it. -/
def popFirst (nodes : List Node) : List Nat → Option (Nat × List Nat)
  | [] => none
  | i :: pool =>
    match popFirst nodes pool with
    | none => some (i, [])
    | some (j, rest) => if comesBefore nodes i j then some (i, pool) else some (j, i :: rest)

/-- The merge's state (R124): the nodes by index, and the indices in the pool. -/
structure Forest where
  nodes : List Node
  pool : List Nat
  deriving DecidableEq, Repr

/-- One merge step (R124): the first node of the pool becomes the left child and the first of the
rest the right child of a new node, which joins the pool. A pool of fewer than two nodes is left
alone. -/
def Forest.mergeOnce (t : Forest) : Forest :=
  match popFirst t.nodes t.pool with
  | none => t
  | some (a, pool) =>
    match popFirst t.nodes pool with
    | none => t
    | some (b, rest) =>
      { nodes := t.nodes ++ [.internal (freqAt t.nodes a + freqAt t.nodes b) a b]
        pool := rest ++ [t.nodes.length] }

/-- R124's loop: merge while the pool holds more than one node, at most `n` times. -/
def Forest.mergeAll : Nat → Forest → Forest
  | 0, t => t
  | n + 1, t => if 1 < t.pool.length then Forest.mergeAll n t.mergeOnce else t

/-- The forest of R122: the leaves, all of them in the pool. -/
def seedForest (f : SymTable Word) : Forest :=
  let leaves := seed f
  { nodes := leaves, pool := List.range' 0 leaves.length }

/-- R124 `merge` after R122 `seed`: each step takes one node from the pool, so as many steps as there
are leaves are enough. -/
def huffmanForest (f : SymTable Word) : Forest := (seedForest f).mergeAll (seed f).length

/-- The root (R124, R125): none for an empty alphabet, else the one node left in the pool. -/
def Forest.root (t : Forest) : Option Nat := t.pool.head?

/-- R127 `walk`: the symbols below a node, each with its path, depth first and left child first. The
depth of the walk is at most `fuel`. -/
def walkCodes (nodes : List Node) : Nat → Nat → List Bool → List (Byte × List Bool)
  | 0, _, _ => []
  | fuel + 1, i, path =>
    match nodes[i]? with
    | none => []
    | some (.leaf s _) => [(s, path)]
    | some (.internal _ l r) =>
      walkCodes nodes fuel l (path ++ [false]) ++ walkCodes nodes fuel r (path ++ [true])

/-- R127 `derive`: the codes of an alphabet of `k` symbols. For k = 1 the single leaf's code is the one
bit 0; for k = 0 there is none. -/
def deriveCodes (t : Forest) (k : Nat) : List (Byte × List Bool) :=
  match t.root with
  | none => []
  | some r =>
    if k = 1 then
      match t.nodes[r]? with
      | some (.leaf s _) => [(s, [false])]
      | _ => []
    else walkCodes t.nodes t.nodes.length r []

/-- The code of a symbol in a list of codes, if it has one. -/
def findCode (codes : List (Byte × List Bool)) (s : Byte) : Option (List Bool) :=
  (codes.find? fun c => c.1 == s).map (·.2)

/-- NODE_COUNT (R33, R126): 0 for an empty alphabet, else 2k - 1. -/
def nodeCountOf (k : Nat) : Nat := if k = 0 then 0 else 2 * k - 1

/-- NODE_FREQ of a slot (R126): 0 when the slot is unused. -/
def slotFreq (nodes : List Node) (count i : Nat) : Word :=
  if i < count then BitVec.ofNat 32 (freqAt nodes i) else 0#32

/-- NODE_INFO of a node (R126). -/
def Node.info : Node → NodeInfo
  | .leaf s _ => ⟨true, true, 0#9, 0#9, s⟩
  | .internal _ l r => ⟨false, true, BitVec.ofNat 9 r, BitVec.ofNat 9 l, 0#8⟩

/-- NODE_INFO of an unused slot: it reads 0 (R44, R126). -/
def NodeInfo.unused : NodeInfo := ⟨false, false, 0#9, 0#9, 0#8⟩

/-- NODE_INFO of a slot (R126). -/
def slotInfo (nodes : List Node) (count i : Nat) : NodeInfo :=
  if i < count then (nodes[i]?.map Node.info).getD .unused else .unused

/-- CODE_LEN of a symbol (R128): 0 when it has no code. -/
def codeLenEntry (code : Option (List Bool)) : Byte :=
  match code with
  | none => 0#8
  | some bits => BitVec.ofNat 8 bits.length

/-- CODE_BITS of a symbol (R128): 0 when it has no code and past its length. -/
def codeBitsEntry (code : Option (List Bool)) : Vector Word 8 :=
  match code with
  | none => Vector.replicate 8 0#32
  | some bits => tabulate 8 (packWord bits)

/-- The largest entry of a table of lengths (R129 MAXLEN). -/
def largest (t : SymTable Byte) : Nat := (allSymbols.map fun s => (entry t s).toNat).foldl max 0

/-- Everything a successful BUILD writes besides TABLE_VALID, as a function of FREQ alone (R126, R128,
R129, R133). -/
def buildFrom (f : SymTable Word) : Built :=
  let k := (seed f).length
  let t := huffmanForest f
  let codes := deriveCodes t k
  let lens : SymTable Byte := tabulate 256 fun s => codeLenEntry (findCode codes (BitVec.ofNat 8 s))
  { alpha := BitVec.ofNat 9 k
    total := BitVec.ofNat 32 (freqTotal f)
    root := t.root.map (BitVec.ofNat 9)
    nodeCount := BitVec.ofNat 10 (nodeCountOf k)
    maxlen := BitVec.ofNat 8 (largest lens)
    codeLen := lens
    codeBits := tabulate 256 fun s => codeBitsEntry (findCode codes (BitVec.ofNat 8 s))
    nodeFreq := tabulate 512 (slotFreq t.nodes (nodeCountOf k))
    nodeInfo := tabulate 512 (slotInfo t.nodes (nodeCountOf k)) }

/-- The state with BUILD's results written and TABLE_VALID set (R126, R128, R129). -/
def State.writeBuilt (s : State) (b : Built) : State :=
  { s with built := b, status := s.status.validate }

/-- The state with TABLE_VALID cleared and nothing else changed (R121). -/
def State.dropTable (s : State) : State := { s with status := s.status.invalidate }

/-- BUILD (R120): FREQ_OVERFLOW, which also clears TABLE_VALID, when the counts sum past 2^32 - 1;
else the results of FREQ are written and TABLE_VALID is set. -/
def execBuild (s : State) : Host.Outcome State Fault Refusal :=
  if freqOverflows s.freq then .next (s.dropTable.raise .freqOverflow 0#32)
  else .next (s.writeBuilt (buildFrom s.freq)).succeed

end Sys2Proof.Machine
end

