-- ==== Sys2Proof/Machine/Agents.lean ====
section
/-! DEFINITION. The agents' moves (R17): the core's completion step (R86) and one turn of the model. -/

namespace Sys2Proof.Machine

/-- R86 `coreStep`: while BUSY = 1 the word in CMD is decoded and its command performed and completed
in one step; an illegal word completes with ILLEGAL_CMD (R182). While BUSY = 0 the core has no step and
nothing changes. -/
def State.coreStep (s : State) : Host.Outcome State Fault Refusal :=
  if s.status.busy then
    match decode s.cmd with
    | .ok i => exec i s
    | .error _ => .next (illegalCommand s)
  else .next s

/-- The turn has been taken: the rest are still to come. -/
def State.endTurn (s : State) (rest : List Turn) : State := { s with turns := rest }

/-- One turn: the host's transaction (R82), the core's step (R86), or the reset input (R230). -/
def State.takeTurn (s : State) : Turn → Host.Outcome State Fault Refusal
  | .host t => .next (s.hostStep t)
  | .core => s.coreStep
  | .rst => .next s.hardReset

/-- The bits of an instruction, placed as the pending command: the state right after the host has
written the word to CMD (R85), the core's turn next. -/
def State.pendCommand (s : State) (w : Word) : State :=
  { s.issue w with turns := .core :: s.turns }

end Sys2Proof.Machine
end

