-- ==== Sys2Proof/Machine/Step.lean ====
section
/-! DEFINITION. One step of the block, and how an instruction is placed where the next step runs it. -/

namespace Sys2Proof.Machine

/-- One step: the next turn is taken. With no turn left to take the host is silent and the core has its
turn: a pending command completes (R242), an idle block stays as it is (R217, R233; log entry 5). -/
def step (s : State) : Host.Outcome State Fault Refusal :=
  match s.turns with
  | [] => s.coreStep
  | t :: rest => (s.endTurn rest).takeTurn t

/-- The state with the instruction of these bits pending and the core's turn next. HUFF-CORE has no
program counter and no instruction memory (R21): what it runs next is the word in CMD while BUSY = 1
(R47), so that is where the word goes, with the issue effects of R85 (log entry 6). -/
def State.withFetchWord (s : State) (nbits w : Nat) : State := s.pendCommand (tableWord nbits w)

end Sys2Proof.Machine
end

