-- ==== Sys2Proof/Machine/Script.lean ====
section
/-! DEFINITION. The host script notation (30_encoding.md section 5): each line and pseudo-operation as
what the host does for it, how a script is played beside the core, and the two entry points (R93) with the
reads that end them. -/

namespace Sys2Proof.Machine

/-- The word number of a register in the map (R38). -/
def Reg.index : Reg → Nat
  | .id => 0 | .cmd => 1 | .status => 2 | .errCode => 3 | .errInfo => 4 | .src => 5 | .len => 6
  | .dst => 7 | .dcap => 8 | .nbits => 9 | .outBits => 10 | .outBytes => 11 | .outSyms => 12
  | .alpha => 13 | .total => 14 | .root => 15 | .nodeCount => 16 | .maxlen => 17 | .irqEn => 18
  | .ctrl => 19 | .param => 20

/-- The host offset a name of the script notation stands for (R38, R91). -/
def Target.offset : Target → Nat
  | .reg r => 4 * r.index
  | .freq s => 0x400 + 4 * s.toNat
  | .codeLen s => 0x800 + 4 * s.toNat
  | .codeBits s w => 0x1000 + 32 * s.toNat + 4 * w.val
  | .nodeFreq i => 0x4000 + 4 * i.toNat
  | .nodeInfo i => 0x4800 + 4 * i.toNat
  | .dmem a => 0x10000 + a

/-- The 32-bit offset of a name. DESIGN CHOICE (log entry 15): where the notation names an offset past 32
bits (`M[a]` with 0x10000 + a at or above 2^32) R80 has no transaction and R91 says nothing; offsets do not
wrap (R79), so the largest offset stands for it, which no launch maps and which is answered BUSERR. -/
def hostOffset (n : Nat) : Word := BitVec.ofNat 32 (min n 0xFFFFFFFF)

/-- A write transaction of the given width (R91). -/
def writeTxn (target : Target) (size : Nat) (v : Word) : Txn :=
  { dir := .write, offset := hostOffset target.offset, size := size, wdata := v }

/-- A read transaction of the given width (R91). -/
def readTxn (target : Target) (size : Nat) : Txn :=
  { dir := .read, offset := hostOffset target.offset, size := size, wdata := 0#32 }

/-- A line of a host script: the six transactions of R91 and the six pseudo-operations of R92. -/
inductive ScriptLine where
  /-- `WR r, v` -/
  | wr (r : Target) (v : Word)
  /-- `RD r` -/
  | rd (r : Target)
  /-- `WRB M[a], v` -/
  | wrb (a : Nat) (v : Byte)
  /-- `RDB M[a]` -/
  | rdb (a : Nat)
  /-- `WRW M[a], v` -/
  | wrw (a : Nat) (v : Word)
  /-- `RDW M[a]` -/
  | rdw (a : Nat)
  /-- `ISSUE op` -/
  | issue (op : Instr)
  /-- `WAIT` -/
  | wait
  /-- `op`: `ISSUE op` then `WAIT` -/
  | run (op : Instr)
  /-- `ACK` -/
  | ack
  /-- `LOADB a, "text"` -/
  | loadb (a : Nat) (text : List Byte)
  /-- `SRST` -/
  | srst
  deriving DecidableEq, Repr

/-- One thing the host does for a script. -/
inductive HostOp where
  /-- One transaction. -/
  | access (t : Txn)
  /-- `RD STATUS`, repeated until bit 0 of the value read is 0 (R92 `WAIT`). -/
  | untilIdle
  deriving DecidableEq, Repr

/-- The transaction the host issues next for it. -/
def HostOp.txn : HostOp → Txn
  | .access t => t
  | .untilIdle => readTxn (.reg .status) 32

/-- Whether it is over once that transaction has been answered: a `WAIT` only when bit 0 (BUSY) of the value
read is 0 (R92). -/
def HostOp.over : HostOp → Option Response → Bool
  | .access _, _ => true
  | .untilIdle, some (.okRead v) => !v.getLsbD 0
  | .untilIdle, some .okWrite | .untilIdle, some .busErr | .untilIdle, none => false

/-- `ISSUE op` (R92). -/
def issueOp (op : Instr) : HostOp := .access (writeTxn (.reg .cmd) 32 (encode op))

/-- `LOADB` (R92): one `WRB` per byte. -/
def loadOps : Nat → List Byte → List HostOp
  | _, [] => []
  | a, v :: vs => .access (writeTxn (.dmem a) 8 (v.setWidth 32)) :: loadOps (a + 1) vs

/-- What the host does for a script line (R91, R92). -/
def ScriptLine.ops : ScriptLine → List HostOp
  | .wr r v => [.access (writeTxn r 32 v)]
  | .rd r => [.access (readTxn r 32)]
  | .wrb a v => [.access (writeTxn (.dmem a) 8 (v.setWidth 32))]
  | .rdb a => [.access (readTxn (.dmem a) 8)]
  | .wrw a v => [.access (writeTxn (.dmem a) 32 v)]
  | .rdw a => [.access (readTxn (.dmem a) 32)]
  | .issue op => [issueOp op]
  | .wait => [.untilIdle]
  | .run op => [issueOp op, .untilIdle]
  | .ack => [.access (writeTxn (.reg .status) 32 0x16#32)]
  | .loadb a text => loadOps a text
  | .srst => [.access (writeTxn (.reg .ctrl) 32 0x1#32)]

/-- What the host does for a script. -/
def scriptOps (lines : List ScriptLine) : List HostOp := lines.flatMap ScriptLine.ops

/-! ### Playing a script

The host plays its script while the core is free to complete a pending command between any two transactions
(R86, R242). The order of the two is an argument, a list of moves; when it is used up the core goes before
each transaction, so that every script comes to its end (R242's weak fairness; log entry 17). -/

/-- Who moves. -/
inductive Mover where
  | host
  | core
  deriving DecidableEq, Repr

/-- What a script leads to: the state, and the answers to its transactions, first to last. -/
abbrev Played := Host.Outcome (State × List Response) Fault Refusal

/-- Go on from the state a step leads to. -/
def andThen (o : Host.Outcome State Fault Refusal) (k : State → Played) : Played :=
  match o with
  | .next t => k t
  | .fault f => .fault f
  | .refused r => .refused r

/-- The answer to a transaction, before the answers to the later ones. -/
def heard (answer : Option Response) : Played → Played
  | .next (t, later) => .next (t, answer.toList ++ later)
  | .fault f => .fault f
  | .refused r => .refused r

/-- The step that takes a given turn. -/
def State.stepTurn (s : State) (turn : Turn) : Host.Outcome State Fault Refusal :=
  step { s with turns := [turn] }

/-- A script played to its end, the core going before each transaction: a `WAIT` then reads BUSY = 0. -/
def State.playOut : List HostOp → State → Played
  | [], s => .next (s, [])
  | op :: ops, s =>
    andThen (s.stepTurn .core) fun u =>
      andThen (u.stepTurn (.host op.txn)) fun t => heard t.response (State.playOut ops t)

/-- A script played from a state, the moves taken in the given order. A `WAIT` goes on reading STATUS, move
after move, until it has read BUSY = 0. -/
def State.playOps : List Mover → List HostOp → State → Played
  | _, [], s => .next (s, [])
  | [], op :: ops, s => s.playOut (op :: ops)
  | .core :: moves, op :: ops, s => andThen (s.stepTurn .core) (State.playOps moves (op :: ops))
  | .host :: moves, op :: ops, s =>
    andThen (s.stepTurn (.host op.txn)) fun t =>
      heard t.response (State.playOps moves (if op.over t.response then ops else op :: ops) t)

/-- The lines of a script played from a state. -/
def State.play (s : State) (moves : List Mover) (lines : List ScriptLine) : Played :=
  s.playOps moves (scriptOps lines)

/-! ### The entry points -/

/-- One `RDB` per byte: `n` bytes from address `a` up. -/
def readBytesLines (a n : Nat) : List ScriptLine := (List.range' 0 n).map fun i => .rdb (a + i)

/-- The reads of FREQ[0] to FREQ[255]. -/
def readFreqLines : List ScriptLine := allSymbols.map fun v => .rd (.freq v)

/-- One `WR FREQ[s], n` per persisted pair. -/
def writeFreqLines (table : List (Byte × Word)) : List ScriptLine :=
  table.map fun p => .wr (.freq p.1) p.2

/-- R93 compress(x), its commands: x loaded at `a`, the stream at `d` with capacity `c`. R93 says only that x
is loaded; the model loads it with LOADB, one 8-bit write per byte (DESIGN CHOICE, log entry 18). -/
def compressLines (x : List Byte) (a d c : Word) : List ScriptLine :=
  [.loadb a.toNat x, .wr (.reg .src) a, .wr (.reg .len) (BitVec.ofNat 32 x.length),
    .run .scan, .run .build, .wr (.reg .dst) d, .wr (.reg .dcap) c, .run .encode]

/-- R93 compress(x), what the host reads then, in the state the commands left: FREQ[0..255], OUT_BITS, and
the OUT_BYTES bytes at `d`. The register OUT_BYTES is read before the bytes it counts (log entry 16). -/
def compressReads (s : State) (d : Word) : List ScriptLine :=
  readFreqLines ++ ScriptLine.rd (.reg .outBits) :: .rd (.reg .outBytes) ::
    readBytesLines d.toNat s.results.outBytes.toNat

/-- R93 decompress, its commands, from a persisted table: the stream bytes at `a` with `n` bits, the output
at `d` with capacity `c`. The stream bytes are loaded with LOADB (DESIGN CHOICE, log entry 18). -/
def decompressLines (table : List (Byte × Word)) (stream : List Byte) (a d n c : Word) :
    List ScriptLine :=
  ScriptLine.run .clrf :: writeFreqLines table ++
    [ScriptLine.run .build, .loadb a.toNat stream, .wr (.reg .src) a, .wr (.reg .nbits) n,
      .wr (.reg .dst) d, .wr (.reg .dcap) c, .run .decode]

/-- R93 decompress, its output: the OUT_SYMS bytes at `d`, OUT_SYMS read before them (log entry 16). -/
def decompressReads (s : State) (d : Word) : List ScriptLine :=
  .rd (.reg .outSyms) :: readBytesLines d.toNat s.results.outSyms.toNat

/-- An entry point played as a whole: its commands, the moves taken in the given order, then its reads as
the state they left asks for. The state after the last read, and the answers to the reads. -/
def State.playEntry (s : State) (moves : List Mover) (lines : List ScriptLine)
    (reads : State → List ScriptLine) : Played :=
  match s.play moves lines with
  | .next (t, _) => t.play [] (reads t)
  | .fault f => .fault f
  | .refused r => .refused r

/-- R93 compress(x). Writing the container from the answers is host software (R7). -/
def State.compress (s : State) (moves : List Mover) (x : List Byte) (a d c : Word) : Played :=
  s.playEntry moves (compressLines x a d c) fun t => compressReads t d

/-- R93 decompress. Reading the container is host software (R7). -/
def State.decompress (s : State) (moves : List Mover) (table : List (Byte × Word)) (stream : List Byte)
    (a d n c : Word) : Played :=
  s.playEntry moves (decompressLines table stream a d n c) fun t => decompressReads t d

end Sys2Proof.Machine
end

