-- ==== Sys2Proof/Safety.lean ====
section
/-! DEFINITION. What holds of the block in every state a run reaches: the parts of the invariant, and
the whole. A safe run is one whose states all keep it; no step of the block stops (`Fault` is empty). -/

namespace Sys2Proof.Machine

/-- The launch parameter is legal: 1 <= DMEM_SIZE <= 2^28 (R8). -/
def State.sizeLegal (s : State) : Prop := 1 ≤ s.dmemSize ∧ s.dmemSize ≤ Config.dmemSizeMax

/-- DMEM is in its canonical form and holds no byte outside its address space (R46). -/
def State.memLegal (s : State) : Prop := Memory.wf s.mem ∧ ∀ c ∈ s.mem, c.1 < s.dmemSize

/-- STATUS, ERR_CODE and ERR_INFO agree (R24, R25, R85, R86): while a command is pending neither DONE
nor ERR is set and no error is recorded; DONE and ERR are never both 1; DONE comes with no error, ERR
with one. -/
structure State.statusLegal (s : State) : Prop where
  pending : s.status.busy = true →
    s.status.done = false ∧ s.status.err = false ∧ s.errCode = .none ∧ s.errInfo = 0#32
  exclusive : ¬(s.status.done = true ∧ s.status.err = true)
  clean : s.status.done = true → s.errCode = .none ∧ s.errInfo = 0#32
  recorded : s.status.err = true → s.errCode ≠ .none

/-- TABLE_VALID (R24): when it is 1 the node arena, the code table and BUILD's registers hold the
result of BUILD for the current FREQ table, and that table passes BUILD's check. -/
def State.tableLegal (s : State) : Prop :=
  s.status.tableValid = true → ¬freqOverflows s.freq ∧ s.built = buildFrom s.freq

/-- The bytes of DMEM that nothing has written come from an UNSPEC event of the past, so no later event
gives the same free values. -/
def State.drawsLegal (s : State) : Prop := s.dmemDraw < s.draws

/-- The invariant of the block. -/
structure State.Inv (s : State) : Prop where
  size : s.sizeLegal
  mem : s.memLegal
  status : s.statusLegal
  table : s.tableLegal
  draws : s.drawsLegal

/-! ### Terms that claims use -/

/-- The bit string of an input: its symbols' codes one after another (R140). -/
def Built.codesOf (b : Built) (input : List Byte) : List Bool := input.flatMap b.codeOf

/-- The arena's own links spell a code (R13, R127, R162): from node `pos`, following LEFT for 0 and
RIGHT for 1, the bits pass through nodes that are no leaves and end at a leaf with symbol `sym`. -/
def Built.spells (b : Built) : NodeIdx → List Bool → Byte → Prop
  | _, [], _ => False
  | pos, [bit], sym =>
    (slot b.nodeInfo (b.child pos bit)).leaf = true ∧
      (slot b.nodeInfo (b.child pos bit)).symbol = sym
  | pos, bit :: rest, sym =>
    (slot b.nodeInfo (b.child pos bit)).leaf = false ∧ b.spells (b.child pos bit) rest sym

/-- The alphabet of a frequency table: the symbols with a nonzero count, in ascending order (R15). -/
def alphabet (f : SymTable Word) : List Byte := allSymbols.filter fun s => entry f s ≠ 0#32

/-- A state that some run of steps leads to. -/
inductive Reaches : State → State → Prop where
  | refl (s : State) : Reaches s s
  | step {s t u : State} : Reaches s t → step t = .next u → Reaches s u

end Sys2Proof.Machine
end

