-- ==== Sys2Proof/WellFormed.lean ====
section
/-! DEFINITION. Which terms stand for something the hardware can be given. A command has no operands
(R83, R88), so every `Instr` is well formed; the terms with a check are command words (R84), host
transactions (R80) and turns. -/

namespace Sys2Proof

/-- A command carries no field that could be out of range (R83): every one is well formed. -/
def Instr.wf : Instr → Bool
  | .nop | .clrf | .scan | .build | .encode | .decode => true

/-- A command word is legal exactly when it equals one of the six values of R84. -/
def legalWord (w : Word) : Bool := [0x0#32, 0x1#32, 0x2#32, 0x3#32, 0x4#32, 0x5#32].contains w

namespace Machine

/-- A transaction is well formed when its write data fits its width (R80: `wdata` is "of width
size"). -/
def Txn.wf (t : Txn) : Bool := decide (t.wdata.toNat < 2 ^ t.size)

/-- A turn is well formed when its transaction is. -/
def Turn.wf : Turn → Bool
  | .host t => t.wf
  | .core | .rst => true

end Machine

end Sys2Proof
end

