-- ==== Sys2Proof/Certificates/Slice0/Obligations.lean ====
section
/-! DEFINITION. The statements about HUFF-CORE for the provers, by part of the spec. Helper definitions
come first; they write the spec's map, priority order and key terms in numbers, apart from the model's own
functions. -/

open Sys2Proof Sys2Proof.Machine

namespace Sys2Proof.Spec

/-- A host transaction in one line. -/
def txn (dir : Dir) (offset size : Nat) (v : Word) : Txn :=
  { dir := dir, offset := BitVec.ofNat 32 offset, size := size, wdata := v }

/-- The mapped host offsets of R38 for a DMEM size. -/
def mapped (size off : Nat) : Prop :=
  off < 0x54 ∨ (0x400 ≤ off ∧ off < 0xC00) ∨ (0x1000 ≤ off ∧ off < 0x3000) ∨
    (0x4000 ≤ off ∧ off < 0x5000) ∨ (0x10000 ≤ off ∧ off < 0x10000 + size)

/-- The sizes and alignments of R63. -/
def sized (size off bits : Nat) : Prop :=
  (off < 0x10000 ∧ bits = 32 ∧ off % 4 = 0) ∨
    (0x10000 ≤ off ∧ (bits = 8 ∨ (bits = 32 ∧ off % 4 = 0 ∧ off + 3 < 0x10000 + size)))

/-- The read-only offsets of R81 item 3: ID, ERR_CODE, ERR_INFO, OUT_BITS, OUT_BYTES, OUT_SYMS, ALPHA,
TOTAL, ROOT, NODE_COUNT, MAXLEN, PARAM, CODE_LEN, CODE_BITS, NODE_FREQ, NODE_INFO. -/
def readOnly (off : Nat) : Prop :=
  off ∈ [0x00, 0x0C, 0x10, 0x28, 0x2C, 0x30, 0x34, 0x38, 0x3C, 0x40, 0x44, 0x50] ∨
    (0x800 ≤ off ∧ off < 0xC00) ∨ (0x1000 ≤ off ∧ off < 0x3000) ∨ (0x4000 ≤ off ∧ off < 0x5000)

/-- An accepted transaction (R81). -/
def accepted (size : Nat) (t : Txn) : Prop :=
  mapped size t.offset.toNat ∧ sized size t.offset.toNat t.size ∧
    ¬(t.dir = .write ∧ readOnly t.offset.toNat)

/-- What the host reads while BUSY = 1 at the eleven offsets of R50, each with its register's value. -/
def busyReads (s : State) : List (Nat × Word) :=
  [(0x00, 0x48554631#32), (0x04, s.cmd), (0x08, s.status.toWord), (0x14, s.args.src),
    (0x18, s.args.len), (0x1C, s.args.dst), (0x20, s.args.dcap), (0x24, s.args.nbits),
    (0x48, s.irqEn.toWord), (0x4C, 0#32), (0x50, s.param)]

/-- What the host reads while BUSY = 0 at the 21 register offsets of R38, each with its register's value
(R22 to R37). -/
def idleReads (s : State) : List (Nat × Word) :=
  [(0x00, 0x48554631#32), (0x04, s.cmd), (0x08, s.status.toWord),
    (0x0C, s.errCode.number.setWidth 32), (0x10, s.errInfo), (0x14, s.args.src),
    (0x18, s.args.len), (0x1C, s.args.dst), (0x20, s.args.dcap), (0x24, s.args.nbits),
    (0x28, s.results.outBits), (0x2C, s.results.outBytes), (0x30, s.results.outSyms),
    (0x34, s.built.alpha.setWidth 32), (0x38, s.built.total),
    (0x3C, match s.built.root with
      | none => 0x80000000#32
      | some i => i.setWidth 32),
    (0x40, s.built.nodeCount.setWidth 32), (0x44, s.built.maxlen.setWidth 32),
    (0x48, 0#29 ++ BitVec.ofBool s.irqEn.violIe ++ BitVec.ofBool s.irqEn.errIe ++
      BitVec.ofBool s.irqEn.doneIe),
    (0x4C, 0#32), (0x50, s.param)]

/-- The answers to 8-bit reads of `n` bytes from address `a` up, zero-extended to 32 bits. -/
def byteAnswers (s : State) (a n : Nat) : List Response :=
  (List.range n).map fun i => .okRead ((s.readByte (a + i)).setWidth 32)

/-- NODE_FREQ[i] as a number. -/
def nodeFreq (b : Built) (i : NodeIdx) : Nat := (slot b.nodeFreq i).toNat

/-- R123: node i comes before node j in the order of (freq, index). -/
def before (b : Built) (i j : NodeIdx) : Prop :=
  nodeFreq b i < nodeFreq b j ∨ (nodeFreq b i = nodeFreq b j ∧ i.toNat < j.toNat)

/-- Node i is a child of node p. -/
def childOf (b : Built) (i p : NodeIdx) : Prop :=
  (slot b.nodeInfo p).left = i ∨ (slot b.nodeInfo p).right = i

/-- The flags after a completion without error (R206). -/
def ok (st : Status) : Status := { st with done := true, busy := false }

/-- The flags after a completion with an error (R203). -/
def failed (st : Status) : Status := { st with err := true, busy := false }

end Sys2Proof.Spec

open Sys2Proof.Spec

/-! ### The command word -/

/-- R84: decoding a command's word gives that command back, for every command. -/
def Obligations.DecodeUndoesEncode : Prop := ∀ i : Instr, decode (encode i) = .ok i

/-- R84: the six words and no others are legal, each for its command. -/
def Obligations.ExactlySixWordsAreLegal : Prop :=
  ∀ w : Word,
    (decode w = .ok .nop ↔ w = 0x00000000#32) ∧ (decode w = .ok .clrf ↔ w = 0x00000001#32) ∧
    (decode w = .ok .scan ↔ w = 0x00000002#32) ∧ (decode w = .ok .build ↔ w = 0x00000003#32) ∧
    (decode w = .ok .encode ↔ w = 0x00000004#32) ∧ (decode w = .ok .decode ↔ w = 0x00000005#32) ∧
    ((∃ i, decode w = .ok i) ↔ legalWord w = true)

/-- R83, R89: a word is rejected for its RESERVED bits exactly when one of bits 31:8 is 1, whatever
OPCODE holds, and for its OPCODE exactly when they are 0 and OPCODE is 0x06 to 0xFF. -/
def Obligations.IllegalWordsAreRejectedByTheirField : Prop :=
  ∀ w : Word,
    (decode w = .error .reservedBits ↔ 0x100 ≤ w.toNat) ∧
    (decode w = .error .reservedOpcode ↔ 0x06 ≤ w.toNat ∧ w.toNat ≤ 0xFF)

/-- R83, R84 on words written out bit by bit. -/
def Obligations.SampleWordsDecode : Prop :=
  decode 0b00000000000000000000000000000000#32 = .ok .nop ∧
  decode 0b00000000000000000000000000000010#32 = .ok .scan ∧
  decode 0b00000000000000000000000000000011#32 = .ok .build ∧
  decode 0b00000000000000000000000000000101#32 = .ok .decode ∧
  decode 0b00000000000000000000000100000010#32 = .error .reservedBits ∧
  decode 0b00000000000000000000000000000110#32 = .error .reservedOpcode

/-! ### Steps -/

/-- R17, R86: when a command is pending and it is the core's turn, a step runs exactly the decoded
command, on the state with that turn taken. It is the core's turn when the next turn is the core's, and
when no turn is left: that turns decide who moves, and that with none left the core does, is the model's
choice (DESIGN CHOICE, log entry 5). -/
def Obligations.StepRunsThePendingCommand : Prop :=
  ∀ (s : State) (rest : List Turn) (i : Instr), s.status.busy = true → decode s.cmd = .ok i →
    (s.turns = [] → step s = exec i s) ∧
    (s.turns = .core :: rest → step s = exec i { s with turns := rest })

/-- R182, R86: the core's step of a pending illegal word completes with ILLEGAL_CMD (0x01), ERR_INFO the
word, CMD still holding it, and no other state changed; so does a step of the model on the core's turn.
That turns decide who moves, and that with none left the core does, is the model's choice (DESIGN CHOICE,
log entry 5). -/
def Obligations.IllegalWordCompletesWithIllegalCmd : Prop :=
  ∀ (s t : State) (rest : List Turn), s.status.busy = true →
    (0x100 ≤ s.cmd.toNat ∨ (0x06 ≤ s.cmd.toNat ∧ s.cmd.toNat ≤ 0xFF)) →
    t = { s with status := failed s.status, errCode := .illegalCmd, errInfo := s.cmd } →
    s.coreStep = .next t ∧
    (s.turns = [] → step s = .next t) ∧
    (s.turns = .core :: rest → step s = .next { t with turns := rest }) ∧
    ErrCode.illegalCmd.number = 0x01#8

/-- No step stops: the host's turn, the reset input's turn and the core's turn all have a next state. A
transaction answered BUSERR is no stop: that is read from R81 and R209 (DEDUCED, log entry 14). That an
idle block with no turn left has a step too, in which it stays as it is, is the model's choice (DESIGN
CHOICE, log entry 5). -/
def Obligations.EveryStepHasANextState : Prop := ∀ s : State, ∃ t, step s = .next t

/-- R86, R203, R206: one core step ends the pending command: BUSY is cleared and exactly one of DONE
and ERR is set, DONE with no error recorded and ERR with one. -/
def Obligations.CoreStepEndsTheCommand : Prop :=
  ∀ s : State, s.statusLegal → s.status.busy = true →
    ∃ t, s.coreStep = .next t ∧ t.status.busy = false ∧ t.cmd = s.cmd ∧
      ((t.status.done = true ∧ t.status.err = false ∧ t.errCode = .none ∧ t.errInfo = 0#32) ∨
        (t.status.done = false ∧ t.status.err = true ∧ t.errCode ≠ .none))

/-- While BUSY = 0 the core has no step (R86) and nothing else changes the block (R217, R233). The model
writes that as a step that leaves the block as it is when no turn is left: the model's choice (DESIGN
CHOICE, log entry 5). -/
def Obligations.IdleBlockStaysAsItIs : Prop :=
  ∀ s : State, s.status.busy = false → s.turns = [] → step s = .next s

/-- WAIT (R92) reads STATUS until it has read BUSY = 0, whatever the order of the moves: with no command
pending one read ends it; with one pending it reads BUSY = 1 once for each move of the host before the
core's, then BUSY = 0, and the state after it is the one the command's rule gives. That the model has no time
but an order of moves is R242 (DEDUCED, log entry 10); that the core moves when the list of moves is used up
is the model's choice (DESIGN CHOICE, log entry 17). -/
def Obligations.WaitReturnsTheCommandsResult : Prop :=
  ∀ (s : State) (moves : List Mover) (busy : Response), busy = .okRead s.status.toWord →
    (s.status.busy = false → s.play moves [.wait] =
      .next ({ s with turns := [], response := some busy }, [busy])) ∧
    (s.status.busy = true → ∃ t, s.coreStep = .next t ∧ t.status.busy = false ∧
      s.play moves [.wait] =
        .next ({ t with turns := [], response := some (.okRead t.status.toWord) },
          List.replicate (moves.takeWhile (· = .host)).length busy ++ [.okRead t.status.toWord]))

/-! ### Reset -/

/-- R230, R231: after the reset input every register has its reset value, FREQ is all 0, the code table,
the node arena and DMEM are UNSPEC (free values of a new draw, log entry 2), the pending command is
abandoned, irq is 0, and the block is idle. PARAM keeps DMEM_SIZE. That the input is one turn is the
model's choice (DESIGN CHOICE, log entry 5), and that the free values of CODE_LEN and NODE_INFO leave the
reserved bits 0 is read from R39 (DEDUCED, log entry 3). -/
def Obligations.ResetInputGivesTheResetValues : Prop :=
  ∀ (s : State) (rest : List Turn), s.turns = .rst :: rest →
    ∃ t, step s = .next t ∧ t.turns = rest ∧
      t.cmd = 0#32 ∧ t.status.toWord = 0#32 ∧ t.errCode.toWord = 0#32 ∧ t.errInfo = 0#32 ∧
      t.args = ⟨0#32, 0#32, 0#32, 0#32, 0#32⟩ ∧ t.results = ⟨0#32, 0#32, 0#32⟩ ∧
      t.built.alpha = 0#9 ∧ t.built.total = 0#32 ∧ rootWord t.built.root = 0x80000000#32 ∧
      t.built.nodeCount = 0#10 ∧ t.built.maxlen = 0#8 ∧ t.irqEn.toWord = 0#32 ∧
      t.param = s.param ∧ t.readReg .id = 0x48554631#32 ∧ t.irq = false ∧
      (∀ sym, entry t.freq sym = 0#32) ∧
      (∀ sym, entry t.built.codeLen sym = Config.unspecByte s.draws (.codeLen sym.toNat)) ∧
      (∀ sym (w : Fin 8), t.built.codeWord sym w =
        Config.unspecWord s.draws (.codeBits sym.toNat w.val)) ∧
      (∀ i, slot t.built.nodeFreq i = Config.unspecWord s.draws (.nodeFreq i.toNat)) ∧
      (∀ i, slot t.built.nodeInfo i =
        NodeInfo.ofWord (Config.unspecWord s.draws (.nodeInfo i.toNat))) ∧
      (∀ a, t.readByte a = Config.unspecByte s.draws (.dmem a))

/-- The state right after reset, at the values of R49: every register and FREQ; the bytes of DMEM are UNSPEC,
free values of one draw. The numbering of draws is the model's choice (DESIGN CHOICE, log entry 2), and so
is the reset value of PARAM, the DMEM_SIZE of this launch (DESIGN CHOICE, log entry 1). -/
def Obligations.ResetStateHasTheResetValues : Prop :=
  State.reset.cmd = 0#32 ∧ State.reset.status = ⟨false, false, false, false, false⟩ ∧
  State.reset.errCode = .none ∧ State.reset.errInfo = 0#32 ∧
  State.reset.args = ⟨0#32, 0#32, 0#32, 0#32, 0#32⟩ ∧ State.reset.results = ⟨0#32, 0#32, 0#32⟩ ∧
  State.reset.built.alpha = 0#9 ∧ State.reset.built.total = 0#32 ∧
  State.reset.built.root = none ∧ State.reset.built.nodeCount = 0#10 ∧
  State.reset.built.maxlen = 0#8 ∧ State.reset.irqEn = ⟨false, false, false⟩ ∧
  State.reset.param = Config.dmemSize ∧ (∀ sym, entry State.reset.freq sym = 0#32) ∧
  State.reset.irq = false ∧
  ∃ draw, ∀ a, State.reset.readByte a = Config.unspecByte draw (.dmem a)

/-- R232: a write of 1 to CTRL.SRST, at any time, does what the reset input does except to DMEM, each
byte of which is kept but for the destination window of a pending ENCODE or DECODE, now UNSPEC (a free
value of a new draw, log entry 2). Of a window that runs past DMEM only the bytes in DMEM are meant (DEDUCED,
log entry 4), and the turns and the last answer are the model's own (log entry 5). No completion happens. -/
def Obligations.SoftResetKeepsDmemButAPendingWindow : Prop :=
  ∀ (s : State) (v : Word), v.getLsbD 0 = true →
    ∃ t, s.hostStep (txn .write 0x4C 32 v) = t ∧
      t = { State.reset with
              built := Built.reset s.draws, param := s.param, mem := t.mem, dmemDraw := s.dmemDraw
              draws := s.draws + 1, turns := s.turns, response := some .okWrite } ∧
      ∀ a, a < s.dmemSize → t.readByte a =
        if s.status.busy = true ∧ (s.cmd = 0x4#32 ∨ s.cmd = 0x5#32) ∧ s.args.dst.toNat ≤ a ∧
            a < s.args.dst.toNat + s.args.dcap.toNat
        then Config.unspecByte s.draws (.dmem a) else s.readByte a

/-! ### The host interface -/

/-- R81, R209: a transaction that is not accepted is answered BUSERR and changes no state, whether BUSY
is 0 or 1, so irq does not change; an accepted one is not answered BUSERR. -/
def Obligations.BusErrChangesNothing : Prop :=
  ∀ (s : State) (t : Txn),
    (¬accepted s.dmemSize t → s.hostStep t = { s with response := some .busErr } ∧
      (s.hostStep t).irq = s.irq) ∧
    (accepted s.dmemSize t → (s.hostStep t).response ≠ some .busErr)

/-- R22, R37: ID and PARAM read the same at any time, and a write to either is BUSERR. -/
def Obligations.IdAndParamAreConstant : Prop :=
  ∀ (s : State) (v : Word),
    s.hostStep (txn .read 0x00 32 0#32) = { s with response := some (.okRead 0x48554631#32) } ∧
    s.hostStep (txn .read 0x50 32 0#32) =
      { s with response := some (.okRead (BitVec.ofNat 32 s.dmemSize)) } ∧
    s.hostStep (txn .write 0x00 32 v) = { s with response := some .busErr } ∧
    s.hostStep (txn .write 0x50 32 v) = { s with response := some .busErr }

/-- R50: while BUSY = 1 an accepted write to any offset but CTRL's is dropped, setting BUSY_VIOL only;
the eleven readable registers read their values; any other mapped offset reads UNSPEC (a free word per
read, log entry 2, of all 32 bits also for an 8-bit access, DESIGN CHOICE, log entry 7) and nothing of the
spec's state changes. -/
def Obligations.BusyBlockDropsWritesAndHidesResults : Prop :=
  ∀ (s : State) (t : Txn), s.status.busy = true → accepted s.dmemSize t →
    (t.dir = .write → t.offset.toNat ≠ 0x4C →
      s.hostStep t =
        { s with status := { s.status with busyViol := true }, response := some .okWrite }) ∧
    (t.dir = .read → ∀ v, (t.offset.toNat, v) ∈ busyReads s →
      s.hostStep t = { s with response := some (.okRead v) }) ∧
    (t.dir = .read → (∀ p ∈ busyReads s, p.1 ≠ t.offset.toNat) →
      s.hostStep t =
        { s with response := some (.okRead (Config.unspecWord s.draws .readData))
                 draws := s.draws + 1 })

/-- R73: no host read has a side effect; the response and the number of free values drawn, which are
the model's own, are all that can differ. -/
def Obligations.HostReadsHaveNoSideEffect : Prop :=
  ∀ (s : State) (t : Txn), t.dir = .read →
    s.hostStep t = { s with response := (s.hostStep t).response, draws := (s.hostStep t).draws }

/-- R85: a host write of a word to CMD while BUSY = 0 issues it, legal or not, in one step; while
BUSY = 1 it issues nothing. -/
def Obligations.WriteToCmdIssuesACommand : Prop :=
  ∀ (s : State) (w : Word),
    (s.status.busy = false → s.hostStep (txn .write 0x04 32 w) =
      { s with cmd := w, status := { s.status with busy := true, done := false, err := false }
               errCode := .none, errInfo := 0#32, response := some .okWrite }) ∧
    (s.status.busy = true → s.hostStep (txn .write 0x04 32 w) =
      { s with status := { s.status with busyViol := true }, response := some .okWrite })

/-- R24: STATUS reads its five flags in bits 0 to 4 and 0 above; a write while BUSY = 0 clears DONE, ERR
and BUSY_VIOL where it has a 1 in bits 1, 2 and 4, and changes nothing else. -/
def Obligations.StatusReadsFlagsAndClearsByWritingOne : Prop :=
  ∀ (s : State) (v : Word),
    (s.readReg .status).getLsbD 0 = s.status.busy ∧ (s.readReg .status).getLsbD 1 = s.status.done ∧
    (s.readReg .status).getLsbD 2 = s.status.err ∧
    (s.readReg .status).getLsbD 3 = s.status.tableValid ∧
    (s.readReg .status).getLsbD 4 = s.status.busyViol ∧
    (∀ n, 5 ≤ n → (s.readReg .status).getLsbD n = false) ∧
    (s.status.busy = false → s.hostStep (txn .write 0x08 32 v) =
      { s with
          status :=
            { busy := false
              done := s.status.done && !v.getLsbD 1
              err := s.status.err && !v.getLsbD 2
              tableValid := s.status.tableValid
              busyViol := s.status.busyViol && !v.getLsbD 4 }
          response := some .okWrite })

/-- R39: reserved fields read 0 and ignore what is written to them; in CMD a nonzero reserved field makes
the word illegal. That CODE_LEN bits 31:8 and NODE_INFO bits 29:26 read 0 in every state, also while the
entry is UNSPEC after a reset (U2), is read from R39 by inference (DEDUCED, log entry 3). -/
def Obligations.ReservedFieldsReadZeroAndIgnoreWrites : Prop :=
  ∀ (s : State) (v u : Word) (n : Nat),
    (8 ≤ n → (s.readReg .errCode).getLsbD n = false ∧ (s.readReg .maxlen).getLsbD n = false ∧
      ∀ sym, (s.readTarget 32 (.codeLen sym)).getLsbD n = false) ∧
    (9 ≤ n → (s.readReg .alpha).getLsbD n = false ∧
      (n ≠ 31 → (s.readReg .root).getLsbD n = false)) ∧
    (10 ≤ n → (s.readReg .nodeCount).getLsbD n = false) ∧
    (3 ≤ n → (s.readReg .irqEn).getLsbD n = false) ∧
    (5 ≤ n → (s.readReg .status).getLsbD n = false) ∧
    (s.readReg .ctrl).getLsbD n = false ∧
    (26 ≤ n → n ≤ 29 → ∀ i, (s.readTarget 32 (.nodeInfo i)).getLsbD n = false) ∧
    ((v ^^^ u) &&& 0x00000007#32 = 0#32 → s.writeReg v .irqEn = s.writeReg u .irqEn) ∧
    ((v ^^^ u) &&& 0x0000001F#32 = 0#32 → s.writeReg v .status = s.writeReg u .status) ∧
    ((v ^^^ u) &&& 0x00000001#32 = 0#32 → s.writeReg v .ctrl = s.writeReg u .ctrl) ∧
    (reservedField v ≠ 0#24 → ∃ r, decode v = .error r)

/-- R27, R51, R73: while BUSY = 0 a host write to SRC, LEN, DST, DCAP or NBITS stores any 32-bit value
and changes nothing else. -/
def Obligations.ArgumentWritesOnlyStore : Prop :=
  ∀ (s : State) (v : Word), s.status.busy = false →
    s.hostStep (txn .write 0x14 32 v) =
      { s with args := { s.args with src := v }, response := some .okWrite } ∧
    s.hostStep (txn .write 0x18 32 v) =
      { s with args := { s.args with len := v }, response := some .okWrite } ∧
    s.hostStep (txn .write 0x1C 32 v) =
      { s with args := { s.args with dst := v }, response := some .okWrite } ∧
    s.hostStep (txn .write 0x20 32 v) =
      { s with args := { s.args with dcap := v }, response := some .okWrite } ∧
    s.hostStep (txn .write 0x24 32 v) =
      { s with args := { s.args with nbits := v }, response := some .okWrite }

/-- R35, R36, R210: a write to IRQ_EN while BUSY = 0 stores its low three bits; a write to CTRL with
bit 0 = 0 does nothing at any time; irq is the OR of the three enabled pending bits of the words the
host reads. -/
def Obligations.InterruptEnablesAndIrq : Prop :=
  ∀ (s : State) (v : Word),
    (s.status.busy = false → s.hostStep (txn .write 0x48 32 v) =
      { s with irqEn := ⟨v.getLsbD 0, v.getLsbD 1, v.getLsbD 2⟩, response := some .okWrite }) ∧
    (v.getLsbD 0 = false →
      s.hostStep (txn .write 0x4C 32 v) = { s with response := some .okWrite }) ∧
    s.irq =
      (((s.readReg .status).getLsbD 1 && (s.readReg .irqEn).getLsbD 0) ||
        ((s.readReg .status).getLsbD 2 && (s.readReg .irqEn).getLsbD 1) ||
        ((s.readReg .status).getLsbD 4 && (s.readReg .irqEn).getLsbD 2))

/-- R105, R106: a host write to FREQ[s] while BUSY = 0 stores the value and clears TABLE_VALID, even
when the value is the old one; a read returns the entry; while BUSY = 1 the write is dropped. -/
def Obligations.FreqWriteStoresAndInvalidates : Prop :=
  ∀ (s : State) (sym : Byte) (v : Word),
    (s.status.busy = false →
      ∃ f, s.hostStep (txn .write (0x400 + 4 * sym.toNat) 32 v) =
          { s with freq := f, status := { s.status with tableValid := false }
                   response := some .okWrite } ∧
        (∀ r, entry f r = if r = sym then v else entry s.freq r) ∧
        s.hostStep (txn .read (0x400 + 4 * sym.toNat) 32 0#32) =
          { s with response := some (.okRead (entry s.freq sym)) }) ∧
    (s.status.busy = true → s.hostStep (txn .write (0x400 + 4 * sym.toNat) 32 v) =
      { s with status := { s.status with busyViol := true }, response := some .okWrite })

/-- R38, R51: while BUSY = 0 a host read changes nothing and answers, at each of the 21 register offsets,
that register's value, and at the tables' offsets their entries: CODE_LEN at 0x800 + 4s (R41), CODE_BITS at
0x1000 + 32s + 4w (R42), NODE_FREQ at 0x4000 + 4i (R43), NODE_INFO at 0x4800 + 4i, with LEAF in bit 31,
USED in bit 30, 0 in bits 29:26, RIGHT in 25:17, LEFT in 16:8 and SYMBOL in 7:0 (R44). That CODE_LEN bits
31:8 and NODE_INFO bits 29:26 are 0 also while UNSPEC is read from R39 (DEDUCED, log entry 3). -/
def Obligations.TablesAreReadAtTheirOffsets : Prop :=
  ∀ (s : State) (sym : Byte) (w : Fin 8) (i : NodeIdx), s.status.busy = false →
    (∀ p ∈ idleReads s,
      s.hostStep (txn .read p.1 32 0#32) = { s with response := some (.okRead p.2) }) ∧
    s.hostStep (txn .read (0x800 + 4 * sym.toNat) 32 0#32) =
      { s with response := some (.okRead ((entry s.built.codeLen sym).setWidth 32)) } ∧
    s.hostStep (txn .read (0x1000 + 32 * sym.toNat + 4 * w.val) 32 0#32) =
      { s with response := some (.okRead (s.built.codeWord sym w)) } ∧
    s.hostStep (txn .read (0x4000 + 4 * i.toNat) 32 0#32) =
      { s with response := some (.okRead (slot s.built.nodeFreq i)) } ∧
    ∃ v, s.hostStep (txn .read (0x4800 + 4 * i.toNat) 32 0#32) =
        { s with response := some (.okRead v) } ∧
      v.getLsbD 31 = (slot s.built.nodeInfo i).leaf ∧
      v.getLsbD 30 = (slot s.built.nodeInfo i).used ∧ v.extractLsb' 26 4 = 0#4 ∧
      v.extractLsb' 17 9 = (slot s.built.nodeInfo i).right ∧
      v.extractLsb' 8 9 = (slot s.built.nodeInfo i).left ∧
      v.extractLsb' 0 8 = (slot s.built.nodeInfo i).symbol

/-- R64: a 32-bit access to the DMEM window is little-endian, an 8-bit read is zero-extended and an
8-bit write stores the low 8 bits; a write changes the bytes it stores and nothing else. The bus width an
8-bit read is zero-extended to is 32 bits here: the model's choice (DESIGN CHOICE, log entry 8). -/
def Obligations.DmemWindowIsLittleEndian : Prop :=
  ∀ (s : State) (a : Nat) (v : Word), s.sizeLegal → s.status.busy = false →
    (a % 4 = 0 → a + 3 < s.dmemSize →
      (∃ t, s.hostStep (txn .write (0x10000 + a) 32 v) = t ∧
        t = { s with mem := t.mem, response := some .okWrite } ∧
        t.readByte a = v.extractLsb' 0 8 ∧ t.readByte (a + 1) = v.extractLsb' 8 8 ∧
        t.readByte (a + 2) = v.extractLsb' 16 8 ∧ t.readByte (a + 3) = v.extractLsb' 24 8 ∧
        ∀ k, (k < a ∨ a + 4 ≤ k) → t.readByte k = s.readByte k) ∧
      s.hostStep (txn .read (0x10000 + a) 32 0#32) =
        { s with response := some (.okRead
          ((s.readByte a).setWidth 32 ||| (s.readByte (a + 1)).setWidth 32 <<< 8 |||
            (s.readByte (a + 2)).setWidth 32 <<< 16 |||
            (s.readByte (a + 3)).setWidth 32 <<< 24)) }) ∧
    (a < s.dmemSize →
      (∃ t, s.hostStep (txn .write (0x10000 + a) 8 v) = t ∧
        t = { s with mem := t.mem, response := some .okWrite } ∧
        t.readByte a = v.extractLsb' 0 8 ∧ ∀ k, k ≠ a → t.readByte k = s.readByte k) ∧
      s.hostStep (txn .read (0x10000 + a) 8 0#32) =
        { s with response := some (.okRead ((s.readByte a).setWidth 32)) })

/-! ### NOP, CLRF, SCAN -/

/-- R180: NOP, word 0, completes and changes nothing else. -/
def Obligations.NopOnlyCompletes : Prop :=
  encode .nop = 0x00000000#32 ∧
    ∀ s : State, exec .nop s = .next { s with status := ok s.status }

/-- R100: CLRF, word 1, completes with FREQ all 0 and TABLE_VALID cleared; the code table, the node arena,
the result registers and every DMEM byte are as before. -/
def Obligations.ClrfClearsTheTable : Prop :=
  encode .clrf = 0x00000001#32 ∧ ∀ s : State, ∃ f,
    exec .clrf s = .next { s with freq := f, status := ok { s.status with tableValid := false } } ∧
    ∀ sym, entry f sym = 0#32

/-- R102, R103: SCAN, word 2, of an in-range window completes: FREQ[s] is the number of window bytes equal
to s, whatever FREQ was, the entries add up to LEN, TABLE_VALID is cleared, and nothing else changes. Of
a window that runs past DMEM_SIZE, on unbounded naturals, it raises RANGE with ERR_INFO 0 and changes
nothing else. -/
def Obligations.ScanCountsTheWindowOrRaisesRange : Prop :=
  encode .scan = 0x00000002#32 ∧ ∀ s : State,
    (s.args.src.toNat + s.args.len.toNat ≤ s.dmemSize →
      ∃ f, exec .scan s =
          .next { s with freq := f, status := ok { s.status with tableValid := false } } ∧
        (∀ sym, (entry f sym).toNat =
          (List.range s.args.len.toNat).countP fun i => s.readByte (s.args.src.toNat + i) == sym) ∧
        (allSymbols.map fun sym => (entry f sym).toNat).sum = s.args.len.toNat) ∧
    (s.dmemSize < s.args.src.toNat + s.args.len.toNat →
      exec .scan s =
        .next { s with status := failed s.status, errCode := .range, errInfo := 0#32 })

/-- R104: the table SCAN leaves depends on the counts of the window's bytes only: two states whose
windows hold the same bytes in any order get the same table, whatever else differs. -/
def Obligations.ScanDependsOnTheWindowsCountsOnly : Prop :=
  ∀ s s' t t' : State, s.inputWindow.inRange s.dmemSize → s'.inputWindow.inRange s'.dmemSize →
    (s.readBytes s.inputWindow).Perm (s'.readBytes s'.inputWindow) →
    exec .scan s = .next t → exec .scan s' = .next t' → t.freq = t'.freq

/-! ### BUILD -/

/-- R120, R129: BUILD of a table whose sum fits 32 bits completes; TABLE_VALID is set, the result
registers hold k, the sum, the root, the node count and the largest code length, and nothing but these,
the code table and the node arena changes. -/
def Obligations.BuildWritesItsResultRegisters : Prop :=
  ∀ s : State, freqTotal s.freq ≤ 2 ^ 32 - 1 →
    ∃ b, exec .build s =
        .next { s with built := b, status := ok { s.status with tableValid := true } } ∧
      b.alpha.toNat = (alphabet s.freq).length ∧ b.total.toNat = freqTotal s.freq ∧
      (rootWord b.root).toNat =
        (if (alphabet s.freq).length = 0 then 0x80000000 else 2 * (alphabet s.freq).length - 2) ∧
      b.nodeCount.toNat =
        (if (alphabet s.freq).length = 0 then 0 else 2 * (alphabet s.freq).length - 1) ∧
      (∀ sym, b.lenOf sym ≤ b.maxlen.toNat) ∧
      (if (alphabet s.freq).length = 0 then b.maxlen = 0#8 else ∃ sym, b.lenOf sym = b.maxlen.toNat)

/-- R121, R204: BUILD of a table whose sum is past 2^32 - 1 raises FREQ_OVERFLOW with ERR_INFO 0 and
clears TABLE_VALID; FREQ, the arena, the code table and every other register are unchanged. -/
def Obligations.BuildRefusesAnOverflowingTable : Prop :=
  ∀ s : State, 2 ^ 32 - 1 < freqTotal s.freq →
    exec .build s = .next { s with status := failed { s.status with tableValid := false }
                                   errCode := .freqOverflow, errInfo := 0#32 }

/-- R45: after a successful BUILD with alphabet size k, slots 0 .. k - 1 are the leaves in ascending
symbol order, slots k .. 2k - 2 are internal nodes whose children come before them, every used slot but
the root is the child of exactly one internal node, and the other slots are unused and read 0. -/
def Obligations.BuildLeavesABinaryTree : Prop :=
  ∀ s t : State, freqTotal s.freq ≤ 2 ^ 32 - 1 → exec .build s = .next t →
    ∀ k, k = (alphabet s.freq).length →
    (∀ (i : NodeIdx) (h : i.toNat < (alphabet s.freq).length),
      slot t.built.nodeInfo i = ⟨true, true, 0#9, 0#9, (alphabet s.freq)[i.toNat]⟩) ∧
    (∀ i : NodeIdx, k ≤ i.toNat → i.toNat + 1 < 2 * k →
      (slot t.built.nodeInfo i).leaf = false ∧ (slot t.built.nodeInfo i).used = true ∧
      (slot t.built.nodeInfo i).symbol = 0#8 ∧
      (slot t.built.nodeInfo i).left.toNat < i.toNat ∧
      (slot t.built.nodeInfo i).right.toNat < i.toNat ∧
      (slot t.built.nodeInfo i).left ≠ (slot t.built.nodeInfo i).right) ∧
    (∀ i : NodeIdx, i.toNat + 2 < 2 * k →
      ∃ p : NodeIdx, (k ≤ p.toNat ∧ p.toNat + 1 < 2 * k ∧ childOf t.built i p) ∧
        ∀ p' : NodeIdx, k ≤ p'.toNat → p'.toNat + 1 < 2 * k → childOf t.built i p' → p' = p) ∧
    (∀ i : NodeIdx, 2 * k ≤ i.toNat + 1 →
      (slot t.built.nodeInfo i).toWord = 0#32 ∧ slot t.built.nodeFreq i = 0#32)

/-- R123, R124: each internal node was made from the two nodes that came first, in the order of
(frequency, index), among those before it that no earlier internal node had taken; the first is its
left child, the second its right. -/
def Obligations.EachMergeTakesTheTwoFirstNodes : Prop :=
  ∀ s t : State, freqTotal s.freq ≤ 2 ^ 32 - 1 → exec .build s = .next t →
    ∀ k, k = (alphabet s.freq).length → ∀ n : NodeIdx, k ≤ n.toNat → n.toNat + 1 < 2 * k →
    ∀ a c, a = (slot t.built.nodeInfo n).left → c = (slot t.built.nodeInfo n).right →
    ∀ pool : NodeIdx → Prop,
      (pool = fun j => j.toNat < n.toNat ∧
        ∀ m : NodeIdx, k ≤ m.toNat → m.toNat < n.toNat → ¬childOf t.built j m) →
      pool a ∧ pool c ∧ a ≠ c ∧
      (∀ j, pool j → j ≠ a → before t.built a j) ∧
      (∀ j, pool j → j ≠ a → j ≠ c → before t.built c j) ∧
      nodeFreq t.built n = nodeFreq t.built a + nodeFreq t.built c

/-- R43, R132: after a successful BUILD a leaf's NODE_FREQ is its symbol's count, the leaves' add up to
TOTAL, the root's is TOTAL, and after SCAN then BUILD TOTAL is SCAN's LEN. -/
def Obligations.NodeFrequenciesConserveTheTotal : Prop :=
  ∀ s t : State, freqTotal s.freq ≤ 2 ^ 32 - 1 → exec .build s = .next t →
    (∀ (i : NodeIdx) (h : i.toNat < (alphabet s.freq).length),
      slot t.built.nodeFreq i = entry s.freq (alphabet s.freq)[i.toNat]) ∧
    ((List.range (alphabet s.freq).length).map fun i =>
      nodeFreq t.built (BitVec.ofNat 9 i)).sum = t.built.total.toNat ∧
    (alphabet s.freq ≠ [] → nodeFreq t.built t.built.rootIndex = t.built.total.toNat) ∧
    (∀ r : State, r.inputWindow.inRange r.dmemSize → exec .scan r = .next s →
      t.built.total = r.args.len)

/-- R127, R128: with at least two symbols, each symbol's code in the table is its path from the root by
the arena's own links; with one, its code is the bit 0; a symbol not in the alphabet has none; and the
bits of CODE_BITS past a code's length are 0. -/
def Obligations.CodesAreThePathsOfTheTree : Prop :=
  ∀ s t : State, freqTotal s.freq ≤ 2 ^ 32 - 1 → exec .build s = .next t →
    (∀ sym, entry s.freq sym ≠ 0#32 → 2 ≤ (alphabet s.freq).length →
      t.built.spells t.built.rootIndex (t.built.codeOf sym) sym) ∧
    (∀ sym, alphabet s.freq = [sym] → t.built.codeOf sym = [false]) ∧
    (∀ sym, entry s.freq sym = 0#32 → t.built.lenOf sym = 0) ∧
    (∀ sym j, t.built.lenOf sym ≤ j → j < 256 → t.built.codeBit sym j = false)

/-- R131: after a successful BUILD no symbol's code is a prefix of another symbol's code. -/
def Obligations.CodesArePrefixFree : Prop :=
  ∀ s t : State, freqTotal s.freq ≤ 2 ^ 32 - 1 → exec .build s = .next t →
    ∀ a b : Byte, a ≠ b → t.built.lenOf a ≠ 0 → t.built.lenOf b ≠ 0 →
      ¬t.built.codeOf a <+: t.built.codeOf b

/-- R134: after a successful BUILD the symbols of the alphabet have codes of length 1 to 255, with k
symbols, k at least 2, of at most k - 1, and with one symbol of 1. -/
def Obligations.CodeLengthsAreBounded : Prop :=
  ∀ s t : State, freqTotal s.freq ≤ 2 ^ 32 - 1 → exec .build s = .next t →
    ∀ sym, entry s.freq sym ≠ 0#32 →
      1 ≤ t.built.lenOf sym ∧ t.built.lenOf sym ≤ 255 ∧
      (2 ≤ (alphabet s.freq).length → t.built.lenOf sym ≤ (alphabet s.freq).length - 1) ∧
      ((alphabet s.freq).length = 1 → t.built.lenOf sym = 1)

/-- R135: with at least two symbols the code is complete: the sum of 2^(-CODE_LEN) over the alphabet
is 1 (here times 2^255), and every bit string is a prefix of some code or has a code as its prefix. -/
def Obligations.CodeIsComplete : Prop :=
  ∀ s t : State, freqTotal s.freq ≤ 2 ^ 32 - 1 → exec .build s = .next t →
    2 ≤ (alphabet s.freq).length →
    ((alphabet s.freq).map fun sym => 2 ^ (255 - t.built.lenOf sym)).sum = 2 ^ 255 ∧
    ∀ bits : List Bool, ∃ sym, entry s.freq sym ≠ 0#32 ∧
      (bits <+: t.built.codeOf sym ∨ t.built.codeOf sym <+: bits)

/-- R133: BUILD's results are a function of FREQ alone. -/
def Obligations.BuildDependsOnFreqOnly : Prop :=
  ∀ s s' t t' : State, s.freq = s'.freq → freqTotal s.freq ≤ 2 ^ 32 - 1 →
    exec .build s = .next t → exec .build s' = .next t' → t.built = t'.built

/-! ### ENCODE -/

/-- R140, R141, R144, R68: with a valid table, in-range windows that do not overlap, a code for every
input byte and room for the whole stream, ENCODE completes: the bytes DST .. DST + OUT_BYTES - 1 hold
the codes in input order, most significant bit first, padded with 0; OUT_BITS is the sum of the code
lengths; every other byte and register is unchanged. -/
def Obligations.EncodePacksTheCodesInOrder : Prop :=
  ∀ s : State, s.status.tableValid = true → s.inputWindow.inRange s.dmemSize →
    s.outputWindow.inRange s.dmemSize → ¬s.inputWindow.overlaps s.outputWindow →
    (∀ sym ∈ s.readBytes s.inputWindow, s.built.lenOf sym ≠ 0) →
    ((s.readBytes s.inputWindow).map s.built.lenOf).sum ≤ 8 * s.args.dcap.toNat →
    ∀ bits, bits = s.built.codesOf (s.readBytes s.inputWindow) →
    ∃ m t, exec .encode s = .next t ∧
      t = { s with
              mem := m
              results :=
                { outBits := BitVec.ofNat 32 ((s.readBytes s.inputWindow).map s.built.lenOf).sum
                  outBytes := BitVec.ofNat 32 ((bits.length + 7) / 8)
                  outSyms := s.args.len }
              status := ok s.status } ∧
      bits.length = ((s.readBytes s.inputWindow).map s.built.lenOf).sum ∧
      (∀ q r, q < (bits.length + 7) / 8 → r < 8 →
        (t.readByte (s.args.dst.toNat + q)).getLsbD (7 - r) = bits.getD (8 * q + r) false) ∧
      (∀ a, (a < s.args.dst.toNat ∨ s.args.dst.toNat + (bits.length + 7) / 8 ≤ a) →
        t.readByte a = s.readByte a)

/-- R142, R140: at the first input byte that has no code, or whose code passes the capacity, ENCODE
ends with NO_CODE, or with DST_OVERFLOW, and ERR_INFO the offset of that byte; NO_CODE goes before
DST_OVERFLOW for one byte. What becomes of the output then is RuntimeErrorsLeaveOnlyTheOutputUnspec. -/
def Obligations.EncodeStopsAtTheFirstBadByte : Prop :=
  ∀ (s : State) (u v : List Byte) (sym : Byte), s.status.tableValid = true →
    s.inputWindow.inRange s.dmemSize → s.outputWindow.inRange s.dmemSize →
    ¬s.inputWindow.overlaps s.outputWindow →
    s.readBytes s.inputWindow = u ++ sym :: v → (∀ r ∈ u, s.built.lenOf r ≠ 0) →
    (u.map s.built.lenOf).sum ≤ 8 * s.args.dcap.toNat →
    (s.built.lenOf sym = 0 → ∃ t, exec .encode s = .next t ∧ t.status = failed s.status ∧
      t.errCode = .noCode ∧ t.errInfo = BitVec.ofNat 32 u.length) ∧
    (s.built.lenOf sym ≠ 0 →
      8 * s.args.dcap.toNat < (u.map s.built.lenOf).sum + s.built.lenOf sym →
      ∃ t, exec .encode s = .next t ∧ t.status = failed s.status ∧
        t.errCode = .dstOverflow ∧ t.errInfo = BitVec.ofNat 32 u.length)

/-- R142, R144: after SCAN and then BUILD over one window, ENCODE of that window with room for
sum of FREQ[s] * CODE_LEN[s] bits succeeds, and OUT_BITS is that sum. -/
def Obligations.EncodeAfterScanAndBuildSucceeds : Prop :=
  ∀ s s1 s2 e : State, s.sizeLegal → s.inputWindow.inRange s.dmemSize →
    exec .scan s = .next s1 → exec .build s1 = .next s2 →
    e.built = s2.built → e.status.tableValid = true → e.dmemSize = s.dmemSize →
    e.inputWindow = s.inputWindow → e.readBytes e.inputWindow = s.readBytes s.inputWindow →
    e.outputWindow.inRange e.dmemSize → ¬e.inputWindow.overlaps e.outputWindow →
    (allSymbols.map fun sym => (entry s1.freq sym).toNat * s2.built.lenOf sym).sum ≤
      8 * e.args.dcap.toNat →
    ∃ t, exec .encode e = .next t ∧ t.status = ok e.status ∧
      t.results.outBits = BitVec.ofNat 32
        (allSymbols.map fun sym => (entry s1.freq sym).toNat * s2.built.lenOf sym).sum

/-! ### ENCODE and DECODE: errors -/

/-- R202, R204: ENCODE and DECODE check, in this order, TABLE_VALID (NO_TABLE), the source window
(RANGE, ERR_INFO 0), the destination window (RANGE, ERR_INFO 1), and that they do not overlap (OVERLAP);
the first that fails is reported and nothing else changes. -/
def Obligations.UpFrontErrorsComeInOrderAndArePrecise : Prop :=
  ∀ (s : State) (i : Instr) (w : Window),
    (i = .encode ∧ w = ⟨s.args.src.toNat, s.args.len.toNat⟩ ∨
      i = .decode ∧ w = ⟨s.args.src.toNat, (s.args.nbits.toNat + 7) / 8⟩) →
    ∀ fail : ErrCode → Word → Host.Outcome State Fault Refusal,
    (fail = fun e info =>
      .next { s with status := failed s.status, errCode := e, errInfo := info }) →
    (s.status.tableValid = false → exec i s = fail .noTable 0#32) ∧
    (s.status.tableValid = true → s.dmemSize < w.base + w.len → exec i s = fail .range 0#32) ∧
    (s.status.tableValid = true → w.base + w.len ≤ s.dmemSize →
      s.dmemSize < s.args.dst.toNat + s.args.dcap.toNat → exec i s = fail .range 1#32) ∧
    (s.status.tableValid = true → w.base + w.len ≤ s.dmemSize →
      s.args.dst.toNat + s.args.dcap.toNat ≤ s.dmemSize →
      0 < w.len → 0 < s.args.dcap.toNat → w.base < s.args.dst.toNat + s.args.dcap.toNat →
      s.args.dst.toNat < w.base + w.len → exec i s = fail .overlap 0#32)

/-- R205: when ENCODE or DECODE ends with NO_CODE, DST_OVERFLOW, TRUNCATED or BAD_BIT, the destination
window and the three result registers hold UNSPEC values (free values of a new draw, log entry 2), and
everything else is unchanged: FREQ, the tables and their registers, the argument registers, and every
byte outside the window. -/
def Obligations.RuntimeErrorsLeaveOnlyTheOutputUnspec : Prop :=
  ∀ (s t : State) (i : Instr), (i = .encode ∨ i = .decode) → exec i s = .next t →
    (t.errCode = .noCode ∨ t.errCode = .dstOverflow ∨ t.errCode = .truncated ∨
      t.errCode = .badBit) → t.status.err = true → s.status.err = false →
    t = { s with
            mem := t.mem
            results := { outBits := Config.unspecWord s.draws .outBits
                         outBytes := Config.unspecWord s.draws .outBytes
                         outSyms := Config.unspecWord s.draws .outSyms }
            status := failed s.status
            errCode := t.errCode
            errInfo := t.errInfo
            draws := s.draws + 1 } ∧
    ∀ a, t.readByte a =
      if s.args.dst.toNat ≤ a ∧ a < s.args.dst.toNat + s.args.dcap.toNat
      then Config.unspecByte s.draws (.dmem a) else s.readByte a

/-! ### DECODE -/

/-- R160, R162, R163, R166, R68: with the table of a BUILD, in-range windows that do not overlap and a
stream that is the codes of some symbols of the alphabet, no more of them than DCAP, DECODE completes:
it writes those symbols at DST in order, OUT_BITS = NBITS, OUT_BYTES = OUT_SYMS = their number; every
other byte and register is unchanged. -/
def Obligations.DecodeWritesTheCodedSymbols : Prop :=
  ∀ (s : State) (syms : List Byte), s.tableLegal → s.status.tableValid = true →
    s.streamWindow.inRange s.dmemSize → s.outputWindow.inRange s.dmemSize →
    ¬s.streamWindow.overlaps s.outputWindow →
    (∀ sym ∈ syms, entry s.freq sym ≠ 0#32) → syms.length ≤ s.args.dcap.toNat →
    s.streamBits s.args.src.toNat s.args.nbits.toNat = s.built.codesOf syms →
    ∃ m t, exec .decode s = .next t ∧
      t = { s with
              mem := m
              results :=
                { outBits := s.args.nbits
                  outBytes := BitVec.ofNat 32 syms.length
                  outSyms := BitVec.ofNat 32 syms.length }
              status := ok s.status } ∧
      (∀ (q : Nat) (h : q < syms.length), t.readByte (s.args.dst.toNat + q) = syms[q]) ∧
      (∀ a, (a < s.args.dst.toNat ∨ s.args.dst.toNat + syms.length ≤ a) →
        t.readByte a = s.readByte a)

/-- R165: a stream that ends inside a code, after some whole codes that fit, makes DECODE end with
TRUNCATED and ERR_INFO the index of the first bit of the unfinished code. -/
def Obligations.DecodeReportsAnUnfinishedCode : Prop :=
  ∀ (s : State) (syms : List Byte) (last : Byte) (part : List Bool), s.tableLegal →
    s.status.tableValid = true → s.streamWindow.inRange s.dmemSize →
    s.outputWindow.inRange s.dmemSize → ¬s.streamWindow.overlaps s.outputWindow →
    (∀ sym ∈ syms, entry s.freq sym ≠ 0#32) → syms.length ≤ s.args.dcap.toNat →
    entry s.freq last ≠ 0#32 → part ≠ [] → part <+: s.built.codeOf last →
    part ≠ s.built.codeOf last →
    s.streamBits s.args.src.toNat s.args.nbits.toNat = s.built.codesOf syms ++ part →
    ∃ t, exec .decode s = .next t ∧ t.status = failed s.status ∧ t.errCode = .truncated ∧
      t.errInfo = BitVec.ofNat 32 (s.built.codesOf syms).length

/-- R166: a stream that begins with the codes of more than DCAP symbols makes DECODE end with
DST_OVERFLOW and ERR_INFO the index of the bit that completes the first symbol that does not fit. -/
def Obligations.DecodeReportsTheSymbolThatDoesNotFit : Prop :=
  ∀ (s : State) (syms : List Byte) (next : Byte) (tail : List Bool), s.tableLegal →
    s.status.tableValid = true → s.streamWindow.inRange s.dmemSize →
    s.outputWindow.inRange s.dmemSize → ¬s.streamWindow.overlaps s.outputWindow →
    (∀ sym ∈ syms, entry s.freq sym ≠ 0#32) → syms.length = s.args.dcap.toNat →
    entry s.freq next ≠ 0#32 →
    s.streamBits s.args.src.toNat s.args.nbits.toNat =
      s.built.codesOf syms ++ s.built.codeOf next ++ tail →
    ∃ t, exec .decode s = .next t ∧ t.status = failed s.status ∧ t.errCode = .dstOverflow ∧
      t.errInfo = BitVec.ofNat 32 ((s.built.codesOf syms).length + s.built.lenOf next - 1)

/-- R163, R164: with an empty tree any bit is BAD_BIT at index 0 and no bit is success with no output;
with one symbol a 1 bit after n 0 bits that fit is BAD_BIT at index n. -/
def Obligations.DecodeReportsBitsThatBeginNoCode : Prop :=
  ∀ s : State, s.status.tableValid = true → s.streamWindow.inRange s.dmemSize →
    s.outputWindow.inRange s.dmemSize → ¬s.streamWindow.overlaps s.outputWindow →
    (s.built.alpha = 0#9 → s.args.nbits = 0#32 → exec .decode s =
      .next { s with results := ⟨0#32, 0#32, 0#32⟩, status := ok s.status }) ∧
    (s.built.alpha = 0#9 → s.args.nbits ≠ 0#32 → ∃ t, exec .decode s = .next t ∧
      t.status = failed s.status ∧ t.errCode = .badBit ∧ t.errInfo = 0#32) ∧
    (∀ n tail, s.built.alpha = 1#9 → n ≤ s.args.dcap.toNat →
      s.streamBits s.args.src.toNat s.args.nbits.toNat = List.replicate n false ++ true :: tail →
      ∃ t, exec .decode s = .next t ∧ t.status = failed s.status ∧ t.errCode = .badBit ∧
        t.errInfo = BitVec.ofNat 32 n)

/-- R170: round trip. When ENCODE of a window has succeeded with the table of a BUILD, DECODE, in any
state with the same table, of the bytes ENCODE wrote, with NBITS = OUT_BITS and room for LEN bytes,
succeeds and writes exactly the input, OUT_SYMS = LEN. -/
def Obligations.DecodeGivesBackWhatEncodeRead : Prop :=
  ∀ s t d : State, s.sizeLegal → s.tableLegal → s.status.done = false →
    exec .encode s = .next t → t.status.done = true →
    d.built = t.built → d.status.tableValid = true → d.args.nbits = t.results.outBits →
    (∀ q, q < t.results.outBytes.toNat →
      d.readByte (d.args.src.toNat + q) = t.readByte (s.args.dst.toNat + q)) →
    d.streamWindow.inRange d.dmemSize → d.outputWindow.inRange d.dmemSize →
    ¬d.streamWindow.overlaps d.outputWindow → s.args.len.toNat ≤ d.args.dcap.toNat →
    ∃ u, exec .decode d = .next u ∧ u.status = ok d.status ∧
      u.results.outSyms = s.args.len ∧
      ∀ i, i < s.args.len.toNat →
        u.readByte (d.args.dst.toNat + i) = s.readByte (s.args.src.toNat + i)

/-! ### What commands leave alone, and invariants -/

/-- R27, R48, R65, D41: a command changes no argument register, no enable, not CMD and not BUSY_VIOL;
NOP, CLRF, SCAN and BUILD change no DMEM byte and no result register; NOP, CLRF, SCAN, ENCODE and
DECODE change nothing BUILD writes; NOP, BUILD, ENCODE and DECODE do not change FREQ. -/
def Obligations.CommandsWriteOnlyTheirOwnResults : Prop :=
  ∀ (i : Instr) (s t : State), exec i s = .next t →
    t.args = s.args ∧ t.irqEn = s.irqEn ∧ t.cmd = s.cmd ∧ t.param = s.param ∧
    t.status.busyViol = s.status.busyViol ∧
    (i = .nop ∨ i = .clrf ∨ i = .scan ∨ i = .build →
      t.results = s.results ∧ ∀ a, t.readByte a = s.readByte a) ∧
    (i ≠ .build → t.built = s.built) ∧
    (i ≠ .clrf → i ≠ .scan → t.freq = s.freq) ∧
    (i = .nop ∨ i = .encode ∨ i = .decode → t.status.tableValid = s.status.tableValid)

/-- R28: an argument register a command does not read has no effect on it: with any other value there the
command does the same and leaves that value alone. UNSPEC values are the same on both sides because
they are named by draw number and item (the model's choice, log entry 2). -/
def Obligations.UnreadArgumentsHaveNoEffect : Prop :=
  ∀ (i : Instr) (s t : State) (a : Args), exec i s = .next t →
    (i = .nop ∨ i = .clrf ∨ i = .build ∨
      (i = .scan ∧ a.src = s.args.src ∧ a.len = s.args.len) ∨
      (i = .encode ∧ a = { s.args with nbits := a.nbits }) ∨
      (i = .decode ∧ a = { s.args with len := a.len })) →
    exec i { s with args := a } = .next { t with args := a }

/-- R68: no command changes a DMEM byte outside [DST, DST + DCAP), and no byte at or above DMEM_SIZE. -/
def Obligations.CommandsWriteOnlyTheirWindow : Prop :=
  ∀ (i : Instr) (s t : State) (a : Nat), exec i s = .next t →
    (a < s.args.dst.toNat ∨ s.args.dst.toNat + s.args.dcap.toNat ≤ a ∨ s.dmemSize ≤ a) →
    t.readByte a = s.readByte a

/-- R46, R60: every step keeps DMEM inside [0, DMEM_SIZE), and in the canonical form of its list, which is
the model's own (DESIGN CHOICE, log entry 12); and no step changes DMEM_SIZE, which the model holds as
PARAM, a field that nothing writes (DESIGN CHOICE, log entry 11). -/
def Obligations.StepsKeepDmemCanonical : Prop :=
  ∀ s t : State, s.memLegal → step s = .next t → t.memLegal ∧ t.param = s.param

/-- R24, R85, R86: every step keeps STATUS, ERR_CODE and ERR_INFO in agreement: nothing recorded while
BUSY, DONE and ERR never both 1, DONE without an error, ERR with one. -/
def Obligations.StepsKeepStatusAndErrorConsistent : Prop :=
  ∀ s t : State, s.statusLegal → step s = .next t → t.statusLegal

/-- R24, R48, R76: every step keeps this: while TABLE_VALID = 1 the node arena, the code table and
BUILD's registers are exactly what BUILD gives for the FREQ table as it stands. -/
def Obligations.ValidTableIsTheBuildOfFreq : Prop :=
  ∀ s t : State, s.tableLegal → step s = .next t → t.tableLegal

/-- The whole invariant is kept by every step, so it holds in every state a run from a state with it
reaches. Of its parts, that STATUS and the error registers agree (R24), that a valid table is BUILD's
(R48), that DMEM_SIZE is legal (R8) and that no byte lies outside DMEM (R46) are the spec's; the order of
the draws (DESIGN CHOICE, log entry 2) and the canonical form of DMEM's list (DESIGN CHOICE, log entry 12)
are the model's. -/
def Obligations.ReachableStatesKeepTheWholeInvariant : Prop :=
  ∀ s t : State, s.Inv → Reaches s t → t.Inv

/-- The reset state (R49) meets the whole invariant. Three of its parts rest on the model's choices for the
reset state: that DMEM_SIZE is legal, on the launch it stands for (DESIGN CHOICE, log entry 1); that the
draws are in order, on dmemDraw = 0 and draws = 1 (DESIGN CHOICE, log entry 2); that DMEM is in canonical
form, on its list with no entry (DESIGN CHOICE, log entry 12). -/
def Obligations.ResetStateMeetsTheWholeInvariant : Prop := State.reset.Inv

/-! ### Error codes and the entry points -/

/-- R200, R25: the ten error codes have the numbers of the table, and while BUSY = 0 the host reads the
number of the recorded one at ERR_CODE, with 0 in bits 31:8. -/
def Obligations.ErrorCodesHaveTheNumbersOfTheTable : Prop :=
  ErrCode.none.number = 0x00#8 ∧ ErrCode.illegalCmd.number = 0x01#8 ∧
  ErrCode.range.number = 0x02#8 ∧ ErrCode.overlap.number = 0x03#8 ∧
  ErrCode.noTable.number = 0x04#8 ∧ ErrCode.noCode.number = 0x05#8 ∧
  ErrCode.dstOverflow.number = 0x06#8 ∧ ErrCode.truncated.number = 0x07#8 ∧
  ErrCode.badBit.number = 0x08#8 ∧ ErrCode.freqOverflow.number = 0x09#8 ∧
  ∀ s : State, s.status.busy = false → ∃ v,
    s.hostStep (txn .read 0x0C 32 0#32) = { s with response := some (.okRead v) } ∧
    v.toNat = s.errCode.number.toNat

/-- R93: the reads that end the two entry points, played on an idle block whose output window lies in DMEM,
in whatever order the host and the core move, are answered with the results, and change nothing but the last
answer: for compress FREQ[0..255], OUT_BITS and the OUT_BYTES bytes at `d`; for decompress the OUT_SYMS bytes
at `d`. The model's choices here: a register that says how many bytes follow is read before them, and the
bytes one by one (DESIGN CHOICE, log entry 16); read data is 32 bits wide (DESIGN CHOICE, log entry 8); a
list of moves that is used up goes on as log entry 17 says (DESIGN CHOICE). -/
def Obligations.EntryPointsReadBackTheirResults : Prop :=
  ∀ (s : State) (moves : List Mover) (d : Word), s.status.busy = false → s.sizeLegal →
    (d.toNat + s.results.outBytes.toNat ≤ s.dmemSize →
      ∃ r, s.play moves (compressReads s d) = .next ({ s with turns := [], response := r },
        (allSymbols.map fun sym => .okRead (entry s.freq sym)) ++
          [.okRead s.results.outBits, .okRead s.results.outBytes] ++
          byteAnswers s d.toNat s.results.outBytes.toNat)) ∧
    (d.toNat + s.results.outSyms.toNat ≤ s.dmemSize →
      ∃ r, s.play moves (decompressReads s d) = .next ({ s with turns := [], response := r },
        .okRead s.results.outSyms :: byteAnswers s d.toNat s.results.outSyms.toNat))
end

