-- ==== Sys2Proof/Laws/Bits.lean ====
section
/-! SUPPORT. Laws of bit strings and tables: what each bit of a packed value is, packing and reading
back, and what a built or changed table holds. -/

namespace Sys2Proof.Machine

/-! ### Tables -/

@[simp] theorem getElem_tabulate {α : Type} (n : Nat) (f : Nat → α) (i : Nat) (h : i < n) :
    (tabulate n f)[i] = f i := by
  simp [tabulate]

@[simp] theorem entry_tabulate {α : Type} (f : Nat → α) (s : Byte) :
    entry (tabulate 256 f) s = f s.toNat := by
  simp [entry]

@[simp] theorem slot_tabulate {α : Type} (f : Nat → α) (i : NodeIdx) :
    slot (tabulate 512 f) i = f i.toNat := by
  simp [slot]

@[simp] theorem entry_replicate {α : Type} (a : α) (s : Byte) :
    entry (Vector.replicate 256 a) s = a := by
  simp [entry]

theorem entry_setEntry {α : Type} (t : SymTable α) (s r : Byte) (v : α) :
    entry (setEntry t s v) r = if r = s then v else entry t r := by
  by_cases h : r = s
  · subst h; simp [entry, setEntry]
  · have h' : s.toNat ≠ r.toNat := fun e => h (BitVec.eq_of_toNat_eq e.symm)
    simp [entry, setEntry, h, h']

@[simp] theorem entry_setEntry_self {α : Type} (t : SymTable α) (s : Byte) (v : α) :
    entry (setEntry t s v) s = v := by
  simp [entry_setEntry]

/-- Two tables with the same entries are the same table. -/
theorem symTable_ext {α : Type} {t u : SymTable α} (h : ∀ s, entry t s = entry u s) : t = u := by
  apply Vector.ext
  intro i hi
  simpa [entry, Nat.mod_eq_of_lt hi] using h (BitVec.ofNat 8 i)

/-- Two arenas with the same slots are the same arena. -/
theorem nodeTable_ext {α : Type} {t u : NodeTable α} (h : ∀ i, slot t i = slot u i) : t = u := by
  apply Vector.ext
  intro i hi
  simpa [slot, Nat.mod_eq_of_lt hi] using h (BitVec.ofNat 9 i)

/-! ### The symbols -/

@[simp] theorem mem_allSymbols (s : Byte) : s ∈ allSymbols := by
  simp only [allSymbols, List.mem_map, List.mem_range'_1]
  exact ⟨s.toNat, ⟨Nat.zero_le _, by have := s.isLt; omega⟩, by simp⟩

@[simp] theorem length_allSymbols : allSymbols.length = 256 := by simp [allSymbols]

@[simp] theorem getElem_allSymbols (i : Nat) (h : i < allSymbols.length) :
    allSymbols[i] = BitVec.ofNat 8 i := by
  simp [allSymbols]

/-- The symbols stand in strictly ascending order. -/
theorem allSymbols_ascending : allSymbols.Pairwise fun a b => a.toNat < b.toNat := by
  simp only [allSymbols, List.pairwise_map]
  refine (List.pairwise_lt_range' (s := 0) (n := 256)).imp_of_mem ?_
  intro a b ha hb hab
  simp only [List.mem_range'_1] at ha hb
  simp only [BitVec.toNat_ofNat]
  omega

theorem nodup_allSymbols : allSymbols.Nodup :=
  allSymbols_ascending.imp fun h e => by simp [e] at h

/-! ### Packing -/

theorem getMsbD_packMsb (n : Nat) (bits : List Bool) (i : Nat) :
    (packMsb n bits).getMsbD i = (decide (i < n) && bits.getD i false) := by
  induction n generalizing bits i with
  | zero => simp [packMsb]
  | succ n ih =>
    cases bits with
    | nil => simp [packMsb]
    | cons b bs => cases i <;> simp [packMsb, ih]

theorem getLsbD_packMsb (n : Nat) (bits : List Bool) (i : Nat) :
    (packMsb n bits).getLsbD i = (decide (i < n) && bits.getD (n - 1 - i) false) := by
  by_cases h : i < n
  · have h1 : n - 1 - i < n := by omega
    have h2 : n - 1 - (n - 1 - i) = i := by omega
    have := getMsbD_packMsb n bits (n - 1 - i)
    simpa [BitVec.getMsbD, h, h1, h2] using this
  · simp [h, BitVec.getLsbD_of_ge _ _ (Nat.le_of_not_lt h)]

theorem getD_drop (bits : List Bool) (k i : Nat) :
    (bits.drop k).getD i false = bits.getD (k + i) false := by
  simp [List.getD_eq_getElem?_getD]

/-- Bit `7 - r` of byte `q` is stream bit `8q + r`, or 0 past the end (R141). -/
theorem getLsbD_packByte (bits : List Bool) (q r : Nat) (h : r < 8) :
    (packByte bits q).getLsbD (7 - r) = bits.getD (8 * q + r) false := by
  rw [packByte, getLsbD_packMsb, getD_drop]
  have h1 : 7 - r < 8 := by omega
  have h2 : 8 - 1 - (7 - r) = r := by omega
  simp [h1, h2]

/-- Bit `31 - r` of word `w` is code bit `32w + r`, or 0 past the end (R42). -/
theorem getLsbD_packWord (bits : List Bool) (w r : Nat) (h : r < 32) :
    (packWord bits w).getLsbD (31 - r) = bits.getD (32 * w + r) false := by
  rw [packWord, getLsbD_packMsb, getD_drop]
  have h1 : 31 - r < 32 := by omega
  have h2 : 32 - 1 - (31 - r) = r := by omega
  simp [h1, h2]

@[simp] theorem length_packBytes (bits : List Bool) : (packBytes bits).length = ceil8 bits.length := by
  simp [packBytes]

theorem getElem_packBytes (bits : List Bool) (q : Nat) (h : q < (packBytes bits).length) :
    (packBytes bits)[q] = packByte bits q := by
  simp [packBytes]

/-- Reading stream bit `j` back from the byte it was packed into (R141, R161). -/
theorem streamBit_packByte (bits : List Bool) (j : Nat) :
    streamBit (packByte bits (j / 8)) j = bits.getD j false := by
  have h : 8 * (j / 8) + j % 8 = j := Nat.div_add_mod j 8
  rw [streamBit, getLsbD_packByte _ _ _ (Nat.mod_lt _ (by decide)), h]

/-! ### Byte counts -/

theorem ceil8_le_iff (n m : Nat) : ceil8 n ≤ m ↔ n ≤ 8 * m := by unfold ceil8; omega

theorem ceil8_mono {n m : Nat} (h : n ≤ m) : ceil8 n ≤ ceil8 m := by unfold ceil8; omega

theorem div8_lt_ceil8 {j n : Nat} (h : j < n) : j / 8 < ceil8 n := by unfold ceil8; omega

@[simp] theorem ceil8_zero : ceil8 0 = 0 := rfl

/-! ### Codes in the code table -/

@[simp] theorem length_codeOf (b : Built) (s : Byte) : (b.codeOf s).length = b.lenOf s := by
  simp [Built.codeOf]

theorem getElem_codeOf (b : Built) (s : Byte) (j : Nat) (h : j < (b.codeOf s).length) :
    (b.codeOf s)[j] = b.codeBit s j := by
  simp [Built.codeOf]

/-- A code is empty exactly when its CODE_LEN is 0. -/
theorem codeOf_eq_nil (b : Built) (s : Byte) : b.codeOf s = [] ↔ b.lenOf s = 0 := by
  rw [← List.length_eq_zero_iff, length_codeOf]

end Sys2Proof.Machine
end

