-- ==== Sys2Proof/Laws/State.lean ====
section
/-! SUPPORT. One lemma per field of State for every named update, and per flag for every flag
computation, so that no proof unfolds a record update. -/

namespace Sys2Proof.Machine

/-! ### Flags -/

@[simp] theorem Status.issue_busy (st : Status) : (st.issue).busy = true := rfl
@[simp] theorem Status.issue_done (st : Status) : (st.issue).done = false := rfl
@[simp] theorem Status.issue_err (st : Status) : (st.issue).err = false := rfl
@[simp] theorem Status.issue_tableValid (st : Status) : (st.issue).tableValid = st.tableValid := rfl
@[simp] theorem Status.issue_busyViol (st : Status) : (st.issue).busyViol = st.busyViol := rfl

@[simp] theorem Status.succeed_busy (st : Status) : (st.succeed).busy = false := rfl
@[simp] theorem Status.succeed_done (st : Status) : (st.succeed).done = true := rfl
@[simp] theorem Status.succeed_err (st : Status) : (st.succeed).err = st.err := rfl
@[simp] theorem Status.succeed_tableValid (st : Status) : (st.succeed).tableValid = st.tableValid := rfl
@[simp] theorem Status.succeed_busyViol (st : Status) : (st.succeed).busyViol = st.busyViol := rfl

@[simp] theorem Status.fail_busy (st : Status) : (st.fail).busy = false := rfl
@[simp] theorem Status.fail_done (st : Status) : (st.fail).done = st.done := rfl
@[simp] theorem Status.fail_err (st : Status) : (st.fail).err = true := rfl
@[simp] theorem Status.fail_tableValid (st : Status) : (st.fail).tableValid = st.tableValid := rfl
@[simp] theorem Status.fail_busyViol (st : Status) : (st.fail).busyViol = st.busyViol := rfl

@[simp] theorem Status.writeOneClear_busy (st : Status) (v : Word) : (st.writeOneClear v).busy = st.busy := rfl
@[simp] theorem Status.writeOneClear_done (st : Status) (v : Word) : (st.writeOneClear v).done = (st.done && !v.getLsbD 1) := rfl
@[simp] theorem Status.writeOneClear_err (st : Status) (v : Word) : (st.writeOneClear v).err = (st.err && !v.getLsbD 2) := rfl
@[simp] theorem Status.writeOneClear_tableValid (st : Status) (v : Word) : (st.writeOneClear v).tableValid = st.tableValid := rfl
@[simp] theorem Status.writeOneClear_busyViol (st : Status) (v : Word) : (st.writeOneClear v).busyViol = (st.busyViol && !v.getLsbD 4) := rfl

@[simp] theorem Status.invalidate_busy (st : Status) : (st.invalidate).busy = st.busy := rfl
@[simp] theorem Status.invalidate_done (st : Status) : (st.invalidate).done = st.done := rfl
@[simp] theorem Status.invalidate_err (st : Status) : (st.invalidate).err = st.err := rfl
@[simp] theorem Status.invalidate_tableValid (st : Status) : (st.invalidate).tableValid = false := rfl
@[simp] theorem Status.invalidate_busyViol (st : Status) : (st.invalidate).busyViol = st.busyViol := rfl

@[simp] theorem Status.validate_busy (st : Status) : (st.validate).busy = st.busy := rfl
@[simp] theorem Status.validate_done (st : Status) : (st.validate).done = st.done := rfl
@[simp] theorem Status.validate_err (st : Status) : (st.validate).err = st.err := rfl
@[simp] theorem Status.validate_tableValid (st : Status) : (st.validate).tableValid = true := rfl
@[simp] theorem Status.validate_busyViol (st : Status) : (st.validate).busyViol = st.busyViol := rfl

@[simp] theorem Status.violate_busy (st : Status) : (st.violate).busy = st.busy := rfl
@[simp] theorem Status.violate_done (st : Status) : (st.violate).done = st.done := rfl
@[simp] theorem Status.violate_err (st : Status) : (st.violate).err = st.err := rfl
@[simp] theorem Status.violate_tableValid (st : Status) : (st.violate).tableValid = st.tableValid := rfl
@[simp] theorem Status.violate_busyViol (st : Status) : (st.violate).busyViol = true := rfl

/-! ### Registers -/

@[simp] theorem State.issue_cmd (s : State) (w : Word) : (s.issue w).cmd = w := rfl
@[simp] theorem State.issue_status (s : State) (w : Word) : (s.issue w).status = s.status.issue :=
  rfl
@[simp] theorem State.issue_errCode (s : State) (w : Word) : (s.issue w).errCode = .none := rfl
@[simp] theorem State.issue_errInfo (s : State) (w : Word) : (s.issue w).errInfo = 0#32 := rfl
@[simp] theorem State.issue_args (s : State) (w : Word) : (s.issue w).args = s.args := rfl
@[simp] theorem State.issue_results (s : State) (w : Word) : (s.issue w).results = s.results := rfl
@[simp] theorem State.issue_built (s : State) (w : Word) : (s.issue w).built = s.built := rfl
@[simp] theorem State.issue_irqEn (s : State) (w : Word) : (s.issue w).irqEn = s.irqEn := rfl
@[simp] theorem State.issue_param (s : State) (w : Word) : (s.issue w).param = s.param := rfl
@[simp] theorem State.issue_freq (s : State) (w : Word) : (s.issue w).freq = s.freq := rfl
@[simp] theorem State.issue_mem (s : State) (w : Word) : (s.issue w).mem = s.mem := rfl
@[simp] theorem State.issue_dmemDraw (s : State) (w : Word) : (s.issue w).dmemDraw = s.dmemDraw :=
  rfl
@[simp] theorem State.issue_draws (s : State) (w : Word) : (s.issue w).draws = s.draws := rfl
@[simp] theorem State.issue_turns (s : State) (w : Word) : (s.issue w).turns = s.turns := rfl
@[simp] theorem State.issue_response (s : State) (w : Word) : (s.issue w).response = s.response :=
  rfl

@[simp] theorem State.succeed_cmd (s : State) : (s.succeed).cmd = s.cmd := rfl
@[simp] theorem State.succeed_status (s : State) : (s.succeed).status = s.status.succeed := rfl
@[simp] theorem State.succeed_errCode (s : State) : (s.succeed).errCode = s.errCode := rfl
@[simp] theorem State.succeed_errInfo (s : State) : (s.succeed).errInfo = s.errInfo := rfl
@[simp] theorem State.succeed_args (s : State) : (s.succeed).args = s.args := rfl
@[simp] theorem State.succeed_results (s : State) : (s.succeed).results = s.results := rfl
@[simp] theorem State.succeed_built (s : State) : (s.succeed).built = s.built := rfl
@[simp] theorem State.succeed_irqEn (s : State) : (s.succeed).irqEn = s.irqEn := rfl
@[simp] theorem State.succeed_param (s : State) : (s.succeed).param = s.param := rfl
@[simp] theorem State.succeed_freq (s : State) : (s.succeed).freq = s.freq := rfl
@[simp] theorem State.succeed_mem (s : State) : (s.succeed).mem = s.mem := rfl
@[simp] theorem State.succeed_dmemDraw (s : State) : (s.succeed).dmemDraw = s.dmemDraw := rfl
@[simp] theorem State.succeed_draws (s : State) : (s.succeed).draws = s.draws := rfl
@[simp] theorem State.succeed_turns (s : State) : (s.succeed).turns = s.turns := rfl
@[simp] theorem State.succeed_response (s : State) : (s.succeed).response = s.response := rfl

@[simp] theorem State.raise_cmd (s : State) (e : ErrCode) (i : Word) : (s.raise e i).cmd = s.cmd :=
  rfl
@[simp] theorem State.raise_status (s : State) (e : ErrCode) (i : Word) : (s.raise e i).status = s.status.fail :=
  rfl
@[simp] theorem State.raise_errCode (s : State) (e : ErrCode) (i : Word) : (s.raise e i).errCode = e :=
  rfl
@[simp] theorem State.raise_errInfo (s : State) (e : ErrCode) (i : Word) : (s.raise e i).errInfo = i :=
  rfl
@[simp] theorem State.raise_args (s : State) (e : ErrCode) (i : Word) : (s.raise e i).args = s.args :=
  rfl
@[simp] theorem State.raise_results (s : State) (e : ErrCode) (i : Word) : (s.raise e i).results = s.results :=
  rfl
@[simp] theorem State.raise_built (s : State) (e : ErrCode) (i : Word) : (s.raise e i).built = s.built :=
  rfl
@[simp] theorem State.raise_irqEn (s : State) (e : ErrCode) (i : Word) : (s.raise e i).irqEn = s.irqEn :=
  rfl
@[simp] theorem State.raise_param (s : State) (e : ErrCode) (i : Word) : (s.raise e i).param = s.param :=
  rfl
@[simp] theorem State.raise_freq (s : State) (e : ErrCode) (i : Word) : (s.raise e i).freq = s.freq :=
  rfl
@[simp] theorem State.raise_mem (s : State) (e : ErrCode) (i : Word) : (s.raise e i).mem = s.mem :=
  rfl
@[simp] theorem State.raise_dmemDraw (s : State) (e : ErrCode) (i : Word) : (s.raise e i).dmemDraw = s.dmemDraw :=
  rfl
@[simp] theorem State.raise_draws (s : State) (e : ErrCode) (i : Word) : (s.raise e i).draws = s.draws :=
  rfl
@[simp] theorem State.raise_turns (s : State) (e : ErrCode) (i : Word) : (s.raise e i).turns = s.turns :=
  rfl
@[simp] theorem State.raise_response (s : State) (e : ErrCode) (i : Word) : (s.raise e i).response = s.response :=
  rfl

@[simp] theorem State.acknowledge_cmd (s : State) (v : Word) : (s.acknowledge v).cmd = s.cmd := rfl
@[simp] theorem State.acknowledge_status (s : State) (v : Word) : (s.acknowledge v).status = s.status.writeOneClear v :=
  rfl
@[simp] theorem State.acknowledge_errCode (s : State) (v : Word) : (s.acknowledge v).errCode = s.errCode :=
  rfl
@[simp] theorem State.acknowledge_errInfo (s : State) (v : Word) : (s.acknowledge v).errInfo = s.errInfo :=
  rfl
@[simp] theorem State.acknowledge_args (s : State) (v : Word) : (s.acknowledge v).args = s.args :=
  rfl
@[simp] theorem State.acknowledge_results (s : State) (v : Word) : (s.acknowledge v).results = s.results :=
  rfl
@[simp] theorem State.acknowledge_built (s : State) (v : Word) : (s.acknowledge v).built = s.built :=
  rfl
@[simp] theorem State.acknowledge_irqEn (s : State) (v : Word) : (s.acknowledge v).irqEn = s.irqEn :=
  rfl
@[simp] theorem State.acknowledge_param (s : State) (v : Word) : (s.acknowledge v).param = s.param :=
  rfl
@[simp] theorem State.acknowledge_freq (s : State) (v : Word) : (s.acknowledge v).freq = s.freq :=
  rfl
@[simp] theorem State.acknowledge_mem (s : State) (v : Word) : (s.acknowledge v).mem = s.mem := rfl
@[simp] theorem State.acknowledge_dmemDraw (s : State) (v : Word) : (s.acknowledge v).dmemDraw = s.dmemDraw :=
  rfl
@[simp] theorem State.acknowledge_draws (s : State) (v : Word) : (s.acknowledge v).draws = s.draws :=
  rfl
@[simp] theorem State.acknowledge_turns (s : State) (v : Word) : (s.acknowledge v).turns = s.turns :=
  rfl
@[simp] theorem State.acknowledge_response (s : State) (v : Word) : (s.acknowledge v).response = s.response :=
  rfl

@[simp] theorem State.setFreq_cmd (s : State) (f : SymTable Word) : (s.setFreq f).cmd = s.cmd :=
  rfl
@[simp] theorem State.setFreq_status (s : State) (f : SymTable Word) : (s.setFreq f).status = s.status.invalidate :=
  rfl
@[simp] theorem State.setFreq_errCode (s : State) (f : SymTable Word) : (s.setFreq f).errCode = s.errCode :=
  rfl
@[simp] theorem State.setFreq_errInfo (s : State) (f : SymTable Word) : (s.setFreq f).errInfo = s.errInfo :=
  rfl
@[simp] theorem State.setFreq_args (s : State) (f : SymTable Word) : (s.setFreq f).args = s.args :=
  rfl
@[simp] theorem State.setFreq_results (s : State) (f : SymTable Word) : (s.setFreq f).results = s.results :=
  rfl
@[simp] theorem State.setFreq_built (s : State) (f : SymTable Word) : (s.setFreq f).built = s.built :=
  rfl
@[simp] theorem State.setFreq_irqEn (s : State) (f : SymTable Word) : (s.setFreq f).irqEn = s.irqEn :=
  rfl
@[simp] theorem State.setFreq_param (s : State) (f : SymTable Word) : (s.setFreq f).param = s.param :=
  rfl
@[simp] theorem State.setFreq_freq (s : State) (f : SymTable Word) : (s.setFreq f).freq = f := rfl
@[simp] theorem State.setFreq_mem (s : State) (f : SymTable Word) : (s.setFreq f).mem = s.mem :=
  rfl
@[simp] theorem State.setFreq_dmemDraw (s : State) (f : SymTable Word) : (s.setFreq f).dmemDraw = s.dmemDraw :=
  rfl
@[simp] theorem State.setFreq_draws (s : State) (f : SymTable Word) : (s.setFreq f).draws = s.draws :=
  rfl
@[simp] theorem State.setFreq_turns (s : State) (f : SymTable Word) : (s.setFreq f).turns = s.turns :=
  rfl
@[simp] theorem State.setFreq_response (s : State) (f : SymTable Word) : (s.setFreq f).response = s.response :=
  rfl

@[simp] theorem State.respond_cmd (s : State) (r : Response) : (s.respond r).cmd = s.cmd := rfl
@[simp] theorem State.respond_status (s : State) (r : Response) : (s.respond r).status = s.status :=
  rfl
@[simp] theorem State.respond_errCode (s : State) (r : Response) : (s.respond r).errCode = s.errCode :=
  rfl
@[simp] theorem State.respond_errInfo (s : State) (r : Response) : (s.respond r).errInfo = s.errInfo :=
  rfl
@[simp] theorem State.respond_args (s : State) (r : Response) : (s.respond r).args = s.args := rfl
@[simp] theorem State.respond_results (s : State) (r : Response) : (s.respond r).results = s.results :=
  rfl
@[simp] theorem State.respond_built (s : State) (r : Response) : (s.respond r).built = s.built :=
  rfl
@[simp] theorem State.respond_irqEn (s : State) (r : Response) : (s.respond r).irqEn = s.irqEn :=
  rfl
@[simp] theorem State.respond_param (s : State) (r : Response) : (s.respond r).param = s.param :=
  rfl
@[simp] theorem State.respond_freq (s : State) (r : Response) : (s.respond r).freq = s.freq := rfl
@[simp] theorem State.respond_mem (s : State) (r : Response) : (s.respond r).mem = s.mem := rfl
@[simp] theorem State.respond_dmemDraw (s : State) (r : Response) : (s.respond r).dmemDraw = s.dmemDraw :=
  rfl
@[simp] theorem State.respond_draws (s : State) (r : Response) : (s.respond r).draws = s.draws :=
  rfl
@[simp] theorem State.respond_turns (s : State) (r : Response) : (s.respond r).turns = s.turns :=
  rfl
@[simp] theorem State.respond_response (s : State) (r : Response) : (s.respond r).response = some r :=
  rfl

@[simp] theorem State.writeByte_cmd (s : State) (a : Nat) (v : Byte) : (s.writeByte a v).cmd = s.cmd :=
  rfl
@[simp] theorem State.writeByte_status (s : State) (a : Nat) (v : Byte) : (s.writeByte a v).status = s.status :=
  rfl
@[simp] theorem State.writeByte_errCode (s : State) (a : Nat) (v : Byte) : (s.writeByte a v).errCode = s.errCode :=
  rfl
@[simp] theorem State.writeByte_errInfo (s : State) (a : Nat) (v : Byte) : (s.writeByte a v).errInfo = s.errInfo :=
  rfl
@[simp] theorem State.writeByte_args (s : State) (a : Nat) (v : Byte) : (s.writeByte a v).args = s.args :=
  rfl
@[simp] theorem State.writeByte_results (s : State) (a : Nat) (v : Byte) : (s.writeByte a v).results = s.results :=
  rfl
@[simp] theorem State.writeByte_built (s : State) (a : Nat) (v : Byte) : (s.writeByte a v).built = s.built :=
  rfl
@[simp] theorem State.writeByte_irqEn (s : State) (a : Nat) (v : Byte) : (s.writeByte a v).irqEn = s.irqEn :=
  rfl
@[simp] theorem State.writeByte_param (s : State) (a : Nat) (v : Byte) : (s.writeByte a v).param = s.param :=
  rfl
@[simp] theorem State.writeByte_freq (s : State) (a : Nat) (v : Byte) : (s.writeByte a v).freq = s.freq :=
  rfl
@[simp] theorem State.writeByte_mem (s : State) (a : Nat) (v : Byte) : (s.writeByte a v).mem = Memory.write s.mem a v :=
  rfl
@[simp] theorem State.writeByte_dmemDraw (s : State) (a : Nat) (v : Byte) : (s.writeByte a v).dmemDraw = s.dmemDraw :=
  rfl
@[simp] theorem State.writeByte_draws (s : State) (a : Nat) (v : Byte) : (s.writeByte a v).draws = s.draws :=
  rfl
@[simp] theorem State.writeByte_turns (s : State) (a : Nat) (v : Byte) : (s.writeByte a v).turns = s.turns :=
  rfl
@[simp] theorem State.writeByte_response (s : State) (a : Nat) (v : Byte) : (s.writeByte a v).response = s.response :=
  rfl

/-- Writing bytes changes DMEM and nothing else. -/
theorem State.writeBytes_eq (s : State) (a : Nat) (vs : List Byte) :
    s.writeBytes a vs = { s with mem := (s.writeBytes a vs).mem } := by
  induction vs generalizing s a with
  | nil => rfl
  | cons v vs ih => rw [State.writeBytes, ih]; rfl

@[simp] theorem State.writeBytes_cmd (s : State) (a : Nat) (vs : List Byte) : (s.writeBytes a vs).cmd = s.cmd :=
  by rw [State.writeBytes_eq]
@[simp] theorem State.writeBytes_status (s : State) (a : Nat) (vs : List Byte) : (s.writeBytes a vs).status = s.status :=
  by rw [State.writeBytes_eq]
@[simp] theorem State.writeBytes_errCode (s : State) (a : Nat) (vs : List Byte) : (s.writeBytes a vs).errCode = s.errCode :=
  by rw [State.writeBytes_eq]
@[simp] theorem State.writeBytes_errInfo (s : State) (a : Nat) (vs : List Byte) : (s.writeBytes a vs).errInfo = s.errInfo :=
  by rw [State.writeBytes_eq]
@[simp] theorem State.writeBytes_args (s : State) (a : Nat) (vs : List Byte) : (s.writeBytes a vs).args = s.args :=
  by rw [State.writeBytes_eq]
@[simp] theorem State.writeBytes_results (s : State) (a : Nat) (vs : List Byte) : (s.writeBytes a vs).results = s.results :=
  by rw [State.writeBytes_eq]
@[simp] theorem State.writeBytes_built (s : State) (a : Nat) (vs : List Byte) : (s.writeBytes a vs).built = s.built :=
  by rw [State.writeBytes_eq]
@[simp] theorem State.writeBytes_irqEn (s : State) (a : Nat) (vs : List Byte) : (s.writeBytes a vs).irqEn = s.irqEn :=
  by rw [State.writeBytes_eq]
@[simp] theorem State.writeBytes_param (s : State) (a : Nat) (vs : List Byte) : (s.writeBytes a vs).param = s.param :=
  by rw [State.writeBytes_eq]
@[simp] theorem State.writeBytes_freq (s : State) (a : Nat) (vs : List Byte) : (s.writeBytes a vs).freq = s.freq :=
  by rw [State.writeBytes_eq]
@[simp] theorem State.writeBytes_dmemDraw (s : State) (a : Nat) (vs : List Byte) : (s.writeBytes a vs).dmemDraw = s.dmemDraw :=
  by rw [State.writeBytes_eq]
@[simp] theorem State.writeBytes_draws (s : State) (a : Nat) (vs : List Byte) : (s.writeBytes a vs).draws = s.draws :=
  by rw [State.writeBytes_eq]
@[simp] theorem State.writeBytes_turns (s : State) (a : Nat) (vs : List Byte) : (s.writeBytes a vs).turns = s.turns :=
  by rw [State.writeBytes_eq]
@[simp] theorem State.writeBytes_response (s : State) (a : Nat) (vs : List Byte) : (s.writeBytes a vs).response = s.response :=
  by rw [State.writeBytes_eq]


@[simp] theorem State.forgetWindow_cmd (s : State) (w : Window) : (s.forgetWindow w).cmd = s.cmd :=
  State.writeBytes_cmd s _ _
@[simp] theorem State.forgetWindow_status (s : State) (w : Window) : (s.forgetWindow w).status = s.status :=
  State.writeBytes_status s _ _
@[simp] theorem State.forgetWindow_errCode (s : State) (w : Window) : (s.forgetWindow w).errCode = s.errCode :=
  State.writeBytes_errCode s _ _
@[simp] theorem State.forgetWindow_errInfo (s : State) (w : Window) : (s.forgetWindow w).errInfo = s.errInfo :=
  State.writeBytes_errInfo s _ _
@[simp] theorem State.forgetWindow_args (s : State) (w : Window) : (s.forgetWindow w).args = s.args :=
  State.writeBytes_args s _ _
@[simp] theorem State.forgetWindow_results (s : State) (w : Window) : (s.forgetWindow w).results = s.results :=
  State.writeBytes_results s _ _
@[simp] theorem State.forgetWindow_built (s : State) (w : Window) : (s.forgetWindow w).built = s.built :=
  State.writeBytes_built s _ _
@[simp] theorem State.forgetWindow_irqEn (s : State) (w : Window) : (s.forgetWindow w).irqEn = s.irqEn :=
  State.writeBytes_irqEn s _ _
@[simp] theorem State.forgetWindow_param (s : State) (w : Window) : (s.forgetWindow w).param = s.param :=
  State.writeBytes_param s _ _
@[simp] theorem State.forgetWindow_freq (s : State) (w : Window) : (s.forgetWindow w).freq = s.freq :=
  State.writeBytes_freq s _ _
@[simp] theorem State.forgetWindow_dmemDraw (s : State) (w : Window) : (s.forgetWindow w).dmemDraw = s.dmemDraw :=
  State.writeBytes_dmemDraw s _ _
@[simp] theorem State.forgetWindow_draws (s : State) (w : Window) : (s.forgetWindow w).draws = s.draws :=
  State.writeBytes_draws s _ _
@[simp] theorem State.forgetWindow_turns (s : State) (w : Window) : (s.forgetWindow w).turns = s.turns :=
  State.writeBytes_turns s _ _
@[simp] theorem State.forgetWindow_response (s : State) (w : Window) : (s.forgetWindow w).response = s.response :=
  State.writeBytes_response s _ _

@[simp] theorem State.forgetOutput_cmd (s : State) : (s.forgetOutput).cmd = s.cmd :=
  State.forgetWindow_cmd s _
@[simp] theorem State.forgetOutput_status (s : State) : (s.forgetOutput).status = s.status :=
  State.forgetWindow_status s _
@[simp] theorem State.forgetOutput_errCode (s : State) : (s.forgetOutput).errCode = s.errCode :=
  State.forgetWindow_errCode s _
@[simp] theorem State.forgetOutput_errInfo (s : State) : (s.forgetOutput).errInfo = s.errInfo :=
  State.forgetWindow_errInfo s _
@[simp] theorem State.forgetOutput_args (s : State) : (s.forgetOutput).args = s.args :=
  State.forgetWindow_args s _
@[simp] theorem State.forgetOutput_results (s : State) : (s.forgetOutput).results = Results.unspec s.draws :=
  rfl
@[simp] theorem State.forgetOutput_built (s : State) : (s.forgetOutput).built = s.built :=
  State.forgetWindow_built s _
@[simp] theorem State.forgetOutput_irqEn (s : State) : (s.forgetOutput).irqEn = s.irqEn :=
  State.forgetWindow_irqEn s _
@[simp] theorem State.forgetOutput_param (s : State) : (s.forgetOutput).param = s.param :=
  State.forgetWindow_param s _
@[simp] theorem State.forgetOutput_freq (s : State) : (s.forgetOutput).freq = s.freq :=
  State.forgetWindow_freq s _
@[simp] theorem State.forgetOutput_mem (s : State) : (s.forgetOutput).mem = (s.forgetWindow s.outputWindow).mem :=
  rfl
@[simp] theorem State.forgetOutput_dmemDraw (s : State) : (s.forgetOutput).dmemDraw = s.dmemDraw :=
  State.forgetWindow_dmemDraw s _
@[simp] theorem State.forgetOutput_draws (s : State) : (s.forgetOutput).draws = s.draws + 1 :=
  rfl
@[simp] theorem State.forgetOutput_turns (s : State) : (s.forgetOutput).turns = s.turns :=
  State.forgetWindow_turns s _
@[simp] theorem State.forgetOutput_response (s : State) : (s.forgetOutput).response = s.response :=
  State.forgetWindow_response s _

@[simp] theorem State.raiseRuntime_cmd (s : State) (e : ErrCode) (i : Word) :
    (s.raiseRuntime e i).cmd = s.cmd := by
  simp [State.raiseRuntime]
@[simp] theorem State.raiseRuntime_status (s : State) (e : ErrCode) (i : Word) :
    (s.raiseRuntime e i).status = s.status.fail := by
  simp [State.raiseRuntime]
@[simp] theorem State.raiseRuntime_errCode (s : State) (e : ErrCode) (i : Word) :
    (s.raiseRuntime e i).errCode = e := by
  simp [State.raiseRuntime]
@[simp] theorem State.raiseRuntime_errInfo (s : State) (e : ErrCode) (i : Word) :
    (s.raiseRuntime e i).errInfo = i := by
  simp [State.raiseRuntime]
@[simp] theorem State.raiseRuntime_args (s : State) (e : ErrCode) (i : Word) :
    (s.raiseRuntime e i).args = s.args := by
  simp [State.raiseRuntime]
@[simp] theorem State.raiseRuntime_results (s : State) (e : ErrCode) (i : Word) :
    (s.raiseRuntime e i).results = Results.unspec s.draws := by
  simp [State.raiseRuntime]
@[simp] theorem State.raiseRuntime_built (s : State) (e : ErrCode) (i : Word) :
    (s.raiseRuntime e i).built = s.built := by
  simp [State.raiseRuntime]
@[simp] theorem State.raiseRuntime_irqEn (s : State) (e : ErrCode) (i : Word) :
    (s.raiseRuntime e i).irqEn = s.irqEn := by
  simp [State.raiseRuntime]
@[simp] theorem State.raiseRuntime_param (s : State) (e : ErrCode) (i : Word) :
    (s.raiseRuntime e i).param = s.param := by
  simp [State.raiseRuntime]
@[simp] theorem State.raiseRuntime_freq (s : State) (e : ErrCode) (i : Word) :
    (s.raiseRuntime e i).freq = s.freq := by
  simp [State.raiseRuntime]
@[simp] theorem State.raiseRuntime_mem (s : State) (e : ErrCode) (i : Word) :
    (s.raiseRuntime e i).mem = (s.forgetWindow s.outputWindow).mem := by
  simp [State.raiseRuntime]
@[simp] theorem State.raiseRuntime_dmemDraw (s : State) (e : ErrCode) (i : Word) :
    (s.raiseRuntime e i).dmemDraw = s.dmemDraw := by
  simp [State.raiseRuntime]
@[simp] theorem State.raiseRuntime_draws (s : State) (e : ErrCode) (i : Word) :
    (s.raiseRuntime e i).draws = s.draws + 1 := by
  simp [State.raiseRuntime]
@[simp] theorem State.raiseRuntime_turns (s : State) (e : ErrCode) (i : Word) :
    (s.raiseRuntime e i).turns = s.turns := by
  simp [State.raiseRuntime]
@[simp] theorem State.raiseRuntime_response (s : State) (e : ErrCode) (i : Word) :
    (s.raiseRuntime e i).response = s.response := by
  simp [State.raiseRuntime]

@[simp] theorem State.writeBuilt_cmd (s : State) (b : Built) : (s.writeBuilt b).cmd = s.cmd := rfl
@[simp] theorem State.writeBuilt_status (s : State) (b : Built) : (s.writeBuilt b).status = s.status.validate :=
  rfl
@[simp] theorem State.writeBuilt_errCode (s : State) (b : Built) : (s.writeBuilt b).errCode = s.errCode :=
  rfl
@[simp] theorem State.writeBuilt_errInfo (s : State) (b : Built) : (s.writeBuilt b).errInfo = s.errInfo :=
  rfl
@[simp] theorem State.writeBuilt_args (s : State) (b : Built) : (s.writeBuilt b).args = s.args :=
  rfl
@[simp] theorem State.writeBuilt_results (s : State) (b : Built) : (s.writeBuilt b).results = s.results :=
  rfl
@[simp] theorem State.writeBuilt_built (s : State) (b : Built) : (s.writeBuilt b).built = b := rfl
@[simp] theorem State.writeBuilt_irqEn (s : State) (b : Built) : (s.writeBuilt b).irqEn = s.irqEn :=
  rfl
@[simp] theorem State.writeBuilt_param (s : State) (b : Built) : (s.writeBuilt b).param = s.param :=
  rfl
@[simp] theorem State.writeBuilt_freq (s : State) (b : Built) : (s.writeBuilt b).freq = s.freq :=
  rfl
@[simp] theorem State.writeBuilt_mem (s : State) (b : Built) : (s.writeBuilt b).mem = s.mem := rfl
@[simp] theorem State.writeBuilt_dmemDraw (s : State) (b : Built) : (s.writeBuilt b).dmemDraw = s.dmemDraw :=
  rfl
@[simp] theorem State.writeBuilt_draws (s : State) (b : Built) : (s.writeBuilt b).draws = s.draws :=
  rfl
@[simp] theorem State.writeBuilt_turns (s : State) (b : Built) : (s.writeBuilt b).turns = s.turns :=
  rfl
@[simp] theorem State.writeBuilt_response (s : State) (b : Built) : (s.writeBuilt b).response = s.response :=
  rfl

@[simp] theorem State.dropTable_cmd (s : State) : (s.dropTable).cmd = s.cmd := rfl
@[simp] theorem State.dropTable_status (s : State) : (s.dropTable).status = s.status.invalidate :=
  rfl
@[simp] theorem State.dropTable_errCode (s : State) : (s.dropTable).errCode = s.errCode := rfl
@[simp] theorem State.dropTable_errInfo (s : State) : (s.dropTable).errInfo = s.errInfo := rfl
@[simp] theorem State.dropTable_args (s : State) : (s.dropTable).args = s.args := rfl
@[simp] theorem State.dropTable_results (s : State) : (s.dropTable).results = s.results := rfl
@[simp] theorem State.dropTable_built (s : State) : (s.dropTable).built = s.built := rfl
@[simp] theorem State.dropTable_irqEn (s : State) : (s.dropTable).irqEn = s.irqEn := rfl
@[simp] theorem State.dropTable_param (s : State) : (s.dropTable).param = s.param := rfl
@[simp] theorem State.dropTable_freq (s : State) : (s.dropTable).freq = s.freq := rfl
@[simp] theorem State.dropTable_mem (s : State) : (s.dropTable).mem = s.mem := rfl
@[simp] theorem State.dropTable_dmemDraw (s : State) : (s.dropTable).dmemDraw = s.dmemDraw := rfl
@[simp] theorem State.dropTable_draws (s : State) : (s.dropTable).draws = s.draws := rfl
@[simp] theorem State.dropTable_turns (s : State) : (s.dropTable).turns = s.turns := rfl
@[simp] theorem State.dropTable_response (s : State) : (s.dropTable).response = s.response := rfl

@[simp] theorem State.dropWrite_cmd (s : State) : (s.dropWrite).cmd = s.cmd := rfl
@[simp] theorem State.dropWrite_status (s : State) : (s.dropWrite).status = s.status.violate := rfl
@[simp] theorem State.dropWrite_errCode (s : State) : (s.dropWrite).errCode = s.errCode := rfl
@[simp] theorem State.dropWrite_errInfo (s : State) : (s.dropWrite).errInfo = s.errInfo := rfl
@[simp] theorem State.dropWrite_args (s : State) : (s.dropWrite).args = s.args := rfl
@[simp] theorem State.dropWrite_results (s : State) : (s.dropWrite).results = s.results := rfl
@[simp] theorem State.dropWrite_built (s : State) : (s.dropWrite).built = s.built := rfl
@[simp] theorem State.dropWrite_irqEn (s : State) : (s.dropWrite).irqEn = s.irqEn := rfl
@[simp] theorem State.dropWrite_param (s : State) : (s.dropWrite).param = s.param := rfl
@[simp] theorem State.dropWrite_freq (s : State) : (s.dropWrite).freq = s.freq := rfl
@[simp] theorem State.dropWrite_mem (s : State) : (s.dropWrite).mem = s.mem := rfl
@[simp] theorem State.dropWrite_dmemDraw (s : State) : (s.dropWrite).dmemDraw = s.dmemDraw := rfl
@[simp] theorem State.dropWrite_draws (s : State) : (s.dropWrite).draws = s.draws := rfl
@[simp] theorem State.dropWrite_turns (s : State) : (s.dropWrite).turns = s.turns := rfl
@[simp] theorem State.dropWrite_response (s : State) : (s.dropWrite).response = s.response := rfl

@[simp] theorem State.endTurn_cmd (s : State) (rest : List Turn) : (s.endTurn rest).cmd = s.cmd :=
  rfl
@[simp] theorem State.endTurn_status (s : State) (rest : List Turn) : (s.endTurn rest).status = s.status :=
  rfl
@[simp] theorem State.endTurn_errCode (s : State) (rest : List Turn) : (s.endTurn rest).errCode = s.errCode :=
  rfl
@[simp] theorem State.endTurn_errInfo (s : State) (rest : List Turn) : (s.endTurn rest).errInfo = s.errInfo :=
  rfl
@[simp] theorem State.endTurn_args (s : State) (rest : List Turn) : (s.endTurn rest).args = s.args :=
  rfl
@[simp] theorem State.endTurn_results (s : State) (rest : List Turn) : (s.endTurn rest).results = s.results :=
  rfl
@[simp] theorem State.endTurn_built (s : State) (rest : List Turn) : (s.endTurn rest).built = s.built :=
  rfl
@[simp] theorem State.endTurn_irqEn (s : State) (rest : List Turn) : (s.endTurn rest).irqEn = s.irqEn :=
  rfl
@[simp] theorem State.endTurn_param (s : State) (rest : List Turn) : (s.endTurn rest).param = s.param :=
  rfl
@[simp] theorem State.endTurn_freq (s : State) (rest : List Turn) : (s.endTurn rest).freq = s.freq :=
  rfl
@[simp] theorem State.endTurn_mem (s : State) (rest : List Turn) : (s.endTurn rest).mem = s.mem :=
  rfl
@[simp] theorem State.endTurn_dmemDraw (s : State) (rest : List Turn) : (s.endTurn rest).dmemDraw = s.dmemDraw :=
  rfl
@[simp] theorem State.endTurn_draws (s : State) (rest : List Turn) : (s.endTurn rest).draws = s.draws :=
  rfl
@[simp] theorem State.endTurn_turns (s : State) (rest : List Turn) : (s.endTurn rest).turns = rest :=
  rfl
@[simp] theorem State.endTurn_response (s : State) (rest : List Turn) : (s.endTurn rest).response = s.response :=
  rfl

@[simp] theorem State.respondUnspec_cmd (s : State) : (s.respondUnspec).cmd = s.cmd := rfl
@[simp] theorem State.respondUnspec_status (s : State) : (s.respondUnspec).status = s.status := rfl
@[simp] theorem State.respondUnspec_errCode (s : State) : (s.respondUnspec).errCode = s.errCode :=
  rfl
@[simp] theorem State.respondUnspec_errInfo (s : State) : (s.respondUnspec).errInfo = s.errInfo :=
  rfl
@[simp] theorem State.respondUnspec_args (s : State) : (s.respondUnspec).args = s.args := rfl
@[simp] theorem State.respondUnspec_results (s : State) : (s.respondUnspec).results = s.results :=
  rfl
@[simp] theorem State.respondUnspec_built (s : State) : (s.respondUnspec).built = s.built := rfl
@[simp] theorem State.respondUnspec_irqEn (s : State) : (s.respondUnspec).irqEn = s.irqEn := rfl
@[simp] theorem State.respondUnspec_param (s : State) : (s.respondUnspec).param = s.param := rfl
@[simp] theorem State.respondUnspec_freq (s : State) : (s.respondUnspec).freq = s.freq := rfl
@[simp] theorem State.respondUnspec_mem (s : State) : (s.respondUnspec).mem = s.mem := rfl
@[simp] theorem State.respondUnspec_dmemDraw (s : State) : (s.respondUnspec).dmemDraw = s.dmemDraw :=
  rfl
@[simp] theorem State.respondUnspec_draws (s : State) : (s.respondUnspec).draws = s.draws + 1 :=
  rfl
@[simp] theorem State.respondUnspec_turns (s : State) : (s.respondUnspec).turns = s.turns := rfl
@[simp] theorem State.respondUnspec_response (s : State) : (s.respondUnspec).response = some (.okRead (Config.unspecWord s.draws .readData)) :=
  rfl

@[simp] theorem State.resetOver_cmd (s : State) (m : Memory) (d : Nat) : (s.resetOver m d).cmd = 0#32 :=
  rfl
@[simp] theorem State.resetOver_status (s : State) (m : Memory) (d : Nat) : (s.resetOver m d).status = ⟨false, false, false, false, false⟩ :=
  rfl
@[simp] theorem State.resetOver_errCode (s : State) (m : Memory) (d : Nat) : (s.resetOver m d).errCode = .none :=
  rfl
@[simp] theorem State.resetOver_errInfo (s : State) (m : Memory) (d : Nat) : (s.resetOver m d).errInfo = 0#32 :=
  rfl
@[simp] theorem State.resetOver_args (s : State) (m : Memory) (d : Nat) : (s.resetOver m d).args = ⟨0#32, 0#32, 0#32, 0#32, 0#32⟩ :=
  rfl
@[simp] theorem State.resetOver_results (s : State) (m : Memory) (d : Nat) : (s.resetOver m d).results = ⟨0#32, 0#32, 0#32⟩ :=
  rfl
@[simp] theorem State.resetOver_built (s : State) (m : Memory) (d : Nat) : (s.resetOver m d).built = Built.reset s.draws :=
  rfl
@[simp] theorem State.resetOver_irqEn (s : State) (m : Memory) (d : Nat) : (s.resetOver m d).irqEn = ⟨false, false, false⟩ :=
  rfl
@[simp] theorem State.resetOver_param (s : State) (m : Memory) (d : Nat) : (s.resetOver m d).param = s.param :=
  rfl
@[simp] theorem State.resetOver_freq (s : State) (m : Memory) (d : Nat) : (s.resetOver m d).freq = zeroFreq :=
  rfl
@[simp] theorem State.resetOver_mem (s : State) (m : Memory) (d : Nat) : (s.resetOver m d).mem = m :=
  rfl
@[simp] theorem State.resetOver_dmemDraw (s : State) (m : Memory) (d : Nat) : (s.resetOver m d).dmemDraw = d :=
  rfl
@[simp] theorem State.resetOver_draws (s : State) (m : Memory) (d : Nat) : (s.resetOver m d).draws = s.draws + 1 :=
  rfl
@[simp] theorem State.resetOver_turns (s : State) (m : Memory) (d : Nat) : (s.resetOver m d).turns = s.turns :=
  rfl
@[simp] theorem State.resetOver_response (s : State) (m : Memory) (d : Nat) : (s.resetOver m d).response = s.response :=
  rfl

@[simp] theorem State.writeEncoded_cmd (s : State) (bits : List Bool) :
    (s.writeEncoded bits).cmd = s.cmd :=
  State.writeBytes_cmd s _ _
@[simp] theorem State.writeEncoded_status (s : State) (bits : List Bool) :
    (s.writeEncoded bits).status = s.status :=
  State.writeBytes_status s _ _
@[simp] theorem State.writeEncoded_errCode (s : State) (bits : List Bool) :
    (s.writeEncoded bits).errCode = s.errCode :=
  State.writeBytes_errCode s _ _
@[simp] theorem State.writeEncoded_errInfo (s : State) (bits : List Bool) :
    (s.writeEncoded bits).errInfo = s.errInfo :=
  State.writeBytes_errInfo s _ _
@[simp] theorem State.writeEncoded_args (s : State) (bits : List Bool) :
    (s.writeEncoded bits).args = s.args :=
  State.writeBytes_args s _ _
@[simp] theorem State.writeEncoded_results (s : State) (bits : List Bool) :
    (s.writeEncoded bits).results = ⟨BitVec.ofNat 32 bits.length, BitVec.ofNat 32 (ceil8 bits.length), s.args.len⟩ :=
  rfl
@[simp] theorem State.writeEncoded_built (s : State) (bits : List Bool) :
    (s.writeEncoded bits).built = s.built :=
  State.writeBytes_built s _ _
@[simp] theorem State.writeEncoded_irqEn (s : State) (bits : List Bool) :
    (s.writeEncoded bits).irqEn = s.irqEn :=
  State.writeBytes_irqEn s _ _
@[simp] theorem State.writeEncoded_param (s : State) (bits : List Bool) :
    (s.writeEncoded bits).param = s.param :=
  State.writeBytes_param s _ _
@[simp] theorem State.writeEncoded_freq (s : State) (bits : List Bool) :
    (s.writeEncoded bits).freq = s.freq :=
  State.writeBytes_freq s _ _
@[simp] theorem State.writeEncoded_mem (s : State) (bits : List Bool) :
    (s.writeEncoded bits).mem = (s.writeBytes s.args.dst.toNat (packBytes bits)).mem :=
  rfl
@[simp] theorem State.writeEncoded_dmemDraw (s : State) (bits : List Bool) :
    (s.writeEncoded bits).dmemDraw = s.dmemDraw :=
  State.writeBytes_dmemDraw s _ _
@[simp] theorem State.writeEncoded_draws (s : State) (bits : List Bool) :
    (s.writeEncoded bits).draws = s.draws :=
  State.writeBytes_draws s _ _
@[simp] theorem State.writeEncoded_turns (s : State) (bits : List Bool) :
    (s.writeEncoded bits).turns = s.turns :=
  State.writeBytes_turns s _ _
@[simp] theorem State.writeEncoded_response (s : State) (bits : List Bool) :
    (s.writeEncoded bits).response = s.response :=
  State.writeBytes_response s _ _

@[simp] theorem State.writeDecoded_cmd (s : State) (out : List Byte) :
    (s.writeDecoded out).cmd = s.cmd :=
  State.writeBytes_cmd s _ _
@[simp] theorem State.writeDecoded_status (s : State) (out : List Byte) :
    (s.writeDecoded out).status = s.status :=
  State.writeBytes_status s _ _
@[simp] theorem State.writeDecoded_errCode (s : State) (out : List Byte) :
    (s.writeDecoded out).errCode = s.errCode :=
  State.writeBytes_errCode s _ _
@[simp] theorem State.writeDecoded_errInfo (s : State) (out : List Byte) :
    (s.writeDecoded out).errInfo = s.errInfo :=
  State.writeBytes_errInfo s _ _
@[simp] theorem State.writeDecoded_args (s : State) (out : List Byte) :
    (s.writeDecoded out).args = s.args :=
  State.writeBytes_args s _ _
@[simp] theorem State.writeDecoded_results (s : State) (out : List Byte) :
    (s.writeDecoded out).results = ⟨s.args.nbits, BitVec.ofNat 32 out.length, BitVec.ofNat 32 out.length⟩ :=
  rfl
@[simp] theorem State.writeDecoded_built (s : State) (out : List Byte) :
    (s.writeDecoded out).built = s.built :=
  State.writeBytes_built s _ _
@[simp] theorem State.writeDecoded_irqEn (s : State) (out : List Byte) :
    (s.writeDecoded out).irqEn = s.irqEn :=
  State.writeBytes_irqEn s _ _
@[simp] theorem State.writeDecoded_param (s : State) (out : List Byte) :
    (s.writeDecoded out).param = s.param :=
  State.writeBytes_param s _ _
@[simp] theorem State.writeDecoded_freq (s : State) (out : List Byte) :
    (s.writeDecoded out).freq = s.freq :=
  State.writeBytes_freq s _ _
@[simp] theorem State.writeDecoded_mem (s : State) (out : List Byte) :
    (s.writeDecoded out).mem = (s.writeBytes s.args.dst.toNat out).mem :=
  rfl
@[simp] theorem State.writeDecoded_dmemDraw (s : State) (out : List Byte) :
    (s.writeDecoded out).dmemDraw = s.dmemDraw :=
  State.writeBytes_dmemDraw s _ _
@[simp] theorem State.writeDecoded_draws (s : State) (out : List Byte) :
    (s.writeDecoded out).draws = s.draws :=
  State.writeBytes_draws s _ _
@[simp] theorem State.writeDecoded_turns (s : State) (out : List Byte) :
    (s.writeDecoded out).turns = s.turns :=
  State.writeBytes_turns s _ _
@[simp] theorem State.writeDecoded_response (s : State) (out : List Byte) :
    (s.writeDecoded out).response = s.response :=
  State.writeBytes_response s _ _

/-! ### DMEM_SIZE and DMEM under the updates that do not touch them -/

@[simp] theorem State.issue_dmemSize (s : State) (w : Word) : (s.issue w).dmemSize = s.dmemSize := by
  simp [State.dmemSize]
@[simp] theorem State.succeed_dmemSize (s : State) : (s.succeed).dmemSize = s.dmemSize := by
  simp [State.dmemSize]
@[simp] theorem State.raise_dmemSize (s : State) (e : ErrCode) (i : Word) : (s.raise e i).dmemSize = s.dmemSize := by
  simp [State.dmemSize]
@[simp] theorem State.acknowledge_dmemSize (s : State) (v : Word) : (s.acknowledge v).dmemSize = s.dmemSize := by
  simp [State.dmemSize]
@[simp] theorem State.setFreq_dmemSize (s : State) (f : SymTable Word) : (s.setFreq f).dmemSize = s.dmemSize := by
  simp [State.dmemSize]
@[simp] theorem State.respond_dmemSize (s : State) (r : Response) : (s.respond r).dmemSize = s.dmemSize := by
  simp [State.dmemSize]
@[simp] theorem State.writeByte_dmemSize (s : State) (a : Nat) (v : Byte) : (s.writeByte a v).dmemSize = s.dmemSize := by
  simp [State.dmemSize]
@[simp] theorem State.writeBuilt_dmemSize (s : State) (b : Built) : (s.writeBuilt b).dmemSize = s.dmemSize := by
  simp [State.dmemSize]
@[simp] theorem State.dropTable_dmemSize (s : State) : (s.dropTable).dmemSize = s.dmemSize := by
  simp [State.dmemSize]
@[simp] theorem State.dropWrite_dmemSize (s : State) : (s.dropWrite).dmemSize = s.dmemSize := by
  simp [State.dmemSize]
@[simp] theorem State.endTurn_dmemSize (s : State) (rest : List Turn) : (s.endTurn rest).dmemSize = s.dmemSize := by
  simp [State.dmemSize]
@[simp] theorem State.respondUnspec_dmemSize (s : State) : (s.respondUnspec).dmemSize = s.dmemSize := by
  simp [State.dmemSize]
@[simp] theorem State.resetOver_dmemSize (s : State) (m : Memory) (d : Nat) : (s.resetOver m d).dmemSize = s.dmemSize := by
  simp [State.dmemSize]
@[simp] theorem State.writeEncoded_dmemSize (s : State) (bits : List Bool) : (s.writeEncoded bits).dmemSize = s.dmemSize := by
  simp [State.dmemSize]
@[simp] theorem State.writeDecoded_dmemSize (s : State) (out : List Byte) : (s.writeDecoded out).dmemSize = s.dmemSize := by
  simp [State.dmemSize]
@[simp] theorem State.writeBytes_dmemSize (s : State) (a : Nat) (vs : List Byte) : (s.writeBytes a vs).dmemSize = s.dmemSize := by
  simp [State.dmemSize]
@[simp] theorem State.forgetWindow_dmemSize (s : State) (w : Window) : (s.forgetWindow w).dmemSize = s.dmemSize := by
  simp [State.dmemSize]
@[simp] theorem State.forgetOutput_dmemSize (s : State) : (s.forgetOutput).dmemSize = s.dmemSize := by
  simp [State.dmemSize]
@[simp] theorem State.raiseRuntime_dmemSize (s : State) (e : ErrCode) (i : Word) : (s.raiseRuntime e i).dmemSize = s.dmemSize := by
  simp [State.dmemSize]

@[simp] theorem State.issue_readByte (s : State) (w : Word) (k : Nat) :
    (s.issue w).readByte k = s.readByte k := rfl
@[simp] theorem State.succeed_readByte (s : State) (k : Nat) :
    (s.succeed).readByte k = s.readByte k := rfl
@[simp] theorem State.raise_readByte (s : State) (e : ErrCode) (i : Word) (k : Nat) :
    (s.raise e i).readByte k = s.readByte k := rfl
@[simp] theorem State.acknowledge_readByte (s : State) (v : Word) (k : Nat) :
    (s.acknowledge v).readByte k = s.readByte k := rfl
@[simp] theorem State.setFreq_readByte (s : State) (f : SymTable Word) (k : Nat) :
    (s.setFreq f).readByte k = s.readByte k := rfl
@[simp] theorem State.respond_readByte (s : State) (r : Response) (k : Nat) :
    (s.respond r).readByte k = s.readByte k := rfl
@[simp] theorem State.writeBuilt_readByte (s : State) (b : Built) (k : Nat) :
    (s.writeBuilt b).readByte k = s.readByte k := rfl
@[simp] theorem State.dropTable_readByte (s : State) (k : Nat) :
    (s.dropTable).readByte k = s.readByte k := rfl
@[simp] theorem State.dropWrite_readByte (s : State) (k : Nat) :
    (s.dropWrite).readByte k = s.readByte k := rfl
@[simp] theorem State.endTurn_readByte (s : State) (rest : List Turn) (k : Nat) :
    (s.endTurn rest).readByte k = s.readByte k := rfl
@[simp] theorem State.respondUnspec_readByte (s : State) (k : Nat) :
    (s.respondUnspec).readByte k = s.readByte k := rfl

end Sys2Proof.Machine
end

