-- ==== Sys2Proof/Laws/Memory.lean ====
section
/-! SUPPORT. Laws of DMEM: a read after a write, what a write leaves alone, the canonical form, and the
same for the operations built on them. -/

namespace Sys2Proof.Machine

/-! ### One byte -/

theorem Memory.find_write (m : Memory) (a k : Nat) (v : Byte) (h : Memory.wf m) :
    Memory.find (Memory.write m a v) k = if k = a then some v else Memory.find m k := by
  induction m with
  | nil => simp [Memory.write, Memory.find]
  | cons c m ih =>
    obtain ⟨a', b⟩ := c
    obtain ⟨hc, hm⟩ := List.pairwise_cons.1 h
    simp only [Memory.write]
    split
    · simp [Memory.find]
    · split
      · subst a'
        by_cases hk : k = a <;> simp [Memory.find, hk]
      · rename_i h1 h2
        simp only [Memory.find, ih hm]
        by_cases hk : k = a'
        · simp [hk, Ne.symm h2]
        · simp [hk]

/-- Reading needs no canonical form: a byte written is read back whatever the rest of the list is. -/
theorem Memory.find_write_self (m : Memory) (a : Nat) (v : Byte) :
    Memory.find (Memory.write m a v) a = some v := by
  induction m with
  | nil => simp [Memory.write, Memory.find]
  | cons c m ih =>
    obtain ⟨a', b⟩ := c
    simp only [Memory.write]
    split
    · simp [Memory.find]
    · split
      · simp [Memory.find]
      · rename_i h1 h2
        simp [Memory.find, h2, ih]

/-- A write leaves every other address alone, whatever the list is. -/
theorem Memory.find_write_other (m : Memory) (a k : Nat) (v : Byte) (h : k ≠ a) :
    Memory.find (Memory.write m a v) k = Memory.find m k := by
  induction m with
  | nil => simp [Memory.write, Memory.find, h]
  | cons c m ih =>
    obtain ⟨a', b⟩ := c
    simp only [Memory.write]
    split
    · simp [Memory.find, h]
    · split
      · subst a'; simp [Memory.find, h]
      · simp [Memory.find, ih]

theorem Memory.mem_write (m : Memory) (a : Nat) (v : Byte) (c : Host.Cell) :
    c ∈ Memory.write m a v → c = (a, v) ∨ c ∈ m := by
  induction m with
  | nil => simp [Memory.write]
  | cons d m ih =>
    obtain ⟨a', b⟩ := d
    simp only [Memory.write]
    split
    · simp
    · split
      · simp only [List.mem_cons]
        rintro (h | h)
        · exact .inl h
        · exact .inr (.inr h)
      · simp only [List.mem_cons]
        rintro (h | h)
        · exact .inr (.inl h)
        · rcases ih h with h | h
          · exact .inl h
          · exact .inr (.inr h)

/-- A write keeps the canonical form. -/
theorem Memory.wf_write (m : Memory) (a : Nat) (v : Byte) (h : Memory.wf m) :
    Memory.wf (Memory.write m a v) := by
  induction m with
  | nil => simp [Memory.write, Memory.wf]
  | cons d m ih =>
    obtain ⟨a', b⟩ := d
    obtain ⟨hd, hm⟩ := List.pairwise_cons.1 h
    simp only [Memory.write]
    split
    · rename_i h1
      refine List.pairwise_cons.2 ⟨?_, h⟩
      intro c hc
      rcases List.mem_cons.1 hc with rfl | hc
      · exact h1
      · exact Nat.lt_trans h1 (hd c hc)
    · split
      · subst a'
        exact List.pairwise_cons.2 ⟨hd, hm⟩
      · rename_i h1 h2
        refine List.pairwise_cons.2 ⟨?_, ih hm⟩
        intro c hc
        rcases Memory.mem_write m a v c hc with rfl | hc
        · exact Nat.lt_of_le_of_ne (Nat.le_of_not_lt h1) (Ne.symm h2)
        · exact hd c hc

theorem State.readByte_writeByte (s : State) (a k : Nat) (v : Byte) :
    (s.writeByte a v).readByte k = if k = a then v else s.readByte k := by
  by_cases h : k = a
  · subst h; simp [State.readByte, Memory.find_write_self]
  · simp [State.readByte, Memory.find_write_other _ _ _ _ h, h, State.unwrittenByte]

/-- A read depends on DMEM's written bytes and on the draw of the others only. -/
theorem State.readByte_congr {s t : State} (hm : t.mem = s.mem) (hd : t.dmemDraw = s.dmemDraw)
    (a : Nat) : t.readByte a = s.readByte a := by
  simp [State.readByte, State.unwrittenByte, hm, hd]

/-! ### Several bytes -/

/-- What every address reads as after bytes are written from `a` up. -/
theorem State.readByte_writeBytes (s : State) (a : Nat) (vs : List Byte) (k : Nat) :
    (s.writeBytes a vs).readByte k =
      if h : a ≤ k ∧ k < a + vs.length then vs[k - a]'(by omega) else s.readByte k := by
  induction vs generalizing s a with
  | nil => simp [State.writeBytes, show ¬(a ≤ k ∧ k < a) by omega]
  | cons v vs ih =>
    rw [State.writeBytes, ih]
    by_cases h1 : a + 1 ≤ k ∧ k < a + 1 + vs.length
    · have h2 : a ≤ k ∧ k < a + (v :: vs).length := by simp; omega
      rw [dif_pos h1, dif_pos h2]
      have h3 : k - a = (k - (a + 1)) + 1 := by omega
      simp [h3]
    · rw [dif_neg h1, State.readByte_writeByte]
      by_cases h2 : k = a
      · subst h2; simp
      · have h3 : ¬(a ≤ k ∧ k < a + (v :: vs).length) := by simp; omega
        rw [dif_neg h3, if_neg h2]

/-- A byte inside what was written. -/
theorem State.readByte_writeBytes_at (s : State) (a : Nat) (vs : List Byte) (q : Nat)
    (h : q < vs.length) : (s.writeBytes a vs).readByte (a + q) = vs[q] := by
  rw [State.readByte_writeBytes, dif_pos ⟨by omega, by omega⟩]
  simp

/-- A byte outside what was written. -/
theorem State.readByte_writeBytes_outside (s : State) (a : Nat) (vs : List Byte) (k : Nat)
    (h : k < a ∨ a + vs.length ≤ k) : (s.writeBytes a vs).readByte k = s.readByte k := by
  rw [State.readByte_writeBytes, dif_neg (by omega)]

/-- Writing bytes below DMEM_SIZE keeps DMEM in its canonical form and in its address space. -/
theorem State.writeBytes_mem_legal (s : State) (a : Nat) (vs : List Byte) (size : Nat)
    (hw : Memory.wf s.mem) (hb : ∀ c ∈ s.mem, c.1 < size) (h : vs ≠ [] → a + vs.length ≤ size) :
    Memory.wf (s.writeBytes a vs).mem ∧ ∀ c ∈ (s.writeBytes a vs).mem, c.1 < size := by
  induction vs generalizing s a with
  | nil => exact ⟨hw, hb⟩
  | cons v vs ih =>
    have h' : a + (v :: vs).length ≤ size := h (by simp)
    simp only [List.length_cons] at h'
    rw [State.writeBytes]
    refine ih _ _ (Memory.wf_write _ _ _ hw) ?_ (fun _ => by omega)
    intro c hc
    rcases Memory.mem_write _ _ _ _ hc with rfl | hc
    · show a < size; omega
    · exact hb c hc

/-! ### Windows -/

@[simp] theorem State.length_readBytes (s : State) (w : Window) : (s.readBytes w).length = w.len := by
  simp [State.readBytes]

theorem State.getElem_readBytes (s : State) (w : Window) (i : Nat) (h : i < (s.readBytes w).length) :
    (s.readBytes w)[i] = s.readByte (w.base + i) := by
  simp [State.readBytes]

/-- Two states that agree on the bytes of a window read the same bytes from it. -/
theorem State.readBytes_congr {s t : State} {v w : Window} (hl : v.len = w.len)
    (h : ∀ i, i < w.len → s.readByte (v.base + i) = t.readByte (w.base + i)) :
    s.readBytes v = t.readBytes w := by
  apply List.ext_getElem
  · simp [hl]
  · intro i h1 h2
    simp only [State.length_readBytes] at h2
    simp [State.getElem_readBytes, h i h2]

@[simp] theorem State.length_streamBits (s : State) (base n : Nat) : (s.streamBits base n).length = n := by
  simp [State.streamBits]

theorem State.getElem_streamBits (s : State) (base n j : Nat) (h : j < (s.streamBits base n).length) :
    (s.streamBits base n)[j] = streamBit (s.readByte (base + j / 8)) j := by
  simp [State.streamBits]

/-- The stream read where a bit string was packed is that bit string (R66, R141, R161). -/
theorem State.streamBits_of_packed (s : State) (base : Nat) (bits : List Bool)
    (h : ∀ q, q < ceil8 bits.length → s.readByte (base + q) = packByte bits q) :
    s.streamBits base bits.length = bits := by
  apply List.ext_getElem
  · simp
  · intro j h1 h2
    rw [State.getElem_streamBits, h _ (div8_lt_ceil8 h2), streamBit_packByte]
    simp [List.getD_eq_getElem?_getD, h2]

@[simp] theorem State.length_unspecBytes (s : State) (w : Window) :
    (s.unspecBytes w).length = min w.len (s.dmemSize - w.base) := by
  simp [State.unspecBytes]

/-- What every address reads as after a window is made UNSPEC: a free byte inside the window and inside
DMEM, the old byte everywhere else. -/
theorem State.readByte_forgetWindow (s : State) (w : Window) (k : Nat) :
    (s.forgetWindow w).readByte k =
      if w.has k ∧ k < s.dmemSize then Config.unspecByte s.draws (.dmem k) else s.readByte k := by
  rw [State.forgetWindow, State.readByte_writeBytes]
  simp only [State.length_unspecBytes]
  by_cases h : w.has k ∧ k < s.dmemSize
  · obtain ⟨⟨h1, h2⟩, h3⟩ := h
    rw [dif_pos (by omega), if_pos ⟨⟨h1, h2⟩, h3⟩]
    simp [State.unspecBytes, Nat.add_sub_cancel' h1]
  · rw [dif_neg (by simp only [Window.has] at h; omega), if_neg h]

theorem State.forgetWindow_mem_legal (s : State) (w : Window) (hw : Memory.wf s.mem)
    (hb : ∀ c ∈ s.mem, c.1 < s.dmemSize) :
    Memory.wf (s.forgetWindow w).mem ∧ ∀ c ∈ (s.forgetWindow w).mem, c.1 < s.dmemSize := by
  refine State.writeBytes_mem_legal s _ _ _ hw hb ?_
  intro hne
  have := List.length_pos_iff.2 hne
  simp only [State.length_unspecBytes] at this ⊢
  omega

/-! ### Updates that write DMEM -/

@[simp] theorem State.raiseRuntime_readByte (s : State) (e : ErrCode) (i : Word) (k : Nat) :
    (s.raiseRuntime e i).readByte k =
      if s.outputWindow.has k ∧ k < s.dmemSize then Config.unspecByte s.draws (.dmem k)
      else s.readByte k := by
  rw [← State.readByte_forgetWindow]
  exact State.readByte_congr (by simp) (by simp) k

theorem State.writeEncoded_readByte (s : State) (bits : List Bool) (k : Nat) :
    (s.writeEncoded bits).readByte k = (s.writeBytes s.args.dst.toNat (packBytes bits)).readByte k :=
  State.readByte_congr (by simp) (by simp) k

theorem State.writeDecoded_readByte (s : State) (out : List Byte) (k : Nat) :
    (s.writeDecoded out).readByte k = (s.writeBytes s.args.dst.toNat out).readByte k :=
  State.readByte_congr (by simp) (by simp) k

end Sys2Proof.Machine
end

