-- ==== Sys2Proof/Laws/Command.lean ====
section
/-! SUPPORT. Laws of the command word (R83, R84) and of the soft reset (R232): the decoder as a choice by
number, when an output is pending, and what DMEM holds after a soft reset. -/

namespace Sys2Proof

/-- R84 on the word as a number: everything the decoder can answer. -/
theorem decode_eq (w : Word) : decode w =
    if 0x100 ≤ w.toNat then .error .reservedBits
    else match w.toNat with
      | 0 => .ok .nop | 1 => .ok .clrf | 2 => .ok .scan | 3 => .ok .build | 4 => .ok .encode
      | 5 => .ok .decode | _ => .error .reservedOpcode := by
  have hr : reservedField w = 0#24 ↔ ¬0x100 ≤ w.toNat := by
    rw [reservedField, ← BitVec.toNat_inj, BitVec.extractLsb'_toNat, Nat.shiftRight_eq_div_pow]
    have := w.isLt
    simp only [BitVec.toNat_zero]
    omega
  by_cases h : 0x100 ≤ w.toNat
  · rw [if_pos h, decode, if_neg (by rw [hr]; omega)]
  · have hop : (opcodeField w).toNat = w.toNat := by
      rw [opcodeField, BitVec.extractLsb'_toNat, Nat.shiftRight_zero, Nat.mod_eq_of_lt]
      omega
    rw [if_neg h, decode, if_pos (hr.2 h)]
    simp only [opcodeInstr, hop]
    split <;> split at * <;> simp_all

namespace Machine

/-- R232: the output of a command is pending exactly while a legal ENCODE or DECODE word is. -/
theorem State.outputPending_iff (s : State) :
    s.outputPending = true ↔ s.status.busy = true ∧ (s.cmd = 0x4#32 ∨ s.cmd = 0x5#32) := by
  rw [State.outputPending, Bool.and_eq_true, decode_eq]
  refine and_congr_right fun _ => ?_
  simp only [← BitVec.toNat_inj]
  by_cases h : 0x100 ≤ s.cmd.toNat
  · simp [h]
    omega
  · simp only [h, if_false]
    split <;> split at * <;> simp_all

/-- R232: every DMEM byte after a soft reset. -/
theorem State.softReset_readByte (s : State) (a : Nat) :
    s.softReset.readByte a =
      if s.outputPending = true ∧ s.outputWindow.has a ∧ a < s.dmemSize
      then Config.unspecByte s.draws (.dmem a) else s.readByte a := by
  by_cases h : s.outputPending = true
  · have : s.softReset.readByte a = (s.forgetWindow s.outputWindow).readByte a :=
      State.readByte_congr (by simp [State.softReset, h]) (by simp [State.softReset]) a
    rw [this, State.readByte_forgetWindow]
    simp only [h, true_and]
  · have : s.softReset.readByte a = s.readByte a :=
      State.readByte_congr (by simp [State.softReset, h]) (by simp [State.softReset]) a
    rw [this, if_neg fun hc => h hc.1]

/-- A soft reset keeps DMEM's canonical form and address space. -/
theorem State.softReset_mem_legal (s : State) (hw : Memory.wf s.mem)
    (hb : ∀ c ∈ s.mem, c.1 < s.dmemSize) :
    Memory.wf s.softReset.mem ∧ ∀ c ∈ s.softReset.mem, c.1 < s.dmemSize := by
  have he : s.softReset.mem =
      if s.outputPending then (s.forgetWindow s.outputWindow).mem else s.mem := rfl
  rw [he]
  split
  · exact State.forgetWindow_mem_legal s _ hw hb
  · exact ⟨hw, hb⟩

end Machine

end Sys2Proof
end

