-- ==== Sys2Proof/Laws/Encoder.lean ====
section
/-! SUPPORT. Laws of the encoder: when ENCODE's loop succeeds and with which bits, and at which input
byte it stops otherwise (R140, R142, R144). -/

namespace Sys2Proof.Machine

@[simp] theorem Built.codesOf_nil (b : Built) : b.codesOf [] = [] := rfl

@[simp] theorem Built.codesOf_cons (b : Built) (s : Byte) (rest : List Byte) :
    b.codesOf (s :: rest) = b.codeOf s ++ b.codesOf rest := rfl

theorem Built.codesOf_append (b : Built) (u v : List Byte) :
    b.codesOf (u ++ v) = b.codesOf u ++ b.codesOf v := by
  simp [Built.codesOf]

/-- R144: the number of bits is the sum of the code lengths. -/
theorem Built.length_codesOf (b : Built) (input : List Byte) :
    (b.codesOf input).length = (input.map b.lenOf).sum := by
  induction input with
  | nil => rfl
  | cons s rest ih => simp [ih]

/-- A part of an input whose symbols all have codes and fit is passed over. -/
theorem encodeFrom_append (b : Built) (dcap i : Nat) (bits : List Bool) (u v : List Byte)
    (hcode : ∀ s ∈ u, b.lenOf s ≠ 0) (hfit : bits.length + (b.codesOf u).length ≤ 8 * dcap) :
    encodeFrom b dcap i bits (u ++ v) =
      encodeFrom b dcap (i + u.length) (bits ++ b.codesOf u) v := by
  induction u generalizing i bits with
  | nil => simp
  | cons s u ih =>
    simp only [Built.codesOf_cons, List.length_append, length_codeOf] at hfit
    have h1 : b.lenOf s ≠ 0 := hcode s (by simp)
    have h2 : ¬8 * dcap < bits.length + b.lenOf s := by omega
    rw [List.cons_append, encodeFrom, if_neg h1, if_neg h2,
      ih _ _ (fun r hr => hcode r (by simp [hr])) (by simp; omega)]
    simp [Nat.add_assoc, Nat.add_comm 1]

/-- ENCODE's loop succeeds when every symbol has a code and the whole stream fits. -/
theorem encodeFrom_ok (b : Built) (dcap : Nat) (input : List Byte)
    (hcode : ∀ s ∈ input, b.lenOf s ≠ 0) (hfit : (b.codesOf input).length ≤ 8 * dcap) :
    encodeFrom b dcap 0 [] input = .ok (b.codesOf input) := by
  have := encodeFrom_append b dcap 0 [] input [] hcode (by simpa using hfit)
  simpa [encodeFrom] using this

/-- At the first symbol without a code, everything before it having fitted, ENCODE's loop stops with
NO_CODE and its offset (R142). -/
theorem encodeFrom_noCode (b : Built) (dcap : Nat) (u v : List Byte) (s : Byte)
    (hcode : ∀ r ∈ u, b.lenOf r ≠ 0) (hfit : (b.codesOf u).length ≤ 8 * dcap)
    (hs : b.lenOf s = 0) :
    encodeFrom b dcap 0 [] (u ++ s :: v) = .error (.noCode, u.length) := by
  rw [encodeFrom_append b dcap 0 [] u _ hcode (by simpa using hfit), encodeFrom, if_pos hs]
  simp

/-- At the first symbol whose code passes the capacity, everything before it having had a code and
fitted, ENCODE's loop stops with DST_OVERFLOW and its offset. -/
theorem encodeFrom_dstOverflow (b : Built) (dcap : Nat) (u v : List Byte) (s : Byte)
    (hcode : ∀ r ∈ u, b.lenOf r ≠ 0) (hfit : (b.codesOf u).length ≤ 8 * dcap)
    (hs : b.lenOf s ≠ 0) (hover : 8 * dcap < (b.codesOf u).length + b.lenOf s) :
    encodeFrom b dcap 0 [] (u ++ s :: v) = .error (.dstOverflow, u.length) := by
  rw [encodeFrom_append b dcap 0 [] u _ hcode (by simpa using hfit), encodeFrom, if_neg hs,
    if_pos (by simpa using hover)]
  simp

/-- Everything ENCODE's loop can do: all symbols have codes and all fit, or it stops at the first
symbol of which one of the two fails. -/
theorem encodeFrom_cases (b : Built) (dcap : Nat) (input : List Byte) :
    ((∀ s ∈ input, b.lenOf s ≠ 0) ∧ (b.codesOf input).length ≤ 8 * dcap ∧
      encodeFrom b dcap 0 [] input = .ok (b.codesOf input)) ∨
    ∃ u s v, input = u ++ s :: v ∧ (∀ r ∈ u, b.lenOf r ≠ 0) ∧ (b.codesOf u).length ≤ 8 * dcap ∧
      ((b.lenOf s = 0 ∧ encodeFrom b dcap 0 [] input = .error (.noCode, u.length)) ∨
        (b.lenOf s ≠ 0 ∧ 8 * dcap < (b.codesOf u).length + b.lenOf s ∧
          encodeFrom b dcap 0 [] input = .error (.dstOverflow, u.length))) := by
  suffices h : ∀ u v, input = u ++ v → (∀ r ∈ u, b.lenOf r ≠ 0) →
      (b.codesOf u).length ≤ 8 * dcap → ((∀ s ∈ input, b.lenOf s ≠ 0) ∧
        (b.codesOf input).length ≤ 8 * dcap) ∨ ∃ u s v, input = u ++ s :: v ∧
        (∀ r ∈ u, b.lenOf r ≠ 0) ∧ (b.codesOf u).length ≤ 8 * dcap ∧
        (b.lenOf s = 0 ∨ (b.lenOf s ≠ 0 ∧ 8 * dcap < (b.codesOf u).length + b.lenOf s)) by
    rcases h [] input rfl (by simp) (by simp) with ⟨h1, h2⟩ | ⟨u, s, v, rfl, h1, h2, h3⟩
    · exact .inl ⟨h1, h2, encodeFrom_ok b dcap input h1 h2⟩
    · refine .inr ⟨u, s, v, rfl, h1, h2, ?_⟩
      rcases h3 with h3 | ⟨h3, h4⟩
      · exact .inl ⟨h3, encodeFrom_noCode b dcap u v s h1 h2 h3⟩
      · exact .inr ⟨h3, h4, encodeFrom_dstOverflow b dcap u v s h1 h2 h3 h4⟩
  intro u v huv hu hfit
  induction v generalizing u with
  | nil =>
    rw [List.append_nil] at huv
    subst huv
    exact .inl ⟨hu, hfit⟩
  | cons s v ih =>
    by_cases hs : b.lenOf s = 0
    · exact .inr ⟨u, s, v, huv, hu, hfit, .inl hs⟩
    · by_cases ho : 8 * dcap < (b.codesOf u).length + b.lenOf s
      · exact .inr ⟨u, s, v, huv, hu, hfit, .inr ⟨hs, ho⟩⟩
      · refine ih (u ++ [s]) (by simpa using huv) ?_ ?_
        · intro r hr
          rcases List.mem_append.1 hr with hr | hr
          · exact hu r hr
          · rw [List.mem_singleton.1 hr]; exact hs
        · simp [Built.codesOf_append]; omega

/-! ### The up-front checks -/

/-- No up-front error (R202): the table is valid, both windows are in range, and they do not overlap. -/
theorem State.upFrontError_none (s : State) (w : Window) :
    s.upFrontError w = none ↔ s.status.tableValid = true ∧ w.inRange s.dmemSize ∧
      s.outputWindow.inRange s.dmemSize ∧ ¬w.overlaps s.outputWindow := by
  unfold State.upFrontError
  cases s.status.tableValid <;> simp
  split <;> rename_i h1
  · simp; omega
  · split <;> rename_i h2
    · simp; omega
    · simp [Nat.le_of_not_lt h1, Nat.le_of_not_lt h2]

/-- Every up-front error is one of four, and not NONE. -/
theorem State.upFrontError_some (s : State) (w : Window) (e : ErrCode) (i : Word)
    (h : s.upFrontError w = some (e, i)) :
    (e = .noTable ∧ i = 0#32) ∨ (e = .range ∧ i = 0#32) ∨ (e = .range ∧ i = 1#32) ∨
      (e = .overlap ∧ i = 0#32) := by
  unfold State.upFrontError at h
  split at h
  · simp_all
  · split at h
    · simp_all
    · split at h
      · simp_all
      · split at h <;> simp_all

end Sys2Proof.Machine
end

