-- ==== Sys2Proof/Laws/Decoder.lean ====
section
/-! SUPPORT. Laws of the decoder: what DECODE's walk does on a code, on a sequence of codes, and on
bits that are none (R160 to R166). -/

namespace Sys2Proof.Machine

/-- Running over two parts of a stream is running over the first and then over the second. -/
theorem Walk.run_append (b : Built) (dcap j : Nat) (w : Walk) (u v : List Bool) :
    Walk.run b dcap j w (u ++ v) =
      match Walk.run b dcap j w u with
      | .error e => .error e
      | .ok w' => Walk.run b dcap (j + u.length) w' v := by
  induction u generalizing j w with
  | nil => simp [Walk.run]
  | cons bit u ih =>
    rw [List.cons_append, Walk.run, Walk.run]
    cases h : w.step b dcap j bit with
    | error e => rfl
    | ok w' =>
      simp only [ih, List.length_cons]
      rw [Nat.add_assoc, Nat.add_comm 1]

/-- With at least two symbols, a spelled code emits its symbol at its last bit (R162, R166). -/
theorem Walk.run_spells (b : Built) (dcap : Nat) (bits : List Bool) (sym : Byte) (j : Nat) (w : Walk)
    (h0 : b.alpha ≠ 0#9) (h1 : b.alpha ≠ 1#9) (hs : b.spells w.pos bits sym) :
    Walk.run b dcap j w bits =
      if w.out.length = dcap then .error (.dstOverflow, j + bits.length - 1)
      else .ok { out := w.out ++ [sym], pos := b.rootIndex, start := j + bits.length } := by
  induction bits generalizing j w with
  | nil => simp [Built.spells] at hs
  | cons bit rest ih =>
    cases rest with
    | nil =>
      obtain ⟨hl, hsym⟩ := hs
      by_cases hd : w.out.length = dcap <;> simp [Walk.run, Walk.step, h0, h1, hl, hsym, Walk.emit, hd]
    | cons bit' rest =>
      obtain ⟨hl, hs⟩ := hs
      rw [Walk.run]
      simp only [Walk.step, h0, h1, if_false, hl, Bool.false_eq_true]
      rw [ih (j + 1) { w with pos := b.child w.pos bit } hs]
      have e1 : j + 1 + (bit' :: rest).length = j + (bit :: bit' :: rest).length := by
        simp; omega
      rw [e1]

/-- With one symbol, a 0 bit emits it and a 1 bit is BAD_BIT (R163). -/
theorem Walk.step_single (b : Built) (dcap j : Nat) (w : Walk) (bit : Bool) (h : b.alpha = 1#9) :
    w.step b dcap j bit =
      if bit then .error (.badBit, j) else w.emit b dcap j (slot b.nodeInfo b.rootIndex).symbol := by
  simp [Walk.step, h]

/-- What a code table and arena must agree on for DECODE to undo ENCODE on an input (R127, R163): with
one symbol its code is the bit 0 and the root is its leaf, with more each code is spelled by the
arena's links from the root. -/
def Built.readsBack (b : Built) (sym : Byte) : Prop :=
  b.alpha ≠ 0#9 ∧
    if b.alpha = 1#9 then b.codeOf sym = [false] ∧ (slot b.nodeInfo b.rootIndex).symbol = sym
    else b.spells b.rootIndex (b.codeOf sym) sym

/-- One symbol's code, read from the root, emits that symbol and returns to the root. -/
theorem Walk.run_codeOf (b : Built) (dcap j : Nat) (w : Walk) (sym : Byte) (hw : w.pos = b.rootIndex)
    (hr : b.readsBack sym) :
    Walk.run b dcap j w (b.codeOf sym) =
      if w.out.length = dcap then .error (.dstOverflow, j + (b.codeOf sym).length - 1)
      else .ok { out := w.out ++ [sym], pos := b.rootIndex, start := j + (b.codeOf sym).length } := by
  obtain ⟨h0, h⟩ := hr
  by_cases h1 : b.alpha = 1#9
  · rw [if_pos h1] at h
    obtain ⟨hc, hsym⟩ := h
    rw [hc]
    by_cases hd : w.out.length = dcap <;>
      simp [Walk.run, Walk.step_single b dcap j w false h1, Walk.emit, hsym, hd]
  · rw [if_neg h1] at h
    exact Walk.run_spells b dcap _ sym j w h0 h1 (hw ▸ h)

/-- The codes of an input, read from the root, emit that input, as long as it fits; the next code starts
at the bit after them. -/
theorem Walk.run_codesOf (b : Built) (dcap j : Nat) (w : Walk) (input : List Byte)
    (hw : w.pos = b.rootIndex) (hj : w.start = j) (hr : ∀ s ∈ input, b.readsBack s)
    (hfit : w.out.length + input.length ≤ dcap) :
    Walk.run b dcap j w (b.codesOf input) =
      .ok { out := w.out ++ input, pos := b.rootIndex, start := j + (b.codesOf input).length } := by
  induction input generalizing j w with
  | nil =>
    rw [Built.codesOf_nil, Walk.run, List.append_nil, ← hw, List.length_nil, Nat.add_zero, ← hj]
  | cons s rest ih =>
    simp only [List.length_cons] at hfit
    rw [Built.codesOf_cons, Walk.run_append,
      Walk.run_codeOf b dcap j w s hw (hr s (by simp)), if_neg (by omega)]
    have h := ih (j + (b.codeOf s).length)
      { out := w.out ++ [s], pos := b.rootIndex, start := j + (b.codeOf s).length } rfl rfl
      (fun r hr' => hr r (by simp [hr'])) (by simp; omega)
    simp only [h, List.append_assoc, List.singleton_append, List.length_append, Nat.add_assoc]

/-- DECODE's walk over the codes of an input that fits gives the input back. -/
theorem decodeStream_codesOf (b : Built) (dcap : Nat) (input : List Byte)
    (hr : ∀ s ∈ input, b.readsBack s) (hfit : input.length ≤ dcap) :
    decodeStream b dcap (b.codesOf input) = .ok input := by
  rw [decodeStream, Walk.run_codesOf b dcap 0 _ input rfl rfl hr (by simpa using hfit)]
  simp

/-- R164: with an empty tree the first bit is BAD_BIT. -/
theorem decodeStream_empty_tree (b : Built) (dcap : Nat) (bits : List Bool) (h : b.alpha = 0#9) :
    decodeStream b dcap bits = if bits = [] then .ok [] else .error (.badBit, 0) := by
  cases bits <;> simp [decodeStream, Walk.run, Walk.step, h]

/-- What one bit can do: an error of the two kinds at this bit, or a walk that has emitted at most one
more symbol, within the capacity. -/
theorem Walk.step_cases (b : Built) (dcap j : Nat) (w : Walk) (bit : Bool) :
    w.step b dcap j bit = .error (.badBit, j) ∨ w.step b dcap j bit = .error (.dstOverflow, j) ∨
      (∃ pos, w.step b dcap j bit = .ok { w with pos := pos }) ∨
      ∃ sym, w.out.length ≠ dcap ∧
        w.step b dcap j bit = .ok { out := w.out ++ [sym], pos := b.rootIndex, start := j + 1 } := by
  unfold Walk.step Walk.emit
  by_cases h0 : b.alpha = 0#9
  · simp [h0]
  · by_cases h1 : b.alpha = 1#9
    · cases bit <;> by_cases hd : w.out.length = dcap <;> simp [h1, hd]
    · simp only [h0, h1, if_false]
      by_cases hl : (slot b.nodeInfo (b.child w.pos bit)).leaf = true
      · by_cases hd : w.out.length = dcap <;> simp [hl, hd]
      · simp [hl]

/-- A walk never emits more symbols than the capacity, and stops only with BAD_BIT or DST_OVERFLOW. -/
theorem Walk.run_bound (b : Built) (dcap j : Nat) (w : Walk) (bits : List Bool)
    (hw : w.out.length ≤ dcap) :
    (∃ i, Walk.run b dcap j w bits = .error (.badBit, i)) ∨
      (∃ i, Walk.run b dcap j w bits = .error (.dstOverflow, i)) ∨
      ∃ w', Walk.run b dcap j w bits = .ok w' ∧ w'.out.length ≤ dcap := by
  induction bits generalizing j w with
  | nil => exact .inr (.inr ⟨w, rfl, hw⟩)
  | cons bit bits ih =>
    rw [Walk.run]
    rcases Walk.step_cases b dcap j w bit with h | h | ⟨pos, h⟩ | ⟨sym, hne, h⟩
    · exact .inl ⟨j, by rw [h]⟩
    · exact .inr (.inl ⟨j, by rw [h]⟩)
    · rw [h]; exact ih _ _ hw
    · rw [h]; exact ih _ _ (by simp; omega)

/-- DECODE's walk emits at most DCAP symbols. -/
theorem decodeStream_length (b : Built) (dcap : Nat) (bits : List Bool) (out : List Byte)
    (h : decodeStream b dcap bits = .ok out) : out.length ≤ dcap := by
  unfold decodeStream at h
  rcases Walk.run_bound b dcap 0 { out := [], pos := b.rootIndex, start := 0 } bits (Nat.zero_le _)
    with ⟨i, hr⟩ | ⟨i, hr⟩ | ⟨w, hr, hw⟩ <;> rw [hr] at h
  · cases h
  · cases h
  · simp only at h
    split at h
    · cases h
    · cases h; exact hw

/-- DECODE's walk stops only with a runtime error of the decoder. -/
theorem decodeStream_error (b : Built) (dcap : Nat) (bits : List Bool) (e : ErrCode) (i : Nat)
    (h : decodeStream b dcap bits = .error (e, i)) :
    e = .badBit ∨ e = .dstOverflow ∨ e = .truncated := by
  unfold decodeStream at h
  rcases Walk.run_bound b dcap 0 { out := [], pos := b.rootIndex, start := 0 } bits (Nat.zero_le _)
    with ⟨i, hr⟩ | ⟨i, hr⟩ | ⟨w, hr, hw⟩ <;> rw [hr] at h
  · cases h; exact .inl rfl
  · cases h; exact .inr (.inl rfl)
  · simp only at h
    split at h
    · cases h; exact .inr (.inr rfl)
    · cases h

end Sys2Proof.Machine
end

