-- ==== Sys2Proof/Laws/Scanner.lean ====
section
/-! SUPPORT. Laws of the frequency table scanner: what SCAN counts (R103, R104). -/

namespace Sys2Proof.Machine

@[simp] theorem entry_zeroFreq (s : Byte) : entry zeroFreq s = 0#32 := by simp [zeroFreq]

theorem entry_countSymbol (f : SymTable Word) (s r : Byte) :
    entry (countSymbol f s) r = if r = s then entry f s + 1#32 else entry f r := by
  rw [countSymbol, entry_setEntry]

/-- Counting a byte sequence on top of a table adds its number of occurrences, in 32 bits. -/
theorem entry_foldl_countSymbol (input : List Byte) (f : SymTable Word) (r : Byte) :
    entry (input.foldl countSymbol f) r = entry f r + BitVec.ofNat 32 (input.count r) := by
  induction input generalizing f with
  | nil => simp
  | cons s rest ih =>
    rw [List.foldl_cons, ih, entry_countSymbol]
    by_cases h : r = s
    · subst h
      apply BitVec.eq_of_toNat_eq
      simp only [if_true, List.count_cons_self, BitVec.toNat_add, BitVec.toNat_ofNat]
      omega
    · simp [h, List.count_cons_of_ne (Ne.symm h)]

theorem entry_histogram (input : List Byte) (r : Byte) :
    entry (histogram input) r = BitVec.ofNat 32 (input.count r) := by
  simp [histogram, entry_foldl_countSymbol]

/-- R103: with fewer than 2^32 bytes no counter wraps. -/
theorem toNat_entry_histogram (input : List Byte) (r : Byte) (h : input.length < 2 ^ 32) :
    (entry (histogram input) r).toNat = input.count r := by
  rw [entry_histogram, BitVec.toNat_ofNat, Nat.mod_eq_of_lt]
  exact Nat.lt_of_le_of_lt List.count_le_length h

/-- Adding up 1 for each element equal to `b` counts `b`. -/
theorem sum_map_ite_eq_count (l : List Byte) (b : Byte) :
    (l.map fun s => if b = s then 1 else 0).sum = l.count b := by
  induction l with
  | nil => rfl
  | cons a l ih =>
    rw [List.map_cons, List.sum_cons, ih, List.count_cons]
    by_cases h : b = a
    · simp [h, Nat.add_comm]
    · simp [h, Ne.symm h]

/-- Adding up counts over any list of symbols, one byte at a time. -/
theorem sum_map_count_cons (l : List Byte) (b : Byte) (rest : List Byte) :
    (l.map fun s => (b :: rest).count s).sum = (l.map fun s => rest.count s).sum + l.count b := by
  rw [← sum_map_ite_eq_count, ← List.sum_map_add]
  simp only [List.count_cons, beq_iff_eq]

/-- Every byte of a sequence is some symbol: the counts of all symbols add up to its length. -/
theorem sum_count_allSymbols (input : List Byte) :
    (allSymbols.map fun s => input.count s).sum = input.length := by
  induction input with
  | nil => exact List.sum_eq_zero (by simp only [List.count_nil, List.mem_map]; rintro x ⟨s, -, rfl⟩; rfl)
  | cons b rest ih =>
    rw [sum_map_count_cons, ih, List.count_eq_one_of_mem nodup_allSymbols (mem_allSymbols b),
      List.length_cons]

/-- Adding up a value per symbol, weighted with the symbol's count, adds the value up over the
sequence. -/
theorem sum_count_mul (g : Byte → Nat) (input : List Byte) :
    (allSymbols.map fun s => input.count s * g s).sum = (input.map g).sum := by
  induction input with
  | nil =>
    refine List.sum_eq_zero ?_
    simp only [List.count_nil, Nat.zero_mul, List.mem_map]
    rintro x ⟨s, -, rfl⟩
    rfl
  | cons b rest ih =>
    have split_off : (allSymbols.map fun s => (b :: rest).count s * g s) =
        allSymbols.map fun s => rest.count s * g s + if b = s then g b else 0 := by
      apply List.map_congr_left
      intro s _
      rw [List.count_cons]
      by_cases h : b = s <;> simp [h, Nat.add_mul]
    have once (l : List Byte) : (l.map fun s => if b = s then g b else 0).sum = l.count b * g b := by
      induction l with
      | nil => simp
      | cons a l ih =>
        rw [List.map_cons, List.sum_cons, ih, List.count_cons]
        by_cases h : b = a
        · subst h; simp [Nat.add_mul, Nat.add_comm]
        · have : (a == b) = false := by simpa using Ne.symm h
          simp [h, this]
    rw [split_off, List.sum_map_add, ih, once,
      List.count_eq_one_of_mem nodup_allSymbols (mem_allSymbols b)]
    simp [Nat.add_comm]

end Sys2Proof.Machine
end

