-- ==== Sys2Proof/Laws/Exec.lean ====
section
/-! SUPPORT. What each command can do, said once: every command answers a next state, which is one of a
few named updates; what all of them leave alone; and that no command reads the model's turns or its last
response. -/

namespace Sys2Proof.Machine

/-! ### One lemma per command -/

theorem execScan_cases (s : State) :
    (s.inputWindow.inRange s.dmemSize ∧
      execScan s = .next (s.setFreq (histogram (s.readBytes s.inputWindow))).succeed) ∨
    (¬s.inputWindow.inRange s.dmemSize ∧ execScan s = .next (s.raise .range 0#32)) := by
  unfold execScan
  by_cases h : s.inputWindow.inRange s.dmemSize
  · exact .inl ⟨h, if_pos h⟩
  · exact .inr ⟨h, if_neg h⟩

theorem execBuild_cases (s : State) :
    (freqOverflows s.freq ∧ execBuild s = .next (s.dropTable.raise .freqOverflow 0#32)) ∨
    (¬freqOverflows s.freq ∧ execBuild s = .next (s.writeBuilt (buildFrom s.freq)).succeed) := by
  unfold execBuild
  by_cases h : freqOverflows s.freq
  · exact .inl ⟨h, if_pos h⟩
  · exact .inr ⟨h, if_neg h⟩

/-- A BUILD that does not overflow leaves `buildFrom` of FREQ. -/
theorem execBuild_built {s t : State} (hf : freqTotal s.freq ≤ 2 ^ 32 - 1)
    (h : exec .build s = .next t) : t = (s.writeBuilt (buildFrom s.freq)).succeed := by
  rcases execBuild_cases s with ⟨ho, -⟩ | ⟨-, h'⟩
  · simp only [freqOverflows] at ho; omega
  · exact Host.Outcome.next.inj (h.symm.trans h')

/-- What the up-front checks have established when they find nothing (R202). -/
theorem State.upFrontError_pass {s : State} {w : Window} (h : s.upFrontError w = none) :
    s.status.tableValid = true ∧ w.inRange s.dmemSize ∧ s.outputWindow.inRange s.dmemSize ∧
      ¬w.overlaps s.outputWindow :=
  (s.upFrontError_none w).1 h

theorem execEncode_cases (s : State) :
    (∃ e info, s.upFrontError s.inputWindow = some (e, info) ∧ execEncode s = .next (s.raise e info)) ∨
    (s.upFrontError s.inputWindow = none ∧ ∃ e i, (e = .noCode ∨ e = .dstOverflow) ∧
      encodeFrom s.built s.args.dcap.toNat 0 [] (s.readBytes s.inputWindow) = .error (e, i) ∧
      execEncode s = .next (s.raiseRuntime e (BitVec.ofNat 32 i))) ∨
    (s.upFrontError s.inputWindow = none ∧
      (∀ sym ∈ s.readBytes s.inputWindow, s.built.lenOf sym ≠ 0) ∧
      (s.built.codesOf (s.readBytes s.inputWindow)).length ≤ 8 * s.args.dcap.toNat ∧
      execEncode s =
        .next (s.writeEncoded (s.built.codesOf (s.readBytes s.inputWindow))).succeed) := by
  unfold execEncode
  cases hu : s.upFrontError s.inputWindow with
  | some x => exact .inl ⟨x.1, x.2, rfl, rfl⟩
  | none =>
    right
    rcases encodeFrom_cases s.built s.args.dcap.toNat (s.readBytes s.inputWindow) with
      ⟨h1, h2, h⟩ | ⟨u, sym, v, -, -, -, ⟨-, h⟩ | ⟨-, -, h⟩⟩
    · exact .inr ⟨rfl, h1, h2, by simp only [h]⟩
    · exact .inl ⟨rfl, .noCode, u.length, .inl rfl, h, by simp only [h]⟩
    · exact .inl ⟨rfl, .dstOverflow, u.length, .inr rfl, h, by simp only [h]⟩

theorem execDecode_cases (s : State) :
    (∃ e info, s.upFrontError s.streamWindow = some (e, info) ∧ execDecode s = .next (s.raise e info)) ∨
    (s.upFrontError s.streamWindow = none ∧
      ∃ e i, (e = .badBit ∨ e = .dstOverflow ∨ e = .truncated) ∧
        decodeStream s.built s.args.dcap.toNat
          (s.streamBits s.args.src.toNat s.args.nbits.toNat) = .error (e, i) ∧
        execDecode s = .next (s.raiseRuntime e (BitVec.ofNat 32 i))) ∨
    (s.upFrontError s.streamWindow = none ∧ ∃ out, out.length ≤ s.args.dcap.toNat ∧
      decodeStream s.built s.args.dcap.toNat
        (s.streamBits s.args.src.toNat s.args.nbits.toNat) = .ok out ∧
      execDecode s = .next (s.writeDecoded out).succeed) := by
  unfold execDecode
  cases hu : s.upFrontError s.streamWindow with
  | some x => exact .inl ⟨x.1, x.2, rfl, rfl⟩
  | none =>
    right
    cases hd : decodeStream s.built s.args.dcap.toNat
        (s.streamBits s.args.src.toNat s.args.nbits.toNat) with
    | error x => exact .inl ⟨rfl, x.1, x.2, decodeStream_error _ _ _ _ _ hd, rfl, rfl⟩
    | ok out => exact .inr ⟨rfl, out, decodeStream_length _ _ _ _ hd, rfl, rfl⟩

/-! ### All commands -/

/-- Every command answers a next state. -/
theorem exec_next (i : Instr) (s : State) : ∃ t, exec i s = .next t := by
  cases i with
  | nop => exact ⟨_, rfl⟩
  | clrf => exact ⟨_, rfl⟩
  | scan => rcases execScan_cases s with ⟨-, h⟩ | ⟨-, h⟩ <;> exact ⟨_, h⟩
  | build => rcases execBuild_cases s with ⟨-, h⟩ | ⟨-, h⟩ <;> exact ⟨_, h⟩
  | encode =>
    rcases execEncode_cases s with ⟨_, _, -, h⟩ | ⟨-, _, _, -, -, h⟩ | ⟨-, -, -, h⟩ <;> exact ⟨_, h⟩
  | decode =>
    rcases execDecode_cases s with ⟨_, _, -, h⟩ | ⟨-, _, _, -, -, h⟩ | ⟨-, _, -, -, h⟩ <;>
      exact ⟨_, h⟩

/-- The next states a command can have: one of nine named updates, with what is known when each
happens. -/
theorem exec_cases {i : Instr} {s t : State} (h : exec i s = .next t) :
    (i = .nop ∧ t = s.succeed) ∨
    (i = .clrf ∧ t = (s.setFreq zeroFreq).succeed) ∨
    (i = .scan ∧ t = (s.setFreq (histogram (s.readBytes s.inputWindow))).succeed) ∨
    (i = .build ∧ ¬freqOverflows s.freq ∧ t = (s.writeBuilt (buildFrom s.freq)).succeed) ∨
    (i = .build ∧ t = s.dropTable.raise .freqOverflow 0#32) ∨
    ((i = .scan ∨ i = .encode ∨ i = .decode) ∧ ∃ e info,
      (e = .noTable ∨ e = .range ∨ e = .overlap) ∧ t = s.raise e info) ∨
    ((i = .encode ∨ i = .decode) ∧ s.outputWindow.inRange s.dmemSize ∧ ∃ e info,
      (e = .noCode ∨ e = .dstOverflow ∨ e = .truncated ∨ e = .badBit) ∧
        t = s.raiseRuntime e info) ∨
    (i = .encode ∧ s.outputWindow.inRange s.dmemSize ∧ ∃ bits,
      bits.length ≤ 8 * s.args.dcap.toNat ∧ t = (s.writeEncoded bits).succeed) ∨
    (i = .decode ∧ s.outputWindow.inRange s.dmemSize ∧ ∃ out,
      out.length ≤ s.args.dcap.toNat ∧ t = (s.writeDecoded out).succeed) := by
  have some_of {w : Window} {e : ErrCode} {info : Word} (h : s.upFrontError w = some (e, info)) :
      e = .noTable ∨ e = .range ∨ e = .overlap := by
    rcases s.upFrontError_some w e info h with ⟨h, -⟩ | ⟨h, -⟩ | ⟨h, -⟩ | ⟨h, -⟩ <;> simp [h]
  cases i with
  | nop => exact .inl ⟨rfl, (Host.Outcome.next.inj h).symm⟩
  | clrf => exact .inr (.inl ⟨rfl, (Host.Outcome.next.inj h).symm⟩)
  | scan =>
    rcases execScan_cases s with ⟨-, h'⟩ | ⟨-, h'⟩
    · exact .inr (.inr (.inl ⟨rfl, Host.Outcome.next.inj (h.symm.trans h')⟩))
    · exact .inr (.inr (.inr (.inr (.inr (.inl ⟨.inl rfl, .range, 0#32, .inr (.inl rfl),
        Host.Outcome.next.inj (h.symm.trans h')⟩)))))
  | build =>
    rcases execBuild_cases s with ⟨-, h'⟩ | ⟨ho, h'⟩
    · exact .inr (.inr (.inr (.inr (.inl ⟨rfl, Host.Outcome.next.inj (h.symm.trans h')⟩))))
    · exact .inr (.inr (.inr (.inl ⟨rfl, ho, Host.Outcome.next.inj (h.symm.trans h')⟩)))
  | encode =>
    rcases execEncode_cases s with ⟨e, info, hu, h'⟩ | ⟨hu, e, k, he, -, h'⟩ | ⟨hu, -, hl, h'⟩
    · exact .inr (.inr (.inr (.inr (.inr (.inl ⟨.inr (.inl rfl), e, info, some_of hu,
        Host.Outcome.next.inj (h.symm.trans h')⟩)))))
    · exact .inr (.inr (.inr (.inr (.inr (.inr (.inl ⟨.inl rfl, (State.upFrontError_pass hu).2.2.1,
        e, _, by rcases he with rfl | rfl <;> simp, Host.Outcome.next.inj (h.symm.trans h')⟩))))))
    · exact .inr (.inr (.inr (.inr (.inr (.inr (.inr (.inl ⟨rfl, (State.upFrontError_pass hu).2.2.1,
        _, hl, Host.Outcome.next.inj (h.symm.trans h')⟩)))))))
  | decode =>
    rcases execDecode_cases s with ⟨e, info, hu, h'⟩ | ⟨hu, e, k, he, -, h'⟩ | ⟨hu, out, hl, -, h'⟩
    · exact .inr (.inr (.inr (.inr (.inr (.inl ⟨.inr (.inr rfl), e, info, some_of hu,
        Host.Outcome.next.inj (h.symm.trans h')⟩)))))
    · exact .inr (.inr (.inr (.inr (.inr (.inr (.inl ⟨.inr rfl, (State.upFrontError_pass hu).2.2.1,
        e, _, by rcases he with rfl | rfl | rfl <;> simp,
        Host.Outcome.next.inj (h.symm.trans h')⟩))))))
    · exact .inr (.inr (.inr (.inr (.inr (.inr (.inr (.inr ⟨rfl, (State.upFrontError_pass hu).2.2.1,
        out, hl, Host.Outcome.next.inj (h.symm.trans h')⟩)))))))

/-! ### The model's own fields -/

/-- The state with other turns and another last response. -/
def State.withBus (s : State) (ts : List Turn) (r : Option Response) : State :=
  { s with turns := ts, response := r }

@[simp] theorem State.withBus_readByte (s : State) (ts : List Turn) (r : Option Response) (k : Nat) :
    (s.withBus ts r).readByte k = s.readByte k := rfl

theorem State.withBus_writeBytes (s : State) (ts : List Turn) (r : Option Response) (a : Nat)
    (vs : List Byte) : (s.withBus ts r).writeBytes a vs = (s.writeBytes a vs).withBus ts r := by
  induction vs generalizing s a with
  | nil => rfl
  | cons v vs ih => exact ih (s.writeByte a v) (a + 1)

theorem State.withBus_raiseRuntime (s : State) (ts : List Turn) (r : Option Response) (e : ErrCode)
    (info : Word) : (s.withBus ts r).raiseRuntime e info = (s.raiseRuntime e info).withBus ts r := by
  have h : (s.withBus ts r).forgetWindow (s.withBus ts r).outputWindow =
      (s.forgetWindow s.outputWindow).withBus ts r := State.withBus_writeBytes _ _ _ _ _
  unfold State.raiseRuntime State.forgetOutput
  rw [h]
  rfl

theorem State.withBus_writeEncoded (s : State) (ts : List Turn) (r : Option Response)
    (bits : List Bool) : (s.withBus ts r).writeEncoded bits = (s.writeEncoded bits).withBus ts r := by
  unfold State.writeEncoded
  rw [State.withBus_writeBytes]
  rfl

theorem State.withBus_writeDecoded (s : State) (ts : List Turn) (r : Option Response)
    (out : List Byte) : (s.withBus ts r).writeDecoded out = (s.writeDecoded out).withBus ts r := by
  unfold State.writeDecoded
  rw [State.withBus_writeBytes]
  rfl

/-- No command reads the turns or the last response, and each leaves them alone. -/
theorem exec_withBus (i : Instr) (s t : State) (ts : List Turn) (r : Option Response)
    (h : exec i s = .next t) : exec i (s.withBus ts r) = .next (t.withBus ts r) := by
  cases i with
  | nop => cases h; rfl
  | clrf => cases h; rfl
  | scan =>
    have e1 : (s.withBus ts r).inputWindow = s.inputWindow := rfl
    have e2 : (s.withBus ts r).dmemSize = s.dmemSize := rfl
    rcases execScan_cases s with ⟨hr, h'⟩ | ⟨hr, h'⟩ <;> cases h.symm.trans h' <;>
      simp only [exec, execScan, e1, e2, hr, if_true, if_false] <;> rfl
  | build =>
    have e1 : (s.withBus ts r).freq = s.freq := rfl
    rcases execBuild_cases s with ⟨hr, h'⟩ | ⟨hr, h'⟩ <;> cases h.symm.trans h' <;>
      simp only [exec, execBuild, e1, hr, if_true, if_false] <;> rfl
  | encode =>
    have e1 : (s.withBus ts r).upFrontError (s.withBus ts r).inputWindow =
        s.upFrontError s.inputWindow := rfl
    have e2 : encodeFrom (s.withBus ts r).built (s.withBus ts r).args.dcap.toNat 0 []
        ((s.withBus ts r).readBytes (s.withBus ts r).inputWindow) =
        encodeFrom s.built s.args.dcap.toNat 0 [] (s.readBytes s.inputWindow) := rfl
    change execEncode s = _ at h
    change execEncode (s.withBus ts r) = _
    unfold execEncode at h ⊢
    rw [e1, e2]
    cases hu : s.upFrontError s.inputWindow with
    | some x => rw [hu] at h; cases h; rfl
    | none =>
      rw [hu] at h
      cases hx : encodeFrom s.built s.args.dcap.toNat 0 [] (s.readBytes s.inputWindow) with
      | error x => rw [hx] at h; cases h; rw [← State.withBus_raiseRuntime]
      | ok bits => rw [hx] at h; cases h; simp only [State.withBus_writeEncoded]; rfl
  | decode =>
    have e1 : (s.withBus ts r).upFrontError (s.withBus ts r).streamWindow =
        s.upFrontError s.streamWindow := rfl
    have e2 : decodeStream (s.withBus ts r).built (s.withBus ts r).args.dcap.toNat
        ((s.withBus ts r).streamBits (s.withBus ts r).args.src.toNat
          (s.withBus ts r).args.nbits.toNat) =
        decodeStream s.built s.args.dcap.toNat
          (s.streamBits s.args.src.toNat s.args.nbits.toNat) := rfl
    change execDecode s = _ at h
    change execDecode (s.withBus ts r) = _
    unfold execDecode at h ⊢
    rw [e1, e2]
    cases hu : s.upFrontError s.streamWindow with
    | some x => rw [hu] at h; cases h; rfl
    | none =>
      rw [hu] at h
      cases hx : decodeStream s.built s.args.dcap.toNat
          (s.streamBits s.args.src.toNat s.args.nbits.toNat) with
      | error x => rw [hx] at h; cases h; rw [← State.withBus_raiseRuntime]
      | ok out => rw [hx] at h; cases h; simp only [State.withBus_writeDecoded]; rfl

end Sys2Proof.Machine
end

