-- ==== Sys2Proof/Laws/Bus.lean ====
section
/-! SUPPORT. Laws of the host interface: where each offset leads, what acceptance establishes, everything
a host step can do, and everything a step of the model can do. -/

namespace Sys2Proof.Machine

/-! ### Offsets -/

/-! The regions of the map (R38), one lemma each. -/

theorem locate_freq (size off : Nat) (h : 0x400 ≤ off ∧ off < 0x800) :
    locate size off = some (.freq (BitVec.ofNat 8 ((off - 0x400) / 4))) := by
  simp (disch := omega) only [locate, if_pos, if_neg]

theorem locate_codeLen (size off : Nat) (h : 0x800 ≤ off ∧ off < 0xC00) :
    locate size off = some (.codeLen (BitVec.ofNat 8 ((off - 0x800) / 4))) := by
  simp (disch := omega) only [locate, if_pos, if_neg]

theorem locate_codeBits (size off : Nat) (h : 0x1000 ≤ off ∧ off < 0x3000) :
    locate size off = some
      (.codeBits (BitVec.ofNat 8 ((off - 0x1000) / 32)) (Fin.ofNat 8 ((off - 0x1000) / 4))) := by
  simp (disch := omega) only [locate, if_pos, if_neg]

theorem locate_nodeFreq (size off : Nat) (h : 0x4000 ≤ off ∧ off < 0x4800) :
    locate size off = some (.nodeFreq (BitVec.ofNat 9 ((off - 0x4000) / 4))) := by
  simp (disch := omega) only [locate, if_pos, if_neg]

theorem locate_nodeInfo (size off : Nat) (h : 0x4800 ≤ off ∧ off < 0x5000) :
    locate size off = some (.nodeInfo (BitVec.ofNat 9 ((off - 0x4800) / 4))) := by
  simp (disch := omega) only [locate, if_pos, if_neg]

theorem locate_window (size off : Nat) (h : 0x10000 ≤ off ∧ off < 0x10000 + size) :
    locate size off = some (.dmem (off - 0x10000)) := by
  simp (disch := omega) only [locate, if_pos, if_neg]

/-- Everything a mapped offset can name (R38). -/
theorem locate_cases {size off : Nat} {x : Target} (h : locate size off = some x) :
    (off < 0x400 ∧ ∃ r, regAt (off / 4) = some r ∧ x = .reg r) ∨
    ((0x400 ≤ off ∧ off < 0x800) ∧ x = .freq (BitVec.ofNat 8 ((off - 0x400) / 4))) ∨
    ((0x800 ≤ off ∧ off < 0xC00) ∧ x = .codeLen (BitVec.ofNat 8 ((off - 0x800) / 4))) ∨
    ((0x1000 ≤ off ∧ off < 0x3000) ∧
      x = .codeBits (BitVec.ofNat 8 ((off - 0x1000) / 32)) (Fin.ofNat 8 ((off - 0x1000) / 4))) ∨
    ((0x4000 ≤ off ∧ off < 0x4800) ∧ x = .nodeFreq (BitVec.ofNat 9 ((off - 0x4000) / 4))) ∨
    ((0x4800 ≤ off ∧ off < 0x5000) ∧ x = .nodeInfo (BitVec.ofNat 9 ((off - 0x4800) / 4))) ∨
    ((0x10000 ≤ off ∧ off < 0x10000 + size) ∧ x = .dmem (off - 0x10000)) := by
  have hn : ((0xC00 ≤ off ∧ off < 0x1000) ∨ (0x3000 ≤ off ∧ off < 0x4000) ∨
      (0x5000 ≤ off ∧ off < 0x10000) ∨ 0x10000 + size ≤ off) → locate size off = none := by
    rintro (hg | hg | hg | hg) <;> simp (disch := omega) only [locate, if_pos, if_neg]
  by_cases h0 : off < 0x400
  · rw [locate, if_pos h0] at h
    obtain ⟨r, hr, rfl⟩ := Option.map_eq_some_iff.1 h
    exact .inl ⟨h0, r, hr, rfl⟩
  refine .inr ?_
  by_cases h1 : 0x400 ≤ off ∧ off < 0x800
  · exact .inl ⟨h1, by rw [locate_freq _ _ h1] at h; cases h; rfl⟩
  refine .inr ?_
  by_cases h2 : 0x800 ≤ off ∧ off < 0xC00
  · exact .inl ⟨h2, by rw [locate_codeLen _ _ h2] at h; cases h; rfl⟩
  refine .inr ?_
  by_cases h3 : 0x1000 ≤ off ∧ off < 0x3000
  · exact .inl ⟨h3, by rw [locate_codeBits _ _ h3] at h; cases h; rfl⟩
  refine .inr ?_
  by_cases h4 : 0x4000 ≤ off ∧ off < 0x4800
  · exact .inl ⟨h4, by rw [locate_nodeFreq _ _ h4] at h; cases h; rfl⟩
  refine .inr ?_
  by_cases h5 : 0x4800 ≤ off ∧ off < 0x5000
  · exact .inl ⟨h5, by rw [locate_nodeInfo _ _ h5] at h; cases h; rfl⟩
  refine .inr ?_
  by_cases h6 : 0x10000 ≤ off ∧ off < 0x10000 + size
  · exact ⟨h6, by rw [locate_window _ _ h6] at h; cases h; rfl⟩
  rw [hn (by omega)] at h
  cases h

/-- The offset of a name leads back to it (R38), for addresses that fit the host's offsets. -/
theorem locate_offset (size : Nat) (target : Target)
    (h : ∀ a, target = .dmem a → a < size) : locate size target.offset = some target := by
  cases target with
  | reg r => cases r <;> rfl
  | freq s =>
    have := s.isLt
    rw [Target.offset, locate_freq size _ ⟨by omega, by omega⟩, Nat.add_sub_cancel_left,
      Nat.mul_div_cancel_left _ (by decide), BitVec.ofNat_toNat, BitVec.setWidth_eq]
  | codeLen s =>
    have := s.isLt
    rw [Target.offset, locate_codeLen size _ ⟨by omega, by omega⟩, Nat.add_sub_cancel_left,
      Nat.mul_div_cancel_left _ (by decide), BitVec.ofNat_toNat, BitVec.setWidth_eq]
  | codeBits s w =>
    have := s.isLt
    have := w.isLt
    rw [Target.offset, locate_codeBits size _ ⟨by omega, by omega⟩]
    have hs : (0x1000 + 32 * s.toNat + 4 * w.val - 0x1000) / 32 = s.toNat := by omega
    have hw : Fin.ofNat 8 ((0x1000 + 32 * s.toNat + 4 * w.val - 0x1000) / 4) = w := by
      refine Fin.ext ?_
      rw [Fin.val_ofNat]
      omega
    rw [hs, hw, BitVec.ofNat_toNat, BitVec.setWidth_eq]
  | nodeFreq s =>
    have := s.isLt
    rw [Target.offset, locate_nodeFreq size _ ⟨by omega, by omega⟩, Nat.add_sub_cancel_left,
      Nat.mul_div_cancel_left _ (by decide), BitVec.ofNat_toNat, BitVec.setWidth_eq]
  | nodeInfo s =>
    have := s.isLt
    rw [Target.offset, locate_nodeInfo size _ ⟨by omega, by omega⟩, Nat.add_sub_cancel_left,
      Nat.mul_div_cancel_left _ (by decide), BitVec.ofNat_toNat, BitVec.setWidth_eq]
  | dmem a =>
    have := h a rfl
    rw [Target.offset, locate_window size _ ⟨by omega, by omega⟩, Nat.add_sub_cancel_left]

/-- An address of the DMEM window is below DMEM_SIZE (R62). -/
theorem locate_dmem {size off a : Nat} (h : locate size off = some (.dmem a)) :
    a < size ∧ off = 0x10000 + a := by
  rcases locate_cases h with ⟨-, r, -, hx⟩ | h | h | h | h | h | ⟨⟨h1, h2⟩, hx⟩
  · cases hx
  all_goals first | cases h.2 | skip
  have := Target.dmem.inj hx
  omega

/-- The register at a word number has that word number. -/
theorem regAt_index {n : Nat} {r : Reg} (h : regAt n = some r) : n = r.index := by
  unfold regAt at h
  split at h <;> cases h <;> rfl

theorem Reg.index_lt (r : Reg) : r.index < 21 := by cases r <;> decide

/-- The offset of what an aligned, mapped offset names is that offset. -/
theorem offset_of_locate {size off : Nat} {x : Target} (h : locate size off = some x)
    (ha : off < 0x10000 → off % 4 = 0) : x.offset = off := by
  obtain ⟨hb, r, hr, rfl⟩ | hx := locate_cases h
  · have := regAt_index hr
    have := ha (by omega)
    rw [Target.offset]; omega
  rcases hx with hx | hx | hx | hx | hx | hx
  all_goals
    obtain ⟨hb, rfl⟩ := hx
    simp only [Target.offset, BitVec.toNat_ofNat, Fin.ofNat]
    omega

/-- R38: where something is mapped. -/
theorem locate_isSome (size off : Nat) : (∃ x, locate size off = some x) ↔
    off < 0x54 ∨ (0x400 ≤ off ∧ off < 0xC00) ∨ (0x1000 ≤ off ∧ off < 0x3000) ∨
      (0x4000 ≤ off ∧ off < 0x5000) ∨ (0x10000 ≤ off ∧ off < 0x10000 + size) := by
  constructor
  · rintro ⟨x, h⟩
    obtain ⟨hb, r, hr, rfl⟩ | hb := locate_cases h
    · have := regAt_index hr
      have := r.index_lt
      omega
    · omega
  · rintro (h | h | h | h | h)
    · have h21 : off / 4 < 21 := by omega
      obtain ⟨r, hr⟩ : ∃ r, regAt (off / 4) = some r := by
        generalize off / 4 = n at h21
        interval_cases n <;> exact ⟨_, rfl⟩
      exact ⟨.reg r, by rw [locate, if_pos (by omega), hr]; rfl⟩
    · rcases Nat.lt_or_ge off 0x800 with h' | h'
      · exact ⟨_, locate_freq size off ⟨h.1, h'⟩⟩
      · exact ⟨_, locate_codeLen size off ⟨h', h.2⟩⟩
    · exact ⟨_, locate_codeBits size off h⟩
    · rcases Nat.lt_or_ge off 0x4800 with h' | h'
      · exact ⟨_, locate_nodeFreq size off ⟨h.1, h'⟩⟩
      · exact ⟨_, locate_nodeInfo size off ⟨h', h.2⟩⟩
    · exact ⟨_, locate_window size off h⟩

/-- An accepted access below the DMEM window is aligned (R63). -/
theorem sizeOk_aligned {size off bits : Nat} {x : Target} (hl : locate size off = some x)
    (h : sizeOk size off bits x = true) : off < 0x10000 → off % 4 = 0 := by
  intro ho
  cases x with
  | dmem a => have := locate_dmem hl; omega
  | reg _ | freq _ | codeLen _ | nodeFreq _ | nodeInfo _ => simp [sizeOk] at h; omega
  | codeBits _ _ => simp [sizeOk] at h; omega

/-- What acceptance establishes (R81). -/
theorem accept_eq_some {size : Nat} {t : Txn} {target : Target} (h : accept size t = some target) :
    locate size t.offset.toNat = some target ∧ sizeOk size t.offset.toNat t.size target = true ∧
      ¬(t.dir = .write ∧ target.readOnly = true) := by
  unfold accept at h
  split at h
  · cases h
  · split at h
    · cases h
    · split at h
      · cases h
      · rename_i h1 h2 h3
        obtain rfl := by simpa using h
        exact ⟨h1, by simpa using h2, h3⟩

/-- A transaction at the offset of a name, of an accepted width, is accepted for that name, unless it
writes to a read-only one (R81). -/
theorem accept_named {size : Nat} {t : Txn} (target : Target) (hoff : t.offset.toNat = target.offset)
    (hsize : sizeOk size target.offset t.size target = true) (hdmem : ∀ a, target = .dmem a → a < size)
    (hro : t.dir = .write → target.readOnly = false) : accept size t = some target := by
  have h : ¬(t.dir = .write ∧ target.readOnly = true) := fun ⟨h1, h2⟩ => by simp [hro h1] at h2
  simp only [accept, hoff, locate_offset size target hdmem, hsize, h, Bool.true_eq_false, if_false]

/-- A DMEM access that is accepted stays inside DMEM (R63). -/
theorem accept_dmem {size : Nat} {t : Txn} {a : Nat} (h : accept size t = some (.dmem a)) :
    (t.size = 8 ∧ a < size) ∨ (t.size = 32 ∧ a % 4 = 0 ∧ a + 3 < size) := by
  obtain ⟨h1, h2, -⟩ := accept_eq_some h
  have := locate_dmem h1
  simp only [sizeOk, Bool.or_eq_true, Bool.and_eq_true, beq_iff_eq, decide_eq_true_eq] at h2
  omega

/-! ### The fields of NODE_INFO -/

/-- LEAF is bit 31 (R44). -/
theorem NodeInfo.toWord_leaf (n : NodeInfo) : n.toWord.getLsbD 31 = n.leaf := by
  simp only [NodeInfo.toWord, BitVec.getLsbD_append, BitVec.getLsbD_ofBool]
  cases n.leaf <;> rfl

/-- USED is bit 30 (R44). -/
theorem NodeInfo.toWord_used (n : NodeInfo) : n.toWord.getLsbD 30 = n.used := by
  simp only [NodeInfo.toWord, BitVec.getLsbD_append, BitVec.getLsbD_ofBool]
  cases n.used <;> rfl

/-- Bits 29:26 read 0 (R44). -/
theorem NodeInfo.toWord_reserved (n : NodeInfo) : n.toWord.extractLsb' 26 4 = 0#4 := by
  refine BitVec.eq_of_getLsbD_eq fun k hk => ?_
  simp only [NodeInfo.toWord, BitVec.getLsbD_append, BitVec.getLsbD_extractLsb', hk, decide_true,
    Bool.true_and]
  rw [if_neg (show ¬26 + k < 8 by omega)]
  repeat rw [if_neg (by omega)]
  rw [if_pos (by omega), BitVec.getLsbD_zero, BitVec.getLsbD_zero]

/-- RIGHT is bits 25:17 (R44). -/
theorem NodeInfo.toWord_right (n : NodeInfo) : n.toWord.extractLsb' 17 9 = n.right := by
  refine BitVec.eq_of_getLsbD_eq fun k hk => ?_
  simp only [NodeInfo.toWord, BitVec.getLsbD_append, BitVec.getLsbD_extractLsb', hk, decide_true,
    Bool.true_and]
  rw [if_neg (by omega), if_neg (by omega), if_pos (by omega)]
  exact congrArg _ (by omega)

/-- LEFT is bits 16:8 (R44). -/
theorem NodeInfo.toWord_left (n : NodeInfo) : n.toWord.extractLsb' 8 9 = n.left := by
  refine BitVec.eq_of_getLsbD_eq fun k hk => ?_
  simp only [NodeInfo.toWord, BitVec.getLsbD_append, BitVec.getLsbD_extractLsb', hk, decide_true,
    Bool.true_and]
  rw [if_neg (by omega), if_pos (by omega)]
  exact congrArg _ (by omega)

/-- SYMBOL is bits 7:0 (R44). -/
theorem NodeInfo.toWord_symbol (n : NodeInfo) : n.toWord.extractLsb' 0 8 = n.symbol := by
  refine BitVec.eq_of_getLsbD_eq fun k hk => ?_
  simp only [NodeInfo.toWord, BitVec.getLsbD_append, BitVec.getLsbD_extractLsb', hk, decide_true,
    Bool.true_and]
  rw [if_pos (by omega), Nat.zero_add]

/-! ### One host step -/

/-- An accepted write (R82). -/
theorem hostStep_write {s : State} {t : Txn} {target : Target}
    (ha : accept s.dmemSize t = some target) (hd : t.dir = .write) :
    s.hostStep t =
      if s.status.busy = true ∧ target ≠ .reg .ctrl then s.dropWrite.respond .okWrite
      else (s.writeTarget t.size t.wdata target).respond .okWrite := by
  simp [State.hostStep, ha, hd]

/-- An accepted read (R82). -/
theorem hostStep_read {s : State} {t : Txn} {target : Target}
    (ha : accept s.dmemSize t = some target) (hd : t.dir = .read) :
    s.hostStep t =
      if s.status.busy = true ∧ target.readableWhileBusy = false then s.respondUnspec
      else s.respond (.okRead (s.readTarget t.size target)) := by
  simp [State.hostStep, ha, hd]

/-- A transaction that is not accepted (R81). -/
theorem hostStep_busErr {s : State} {t : Txn} (ha : accept s.dmemSize t = none) :
    s.hostStep t = s.respond .busErr := by
  simp [State.hostStep, ha]

/-- The state after an accepted, effective host write: one of a few named updates. -/
theorem writeTarget_cases (s : State) (t : Txn) (target : Target)
    (h : accept s.dmemSize t = some target) :
    let u := s.writeTarget t.size t.wdata target
    (u = s.issue t.wdata ∧ target = .reg .cmd) ∨ u = s.acknowledge t.wdata ∨
      (∃ a, u = { s with args := a }) ∨ (∃ e, u = { s with irqEn := e }) ∨
      (u = s.softReset ∧ target = .reg .ctrl) ∨ u = s ∨
      (∃ f, u = s.setFreq f) ∨
      (∃ a vs, a + vs.length ≤ s.dmemSize ∧ u = s.writeBytes a vs) := by
  intro u
  cases target with
  | reg r =>
    cases r with
    | cmd => exact .inl ⟨rfl, rfl⟩
    | status => exact .inr (.inl rfl)
    | src => exact .inr (.inr (.inl ⟨_, rfl⟩))
    | len => exact .inr (.inr (.inl ⟨_, rfl⟩))
    | dst => exact .inr (.inr (.inl ⟨_, rfl⟩))
    | dcap => exact .inr (.inr (.inl ⟨_, rfl⟩))
    | nbits => exact .inr (.inr (.inl ⟨_, rfl⟩))
    | irqEn => exact .inr (.inr (.inr (.inl ⟨_, rfl⟩)))
    | ctrl =>
      by_cases hb : t.wdata.getLsbD 0 = true
      · exact .inr (.inr (.inr (.inr (.inl ⟨if_pos hb, rfl⟩))))
      · exact .inr (.inr (.inr (.inr (.inr (.inl (if_neg hb))))))
    | id | errCode | errInfo | outBits | outBytes | outSyms | alpha | total | root | nodeCount
    | maxlen | param => exact .inr (.inr (.inr (.inr (.inr (.inl rfl)))))
  | freq sym => exact .inr (.inr (.inr (.inr (.inr (.inr (.inl ⟨_, rfl⟩))))))
  | codeLen _ | nodeFreq _ | nodeInfo _ => exact .inr (.inr (.inr (.inr (.inr (.inl rfl)))))
  | codeBits _ _ => exact .inr (.inr (.inr (.inr (.inr (.inl rfl)))))
  | dmem a =>
    refine .inr (.inr (.inr (.inr (.inr (.inr (.inr ?_))))))
    rcases accept_dmem h with ⟨h8, ha⟩ | ⟨h32, -, ha⟩
    · exact ⟨a, [byteOf t.wdata 0], ha, by
        show State.writeTarget s t.size t.wdata (.dmem a) = _
        simp only [State.writeTarget, h8, if_true]; rfl⟩
    · refine ⟨a, [byteOf t.wdata 0, byteOf t.wdata 1, byteOf t.wdata 2, byteOf t.wdata 3], ?_, ?_⟩
      · simp only [List.length_cons, List.length_nil]; omega
      · show State.writeTarget s t.size t.wdata (.dmem a) = _
        simp only [State.writeTarget, h32, show ¬((32 : Nat) = 8) by decide, if_false]; rfl

/-- Everything a host step can do (R82). -/
theorem hostStep_cases (s : State) (t : Txn) :
    (accept s.dmemSize t = none ∧ s.hostStep t = s.respond .busErr) ∨
    (t.dir = .read ∧ (s.hostStep t = s.respondUnspec ∨ ∃ v, s.hostStep t = s.respond (.okRead v))) ∨
    (s.status.busy = true ∧ s.hostStep t = s.dropWrite.respond .okWrite) ∨
    (∃ target, accept s.dmemSize t = some target ∧ (s.status.busy = false ∨ target = .reg .ctrl) ∧
      s.hostStep t = (s.writeTarget t.size t.wdata target).respond .okWrite) := by
  unfold State.hostStep
  cases ha : accept s.dmemSize t with
  | none => exact .inl ⟨rfl, rfl⟩
  | some target =>
    cases hd : t.dir with
    | read =>
      refine .inr (.inl ⟨rfl, ?_⟩)
      simp only
      split
      · exact .inl rfl
      · exact .inr ⟨_, rfl⟩
    | write =>
      simp only
      by_cases hc : s.status.busy = true ∧ target ≠ .reg .ctrl
      · exact .inr (.inr (.inl ⟨hc.1, if_pos hc⟩))
      · refine .inr (.inr (.inr ⟨target, rfl, ?_, if_neg hc⟩))
        by_cases hb : s.status.busy = true
        · exact .inr (by simpa [hb] using hc)
        · exact .inl (by simpa using hb)

/-! ### One step of the model -/

/-- Everything the core's turn can do (R86). -/
theorem coreStep_cases {s t : State} (h : s.coreStep = .next t) :
    (s.status.busy = false ∧ t = s) ∨
    (s.status.busy = true ∧ ∃ i, decode s.cmd = .ok i ∧ exec i s = .next t) ∨
    (s.status.busy = true ∧ t = illegalCommand s) := by
  unfold State.coreStep at h
  split at h
  · rename_i hb
    split at h
    · rename_i i hd
      exact .inr (.inl ⟨hb, i, hd, h⟩)
    · exact .inr (.inr ⟨hb, (Host.Outcome.next.inj h).symm⟩)
  · rename_i hb
    exact .inl ⟨by simpa using hb, (Host.Outcome.next.inj h).symm⟩

/-- The core's turn always has a next state. -/
theorem coreStep_next (s : State) : ∃ t, s.coreStep = .next t := by
  unfold State.coreStep
  split
  · split
    · exact exec_next _ s
    · exact ⟨_, rfl⟩
  · exact ⟨_, rfl⟩

/-- Everything a step can do: the core's turn, the host's, or the reset input's. -/
theorem step_cases {s t : State} (h : step s = .next t) :
    (∃ rest, (s.endTurn rest).coreStep = .next t) ∨
    (∃ rest x, t = (s.endTurn rest).hostStep x) ∨
    (∃ rest, t = (s.endTurn rest).hardReset) := by
  unfold step at h
  split at h
  · rename_i ht
    exact .inl ⟨[], by rw [State.endTurn, ← ht]; exact h⟩
  · rename_i turn rest ht
    cases turn with
    | core => exact .inl ⟨rest, h⟩
    | host x => exact .inr (.inl ⟨rest, x, (Host.Outcome.next.inj h).symm⟩)
    | rst => exact .inr (.inr ⟨rest, (Host.Outcome.next.inj h).symm⟩)

/-! ### Turns -/

/-- The core's turn reads neither the turns to come nor the last response, and leaves them alone. -/
theorem coreStep_withBus (s t : State) (ts : List Turn) (r : Option Response)
    (h : s.coreStep = .next t) : (s.withBus ts r).coreStep = .next (t.withBus ts r) := by
  unfold State.coreStep at h ⊢
  change (if s.status.busy then match decode s.cmd with
    | .ok i => exec i (s.withBus ts r)
    | .error _ => .next (illegalCommand (s.withBus ts r)) else .next (s.withBus ts r)) = _
  split
  · rename_i hb
    rw [if_pos hb] at h
    cases hd : decode s.cmd with
    | ok i => rw [hd] at h; exact exec_withBus i s t ts r h
    | error e => rw [hd] at h; cases h; rfl
  · rename_i hb
    rw [if_neg hb] at h
    cases h
    rfl

/-- A host read of STATUS answers its flags at any time and changes nothing (R50, R51). -/
theorem hostStep_readStatus (s : State) :
    s.hostStep (readTxn (.reg .status) 32) = s.respond (.okRead s.status.toWord) := by
  have ha : accept s.dmemSize (readTxn (.reg .status) 32) = some (.reg .status) :=
    accept_named _ rfl rfl (fun _ h => by cases h) (fun h => by cases h)
  rw [hostStep_read ha rfl]
  simp [Target.readableWhileBusy, State.readTarget, State.readReg]

end Sys2Proof.Machine
end

