-- ==== Sys2Proof/Laws/Merge.lean ====
section
/-! SUPPORT. Laws of BUILD's merge (R122 to R125): what the seeding lists, what removing the first node
of a pool does, and what every merge step keeps of the growing forest. -/

namespace Sys2Proof.Machine

/-! ### Seeding (R122) -/

/-- The leaf of a symbol. -/
def leafOf (f : SymTable Word) (s : Byte) : Node := .leaf s (entry f s).toNat

/-- R122: one leaf per symbol of the alphabet, in its order. -/
theorem seed_eq (f : SymTable Word) : seed f = (alphabet f).map (leafOf f) := by
  rw [seed, alphabet, ← List.filterMap_eq_map, List.filterMap_filter]
  congr 1
  funext s
  by_cases h : entry f s = 0#32 <;> simp [h, leafOf]

@[simp] theorem length_seed (f : SymTable Word) : (seed f).length = (alphabet f).length := by
  simp [seed_eq]

theorem mem_alphabet (f : SymTable Word) (s : Byte) : s ∈ alphabet f ↔ entry f s ≠ 0#32 := by
  simp [alphabet]

theorem nodup_alphabet (f : SymTable Word) : (alphabet f).Nodup := nodup_allSymbols.filter _

theorem length_alphabet_le (f : SymTable Word) : (alphabet f).length ≤ 256 := by
  rw [← length_allSymbols]
  exact List.length_filter_le _ _

/-- The leaves' frequencies add up to the sum of the table (R132). -/
theorem sum_freq_seed (f : SymTable Word) : ((seed f).map Node.freq).sum = freqTotal f := by
  have h : ∀ l : List Byte, (((l.filter fun s => entry f s ≠ 0#32).map (leafOf f)).map Node.freq).sum =
      (l.map fun s => (entry f s).toNat).sum := by
    intro l
    induction l with
    | nil => rfl
    | cons s l ih =>
      by_cases hs : entry f s = 0#32
      · simp only [List.filter_cons, hs, ne_eq, not_true_eq_false, decide_false, Bool.false_eq_true,
          if_false, List.map_cons, List.sum_cons, BitVec.toNat_zero, Nat.zero_add]
        exact ih
      · simp only [List.filter_cons, ne_eq, hs, not_false_eq_true, decide_true, if_true,
          List.map_cons, List.sum_cons]
        rw [← ih]
        rfl
  rw [seed_eq, alphabet, freqTotal]
  exact h allSymbols

/-! ### Removing the first node of a pool (R123) -/

theorem popFirst_eq_none (nodes : List Node) (pool : List Nat) :
    popFirst nodes pool = none ↔ pool = [] := by
  cases pool with
  | nil => simp [popFirst]
  | cons i pool =>
    simp only [popFirst, reduceCtorEq, iff_false]
    split
    · simp
    · split <;> simp

/-- R123, R124: the index removed and the rest are the pool, and nothing of the rest comes before the
index removed. -/
theorem popFirst_eq_some {nodes : List Node} {pool : List Nat} {i : Nat} {rest : List Nat}
    (h : popFirst nodes pool = some (i, rest)) :
    pool.Perm (i :: rest) ∧ ∀ j ∈ rest, ¬comesBefore nodes j i := by
  induction pool generalizing i rest with
  | nil => simp [popFirst] at h
  | cons a pool ih =>
    rw [popFirst] at h
    split at h
    · rename_i hn
      obtain ⟨rfl, rfl⟩ := by simpa using h
      rw [(popFirst_eq_none _ _).1 hn]
      simp
    · rename_i j r hj
      obtain ⟨hp, hle⟩ := ih hj
      split at h
      · rename_i hb
        obtain ⟨rfl, rfl⟩ := by simpa using h
        refine ⟨List.Perm.refl _, fun k hk => ?_⟩
        rcases List.mem_cons.1 (hp.mem_iff.1 hk) with rfl | hk'
        · simp only [comesBefore] at hb ⊢; omega
        · have := hle k hk'
          simp only [comesBefore] at hb this ⊢; omega
      · rename_i hb
        obtain ⟨rfl, rfl⟩ := by simpa using h
        refine ⟨(hp.cons a).trans (List.Perm.swap _ _ _), fun k hk => ?_⟩
        rcases List.mem_cons.1 hk with rfl | hk'
        · exact hb
        · exact hle k hk'

/-! ### The forest -/

/-- The children of a node. -/
def Node.children : Node → List Nat
  | .leaf _ _ => []
  | .internal _ l r => [l, r]

/-- All the children of the nodes of a forest, in node order. -/
def childList (nodes : List Node) : List Nat := nodes.flatMap Node.children

/-- A node is a leaf. -/
def Node.isLeaf : Node → Bool
  | .leaf _ _ => true
  | .internal _ _ _ => false

@[simp] theorem childList_append (u v : List Node) : childList (u ++ v) = childList u ++ childList v := by
  simp [childList]

theorem freqAt_append (u v : List Node) (i : Nat) (h : i < u.length) :
    freqAt (u ++ v) i = freqAt u i := by
  simp [freqAt, List.getElem?_append_left h]

/-- What holds of the forest after any number of merge steps from the given leaves (R124, R130). -/
structure Forest.Sound (leaves : List Node) (t : Forest) : Prop where
  /-- The leaves come first, and everything after them is internal. -/
  split : ∃ ints, t.nodes = leaves ++ ints ∧ ∀ n ∈ ints, n.isLeaf = false
  /-- Every index is in the pool or the child of one node, and of only one. -/
  parts : (childList t.nodes ++ t.pool).Perm (List.range t.nodes.length)
  /-- Children come before their parent. -/
  below : ∀ (i : Nat) (n : Node), t.nodes[i]? = some n → ∀ c ∈ n.children, c < i
  /-- An internal node's frequency is the sum of its children's. -/
  sums : ∀ (i f l r : Nat), t.nodes[i]? = some (.internal f l r) → f = freqAt t.nodes l + freqAt t.nodes r
  /-- Each merge adds a node and takes one from the pool. -/
  count : t.nodes.length + t.pool.length = 2 * leaves.length
  /-- The pool's frequencies add up to the leaves'. -/
  total : (t.pool.map (freqAt t.nodes)).sum = (leaves.map Node.freq).sum

theorem Forest.Sound.pool_lt {leaves : List Node} {t : Forest} (h : t.Sound leaves) {i : Nat}
    (hi : i ∈ t.pool) : i < t.nodes.length := by
  have := h.parts.mem_iff.1 (List.mem_append_right _ hi)
  simpa using this

/-- The seed forest is sound, for leaves that are all leaves. -/
theorem Forest.sound_seed (leaves : List Node) (hl : ∀ n ∈ leaves, n.isLeaf = true) :
    Forest.Sound leaves { nodes := leaves, pool := List.range' 0 leaves.length } := by
  have hc : ∀ (i : Nat) (n : Node), leaves[i]? = some n → n.children = [] := by
    intro i n hn
    have := hl n (List.mem_of_getElem? hn)
    cases n <;> simp_all [Node.isLeaf, Node.children]
  refine ⟨⟨[], by simp, by simp⟩, ?_, ?_, ?_, ?_, ?_⟩
  · have : childList leaves = [] := by
      simp only [childList, List.flatMap_eq_nil_iff]
      intro n hn
      obtain ⟨i, hi⟩ := List.mem_iff_getElem?.1 hn
      exact hc i n hi
    simp [this, List.range_eq_range']
  · intro i n hn c hcm
    rw [hc i n hn] at hcm
    cases hcm
  · intro i f l r hn
    have := hc i _ hn
    simp [Node.children] at this
  · simp; omega
  · congr 1
    apply List.ext_getElem
    · simp
    · intro i h1 h2
      simp only [List.length_map] at h2
      simp [freqAt, h2]

/-- A merge step of a sound forest with at least two nodes in the pool: what it removes, and the new
forest, which is sound. -/
theorem Forest.mergeOnce_spec {leaves : List Node} {t : Forest} (h : t.Sound leaves)
    (hp : 1 < t.pool.length) :
    ∃ a b rest, t.pool.Perm (a :: b :: rest) ∧
      (∀ j ∈ b :: rest, comesBefore t.nodes a j) ∧ (∀ j ∈ rest, comesBefore t.nodes b j) ∧
      t.mergeOnce = { nodes := t.nodes ++ [.internal (freqAt t.nodes a + freqAt t.nodes b) a b]
                      pool := rest ++ [t.nodes.length] } ∧
      t.mergeOnce.Sound leaves := by
  obtain ⟨⟨a, pool⟩, ha⟩ : ∃ x, popFirst t.nodes t.pool = some x := by
    rw [← Option.isSome_iff_exists, Option.isSome_iff_ne_none, ne_eq, popFirst_eq_none]
    intro e; simp [e] at hp
  obtain ⟨pa, la⟩ := popFirst_eq_some ha
  have hlen := pa.length_eq
  simp only [List.length_cons] at hlen
  obtain ⟨⟨b, rest⟩, hb⟩ : ∃ x, popFirst t.nodes pool = some x := by
    rw [← Option.isSome_iff_exists, Option.isSome_iff_ne_none, ne_eq, popFirst_eq_none]
    intro e; simp [e] at hlen; omega
  obtain ⟨pb, lb⟩ := popFirst_eq_some hb
  have hperm : t.pool.Perm (a :: b :: rest) := pa.trans (pb.cons a)
  have hnd : t.pool.Nodup :=
    ((h.parts.nodup_iff.2 List.nodup_range).of_append_right)
  have hnd' : (a :: b :: rest).Nodup := hperm.nodup_iff.1 hnd
  have step : t.mergeOnce =
      { nodes := t.nodes ++ [.internal (freqAt t.nodes a + freqAt t.nodes b) a b]
        pool := rest ++ [t.nodes.length] } := by
    simp [Forest.mergeOnce, ha, hb]
  have hlt : ∀ j ∈ a :: b :: rest, j < t.nodes.length := fun j hj => h.pool_lt (hperm.mem_iff.2 hj)
  have hal := hlt a (by simp)
  have hbl := hlt b (by simp)
  refine ⟨a, b, rest, hperm, ?_, ?_, step, ?_⟩
  · intro j hj
    have h1 := la j (pb.mem_iff.2 hj)
    have h2 : j ≠ a := by
      intro e; subst e; exact (List.nodup_cons.1 hnd').1 hj
    simp only [comesBefore] at h1 ⊢; omega
  · intro j hj
    have h1 := lb j hj
    have h2 : j ≠ b := by
      intro e; subst e; exact (List.nodup_cons.1 (List.nodup_cons.1 hnd').2).1 hj
    simp only [comesBefore] at h1 ⊢; omega
  · rw [step]
    refine ⟨?_, ?_, ?_, ?_, ?_, ?_⟩
    · obtain ⟨ints, hi, hn⟩ := h.split
      refine ⟨ints ++ [.internal (freqAt t.nodes a + freqAt t.nodes b) a b], by simp [hi], ?_⟩
      intro n hm
      rcases List.mem_append.1 hm with hm | hm
      · exact hn n hm
      · rw [List.mem_singleton.1 hm]; rfl
    · show (childList (t.nodes ++ [_]) ++ (rest ++ [t.nodes.length])).Perm
        (List.range (t.nodes ++ [_]).length)
      rw [List.length_append, List.length_singleton, List.range_succ, childList_append,
        ← List.append_assoc]
      refine List.Perm.append_right _ ?_
      have : (childList t.nodes ++ [a, b] ++ rest).Perm (childList t.nodes ++ t.pool) := by
        rw [List.append_assoc]
        exact List.Perm.append_left _ hperm.symm
      exact this.trans h.parts
    · intro i n hn c hc
      rw [List.getElem?_append] at hn
      split at hn
      · exact h.below i n hn c hc
      · rename_i hi
        have : i - t.nodes.length = 0 := by
          have := (List.getElem?_eq_some_iff.1 hn).1
          simp at this; omega
        rw [this] at hn
        obtain rfl := by simpa using hn
        simp only [Node.children, List.mem_cons, List.not_mem_nil, or_false] at hc
        rcases hc with rfl | rfl <;> omega
    · intro i f l r hn
      rw [List.getElem?_append] at hn
      split at hn
      · rename_i hi
        have hl := h.below i _ hn l (by simp [Node.children])
        have hr := h.below i _ hn r (by simp [Node.children])
        rw [freqAt_append _ _ _ (by omega), freqAt_append _ _ _ (by omega)]
        exact h.sums i f l r hn
      · rename_i hi
        have : i - t.nodes.length = 0 := by
          have := (List.getElem?_eq_some_iff.1 hn).1
          simp at this; omega
        rw [this] at hn
        obtain ⟨rfl, rfl, rfl⟩ := by simpa using hn
        rw [freqAt_append _ _ _ hal, freqAt_append _ _ _ hbl]
    · have := h.count
      have hl := hperm.length_eq
      simp at hl ⊢; omega
    · have e1 : ∀ j ∈ rest, freqAt (t.nodes ++
          [.internal (freqAt t.nodes a + freqAt t.nodes b) a b]) j = freqAt t.nodes j :=
        fun j hj => freqAt_append _ _ _ (hlt j (by simp [hj]))
      have e2 : freqAt (t.nodes ++ [.internal (freqAt t.nodes a + freqAt t.nodes b) a b])
          t.nodes.length = freqAt t.nodes a + freqAt t.nodes b := by
        simp [freqAt, Node.freq]
      have e3 := (hperm.map (freqAt t.nodes)).sum_eq
      simp only [List.map_cons, List.sum_cons] at e3
      show ((rest ++ [t.nodes.length]).map _).sum = _
      rw [List.map_append, List.sum_append, List.map_congr_left e1, ← h.total, e3]
      simp only [List.map_cons, List.map_nil, List.sum_cons, List.sum_nil, e2]
      omega

/-- The whole merge keeps soundness, and enough steps leave at most one node in the pool. -/
theorem Forest.mergeAll_spec {leaves : List Node} (n : Nat) {t : Forest} (h : t.Sound leaves)
    (hn : t.pool.length ≤ n + 1) :
    (t.mergeAll n).Sound leaves ∧ (t.mergeAll n).pool.length ≤ 1 ∧
      ((t.mergeAll n).pool = [] → t.pool = []) := by
  induction n generalizing t with
  | zero => exact ⟨h, hn, id⟩
  | succ n ih =>
    rw [Forest.mergeAll]
    split
    · rename_i hp
      obtain ⟨a, b, rest, hperm, -, -, hs, hsound⟩ := Forest.mergeOnce_spec h hp
      have hl := hperm.length_eq
      have := ih hsound (by rw [hs]; simp at hl ⊢; omega)
      refine ⟨this.1, this.2.1, fun e => ?_⟩
      have := this.2.2 e
      rw [hs] at this
      simp at this
    · exact ⟨h, by omega, id⟩

theorem isLeaf_of_mem_seed (f : SymTable Word) (n : Node) (h : n ∈ seed f) : n.isLeaf = true := by
  rw [seed_eq] at h
  obtain ⟨s, -, rfl⟩ := List.mem_map.1 h
  rfl

theorem huffmanForest_sound (f : SymTable Word) : (huffmanForest f).Sound (seed f) :=
  (Forest.mergeAll_spec _ (Forest.sound_seed _ (isLeaf_of_mem_seed f)) (by simp)).1

/-- R125: for an empty alphabet the pool is empty; otherwise it holds one index, the last node's. -/
theorem huffmanForest_pool (f : SymTable Word) :
    (huffmanForest f).pool =
      if (alphabet f).length = 0 then [] else [(huffmanForest f).nodes.length - 1] := by
  have hs := huffmanForest_sound f
  obtain ⟨-, h1, h2⟩ :=
    Forest.mergeAll_spec (seed f).length (Forest.sound_seed _ (isLeaf_of_mem_seed f)) (by simp)
  change (huffmanForest f).pool.length ≤ 1 at h1
  change (huffmanForest f).pool = [] → _ at h2
  have hc := hs.count
  rw [length_seed] at hc
  split
  · rename_i hk
    apply List.eq_nil_of_length_eq_zero
    omega
  · rename_i hk
    have hne : (huffmanForest f).pool ≠ [] := fun e => by
      have h3 : List.range' 0 (seed f).length = [] := h2 e
      have := congrArg List.length h3
      simp only [List.length_range', length_seed, List.length_nil] at this
      omega
    have hlen : (huffmanForest f).nodes.length ≠ 0 := by
      obtain ⟨x, hx⟩ := List.exists_mem_of_ne_nil _ hne
      have := hs.pool_lt hx
      omega
    have hmem : (huffmanForest f).nodes.length - 1 ∈
        childList (huffmanForest f).nodes ++ (huffmanForest f).pool := by
      rw [hs.parts.mem_iff]; simp; omega
    rcases List.mem_append.1 hmem with hm | hm
    · obtain ⟨n, hn, hc⟩ := List.mem_flatMap.1 hm
      obtain ⟨i, hi⟩ := List.mem_iff_getElem?.1 hn
      have h3 := hs.below i n hi _ hc
      have h4 := (List.getElem?_eq_some_iff.1 hi).1
      omega
    · match hpool : (huffmanForest f).pool with
      | [] => exact absurd hpool hne
      | [x] => rw [hpool] at hm; simp at hm; rw [hm]
      | _ :: _ :: _ => rw [hpool] at h1; simp at h1

/-- R126: a tree of k > 0 leaves has 2k - 1 nodes. -/
theorem length_huffmanForest (f : SymTable Word) :
    (huffmanForest f).nodes.length = nodeCountOf (alphabet f).length := by
  have hc := (huffmanForest_sound f).count
  have hp := huffmanForest_pool f
  rw [length_seed] at hc
  unfold nodeCountOf
  by_cases hk : (alphabet f).length = 0
  · rw [if_pos hk] at hp ⊢
    rw [hp, List.length_nil] at hc
    omega
  · rw [if_neg hk] at hp ⊢
    rw [hp, List.length_singleton] at hc
    omega

/-- R125: the root of the tree. -/
theorem huffmanForest_root (f : SymTable Word) :
    (huffmanForest f).root =
      if (alphabet f).length = 0 then none else some (2 * (alphabet f).length - 2) := by
  rw [Forest.root, huffmanForest_pool]
  split
  · rfl
  · rename_i hk
    rw [length_huffmanForest, nodeCountOf, if_neg hk]
    simp; omega

/-- R132: the root's frequency is the sum of the table. -/
theorem freqAt_root (f : SymTable Word) (h : (alphabet f).length ≠ 0) :
    freqAt (huffmanForest f).nodes (2 * (alphabet f).length - 2) = freqTotal f := by
  have ht := (huffmanForest_sound f).total
  rw [huffmanForest_pool, if_neg h, sum_freq_seed, length_huffmanForest, nodeCountOf, if_neg h] at ht
  simpa [show 2 * (alphabet f).length - 1 - 1 = 2 * (alphabet f).length - 2 by omega] using ht

/-- R45, R122: slots 0 .. k - 1 are the leaves in ascending symbol order. -/
theorem huffmanForest_leaf (f : SymTable Word) (i : Nat) (h : i < (alphabet f).length) :
    (huffmanForest f).nodes[i]? = some (leafOf f (alphabet f)[i]) := by
  obtain ⟨ints, hi, -⟩ := (huffmanForest_sound f).split
  rw [hi, List.getElem?_append_left (by simpa using h)]
  simp [seed_eq, h]

/-- R45: slots k .. 2k - 2 are internal nodes, whose children are distinct and come before them. -/
theorem huffmanForest_internal (f : SymTable Word) (i : Nat) (h1 : (alphabet f).length ≤ i)
    (h2 : i < (huffmanForest f).nodes.length) :
    ∃ q l r, (huffmanForest f).nodes[i]? = some (.internal q l r) ∧ l < i ∧ r < i ∧
      q = freqAt (huffmanForest f).nodes l + freqAt (huffmanForest f).nodes r := by
  have hs := huffmanForest_sound f
  obtain ⟨ints, hi, hn⟩ := hs.split
  have hge : (seed f).length ≤ i := by simpa using h1
  have hmem : (huffmanForest f).nodes[i] ∈ ints := by
    have : (huffmanForest f).nodes[i] = ints[i - (seed f).length]'(by
        rw [hi] at h2; simp at h2; simp; omega) := by
      rw [List.getElem_of_eq hi, List.getElem_append_right hge]
    rw [this]; exact List.getElem_mem _
  have hleaf := hn _ hmem
  match hnode : (huffmanForest f).nodes[i] with
  | .leaf _ _ => rw [hnode] at hleaf; simp [Node.isLeaf] at hleaf
  | .internal q l r =>
    have hget : (huffmanForest f).nodes[i]? = some (.internal q l r) := by
      rw [List.getElem?_eq_getElem h2, hnode]
    exact ⟨q, l, r, hget, hs.below i _ hget l (by simp [Node.children]),
      hs.below i _ hget r (by simp [Node.children]), hs.sums i q l r hget⟩

/-! ### The order of the merges (R123, R124) -/

/-- R123, R124: every internal node's left child comes before everything else that was in the pool when
it was made, and its right child before the rest of that. -/
def Forest.Greedy (t : Forest) : Prop :=
  ∀ (n q a b : Nat), t.nodes[n]? = some (.internal q a b) → ∀ j, j < n →
    (∀ (m : Nat) (x : Node), m < n → t.nodes[m]? = some x → j ∉ x.children) →
    j ≠ a → comesBefore t.nodes a j ∧ (j ≠ b → comesBefore t.nodes b j)

theorem comesBefore_append (u v : List Node) (i j : Nat) (hi : i < u.length) (hj : j < u.length) :
    comesBefore (u ++ v) i j ↔ comesBefore u i j := by
  simp only [comesBefore, freqAt_append _ _ _ hi, freqAt_append _ _ _ hj]

/-- An index that is no node's child is in the pool. -/
theorem Forest.Sound.mem_pool {leaves : List Node} {t : Forest} (h : t.Sound leaves) {j : Nat}
    (hj : j < t.nodes.length) (hc : ∀ (m : Nat) (x : Node), t.nodes[m]? = some x → j ∉ x.children) :
    j ∈ t.pool := by
  have hm : j ∈ childList t.nodes ++ t.pool := by rw [h.parts.mem_iff]; simpa using hj
  rcases List.mem_append.1 hm with hm | hm
  · obtain ⟨x, hx, hjx⟩ := List.mem_flatMap.1 hm
    obtain ⟨m, hm⟩ := List.mem_iff_getElem?.1 hx
    exact absurd hjx (hc m x hm)
  · exact hm

theorem Forest.mergeOnce_greedy {leaves : List Node} {t : Forest} (h : t.Sound leaves)
    (hg : t.Greedy) (hp : 1 < t.pool.length) : t.mergeOnce.Greedy := by
  obtain ⟨a, b, rest, hperm, ha, hb, hs, -⟩ := Forest.mergeOnce_spec h hp
  have hlt : ∀ j ∈ a :: b :: rest, j < t.nodes.length := fun j hj => h.pool_lt (hperm.mem_iff.2 hj)
  rw [hs]
  intro n q l r hn j hj hc hne
  change (t.nodes ++ [_])[n]? = _ at hn
  rw [List.getElem?_append] at hn
  split at hn
  · rename_i hlen
    have hl := h.below n _ hn l (by simp [Node.children])
    have hr := h.below n _ hn r (by simp [Node.children])
    have hc' : ∀ (m : Nat) (x : Node), m < n → t.nodes[m]? = some x → j ∉ x.children :=
      fun m x hm hx => hc m x hm (by
        rw [List.getElem?_append_left (by omega)]; exact hx)
    obtain ⟨h1, h2⟩ := hg n q l r hn j hj hc' hne
    exact ⟨(comesBefore_append _ _ _ _ (by omega) (by omega)).2 h1,
      fun hjr => (comesBefore_append _ _ _ _ (by omega) (by omega)).2 (h2 hjr)⟩
  · rename_i hlen
    have h0 : n - t.nodes.length = 0 := by
      have := (List.getElem?_eq_some_iff.1 hn).1
      simp at this; omega
    rw [h0] at hn
    obtain ⟨rfl, rfl, rfl⟩ := by simpa using hn
    have hjl : j < t.nodes.length := by omega
    have hmem := h.mem_pool hjl fun m x hx => hc m x (by
      have := (List.getElem?_eq_some_iff.1 hx).1; omega) (by
        rw [List.getElem?_append_left (List.getElem?_eq_some_iff.1 hx).1]; exact hx)
    rcases List.mem_cons.1 (hperm.mem_iff.1 hmem) with e | hm
    · exact absurd e hne
    · refine ⟨(comesBefore_append _ _ _ _ (hlt _ (by simp)) hjl).2 (ha j hm), fun hjr => ?_⟩
      rcases List.mem_cons.1 hm with e | hm
      · exact absurd e hjr
      · exact (comesBefore_append _ _ _ _ (hlt _ (by simp)) hjl).2 (hb j hm)

theorem Forest.mergeAll_greedy {leaves : List Node} (n : Nat) {t : Forest} (h : t.Sound leaves)
    (hg : t.Greedy) : (t.mergeAll n).Greedy := by
  induction n generalizing t with
  | zero => exact hg
  | succ n ih =>
    rw [Forest.mergeAll]
    split
    · rename_i hp
      obtain ⟨_, _, _, -, -, -, -, hsound⟩ := Forest.mergeOnce_spec h hp
      exact ih hsound (Forest.mergeOnce_greedy h hg hp)
    · exact hg

theorem huffmanForest_greedy (f : SymTable Word) : (huffmanForest f).Greedy := by
  refine Forest.mergeAll_greedy _ (Forest.sound_seed _ (isLeaf_of_mem_seed f)) ?_
  intro n q a b hn
  have := isLeaf_of_mem_seed f _ (List.mem_of_getElem? hn)
  simp [Node.isLeaf] at this

end Sys2Proof.Machine
end

