-- ==== Sys2Proof/Laws/Codes.lean ====
section
/-! SUPPORT. Laws of BUILD's code deriver (R127, R131, R134, R135): paths in the tree of a sound forest,
the codes the walk records, and that each symbol of the alphabet gets exactly one. -/

namespace Sys2Proof.Machine

/-! ### Paths -/

/-- The node a path leads to from node `i`: left for 0, right for 1 (R13); none past a leaf. -/
def follow (nodes : List Node) : Nat → List Bool → Option Nat
  | i, [] => some i
  | i, b :: p =>
    match nodes[i]? with
    | some (.internal _ l r) => follow nodes (if b then r else l) p
    | _ => none

@[simp] theorem follow_nil (nodes : List Node) (i : Nat) : follow nodes i [] = some i := rfl

theorem follow_internal {nodes : List Node} {i q l r : Nat} (h : nodes[i]? = some (.internal q l r))
    (b : Bool) (p : List Bool) : follow nodes i (b :: p) = follow nodes (if b then r else l) p := by
  simp [follow, h]

theorem follow_leaf {nodes : List Node} {i q : Nat} {s : Byte} (h : nodes[i]? = some (.leaf s q))
    (p : List Bool) : follow nodes i p = if p = [] then some i else none := by
  cases p <;> simp [follow, h]

theorem follow_append (nodes : List Node) (i : Nat) (p q : List Bool) :
    follow nodes i (p ++ q) = (follow nodes i p).bind fun j => follow nodes j q := by
  induction p generalizing i with
  | nil => simp
  | cons b p ih =>
    rw [List.cons_append, follow, follow]
    split
    · exact ih _
    · rfl

/-- A nonempty path leads from an internal node. -/
theorem follow_cons_some {nodes : List Node} {i j : Nat} {b : Bool} {p : List Bool}
    (h : follow nodes i (b :: p) = some j) :
    ∃ q l r, nodes[i]? = some (.internal q l r) ∧ follow nodes (if b then r else l) p = some j := by
  rw [follow] at h
  split at h
  · rename_i q l r hn
    exact ⟨q, l, r, hn, h⟩
  · cases h

/-- The last step of a nonempty path. -/
theorem follow_concat_some {nodes : List Node} {i j : Nat} {p : List Bool} {b : Bool}
    (h : follow nodes i (p ++ [b]) = some j) :
    ∃ m q l r, follow nodes i p = some m ∧ nodes[m]? = some (.internal q l r) ∧
      j = if b then r else l := by
  rw [follow_append] at h
  cases hm : follow nodes i p with
  | none => simp [hm] at h
  | some m =>
    rw [hm, Option.bind_some] at h
    obtain ⟨q, l, r, hn, hj⟩ := follow_cons_some h
    exact ⟨m, q, l, r, rfl, hn, by simpa using hj.symm⟩

/-! ### Paths in a sound forest -/

section
variable {leaves : List Node} {t : Forest}

theorem Forest.Sound.child_lt (h : t.Sound leaves) {i q l r : Nat} (b : Bool)
    (hn : t.nodes[i]? = some (.internal q l r)) : (if b then r else l) < i := by
  cases b
  · exact h.below i _ hn l (by simp [Node.children])
  · exact h.below i _ hn r (by simp [Node.children])

/-- A path goes down in index. -/
theorem Forest.Sound.follow_le (h : t.Sound leaves) {i j : Nat} {p : List Bool}
    (hp : follow t.nodes i p = some j) : j + p.length ≤ i := by
  induction p generalizing i with
  | nil => simp at hp; simp [hp]
  | cons b p ih =>
    obtain ⟨q, l, r, hn, hp⟩ := follow_cons_some hp
    have h1 := ih hp
    have h2 := h.child_lt b hn
    simp only [List.length_cons]
    omega

/-- A leaf's index is below the number of leaves, an internal node's is not. -/
theorem Forest.Sound.internal_ge (h : t.Sound leaves) (hl : ∀ n ∈ leaves, n.isLeaf = true)
    {i q l r : Nat} (hn : t.nodes[i]? = some (.internal q l r)) : leaves.length ≤ i := by
  apply Nat.le_of_not_lt
  intro hi
  obtain ⟨ints, he, -⟩ := h.split
  rw [he, List.getElem?_append_left hi] at hn
  have := hl _ (List.mem_of_getElem? hn)
  simp [Node.isLeaf] at this

/-- R134: a path from a node has at most as many steps as there are internal nodes up to it. -/
theorem Forest.Sound.path_length (h : t.Sound leaves) (hl : ∀ n ∈ leaves, n.isLeaf = true)
    {i j : Nat} {p : List Bool} (hp : follow t.nodes i p = some j) :
    p.length ≤ i + 1 - leaves.length := by
  induction p generalizing i with
  | nil => simp
  | cons b p ih =>
    obtain ⟨q, l, r, hn, hp⟩ := follow_cons_some hp
    have h1 := ih hp
    have h2 := h.child_lt b hn
    have h3 := h.internal_ge hl hn
    simp only [List.length_cons]
    omega

theorem Forest.Sound.nodup_childList (h : t.Sound leaves) : (childList t.nodes).Nodup :=
  (h.parts.nodup_iff.2 List.nodup_range).of_append_left

/-- A node is the child of at most one node, and on one side. -/
theorem Forest.Sound.parent_unique (h : t.Sound leaves) {i i' q q' l l' r r' : Nat} {b b' : Bool}
    (hn : t.nodes[i]? = some (.internal q l r)) (hn' : t.nodes[i']? = some (.internal q' l' r'))
    (hj : (if b then r else l) = if b' then r' else l') : i = i' ∧ b = b' := by
  obtain ⟨hown, hdis⟩ := List.nodup_flatMap.1 h.nodup_childList
  have hi : i = i' := by
    rw [List.pairwise_iff_getElem] at hdis
    obtain ⟨hi1, hi2⟩ := List.getElem?_eq_some_iff.1 hn
    obtain ⟨hi1', hi2'⟩ := List.getElem?_eq_some_iff.1 hn'
    have m1 : (if b then r else l) ∈ t.nodes[i].children := by
      rw [hi2]; cases b <;> simp [Node.children]
    have m2 : (if b then r else l) ∈ t.nodes[i'].children := by
      rw [hj, hi2']; cases b' <;> simp [Node.children]
    rcases Nat.lt_trichotomy i i' with hlt | heq | hgt
    · exact absurd m2 (hdis i i' hi1 hi1' hlt m1)
    · exact heq
    · exact absurd m1 (hdis i' i hi1' hi1 hgt m2)
  subst hi
  rw [hn] at hn'
  obtain ⟨rfl, rfl, rfl⟩ := by simpa using hn'
  refine ⟨rfl, ?_⟩
  have hne : l ≠ r := by
    have := hown _ (List.mem_of_getElem? hn)
    simpa [Node.children] using this
  cases b <;> cases b' <;> simp_all

/-- Two paths from one node to one node are the same path. -/
theorem Forest.Sound.path_unique (h : t.Sound leaves) {i j : Nat} {p p' : List Bool}
    (hp : follow t.nodes i p = some j) (hp' : follow t.nodes i p' = some j) : p = p' := by
  induction p using List.reverseRecOn generalizing j p' with
  | nil =>
    have h1 := h.follow_le hp'
    simp only [follow_nil, Option.some.injEq] at hp
    exact (List.eq_nil_of_length_eq_zero (by omega)).symm
  | append_singleton p b ih =>
    induction p' using List.reverseRecOn with
    | nil =>
      have h1 := h.follow_le hp
      simp only [follow_nil, Option.some.injEq] at hp'
      simp only [List.length_append, List.length_singleton] at h1
      omega
    | append_singleton p' b' _ =>
      obtain ⟨m, q, l, r, hm, hn, hj⟩ := follow_concat_some hp
      obtain ⟨m', q', l', r', hm', hn', hj'⟩ := follow_concat_some hp'
      obtain ⟨rfl, rfl⟩ := h.parent_unique hn hn' (hj.symm.trans hj')
      rw [ih hm hm']

/-- With one node left in the pool, every node is reached from it. -/
theorem Forest.Sound.reached (h : t.Sound leaves) {root : Nat} (hpool : t.pool = [root]) (j : Nat)
    (hj : j < t.nodes.length) : ∃ p, follow t.nodes root p = some j := by
  induction hk : t.nodes.length - j using Nat.strongRecOn generalizing j with
  | _ k ih =>
    have hmem : j ∈ childList t.nodes ++ t.pool := by
      rw [h.parts.mem_iff]; simpa using hj
    rcases List.mem_append.1 hmem with hm | hm
    · obtain ⟨n, hn, hc⟩ := List.mem_flatMap.1 hm
      obtain ⟨i, hi⟩ := List.mem_iff_getElem?.1 hn
      have hlt := h.below i n hi j hc
      have hil := (List.getElem?_eq_some_iff.1 hi).1
      obtain ⟨p, hp⟩ := ih (t.nodes.length - i) (by omega) i hil rfl
      match n, hc, hi with
      | .internal q l r, hc, hi =>
        simp only [Node.children, List.mem_cons, List.not_mem_nil, or_false] at hc
        rcases hc with rfl | rfl
        · exact ⟨p ++ [false], by rw [follow_append, hp, Option.bind_some, follow_internal hi]; simp⟩
        · exact ⟨p ++ [true], by rw [follow_append, hp, Option.bind_some, follow_internal hi]; simp⟩
    · rw [hpool, List.mem_singleton] at hm
      exact ⟨[], by simp [hm]⟩

/-- R131: of two paths from one node to leaves, neither is a proper prefix of the other. -/
theorem follow_leaf_prefix {nodes : List Node} {i j j' q : Nat} {s : Byte} {p p' : List Bool}
    (hp : follow nodes i p = some j) (hl : nodes[j]? = some (.leaf s q))
    (hp' : follow nodes i p' = some j') (hpre : p <+: p') : p' = p ∧ j' = j := by
  obtain ⟨u, rfl⟩ := hpre
  rw [follow_append, hp, Option.bind_some, follow_leaf hl] at hp'
  split at hp'
  · rename_i hu
    subst hu
    exact ⟨by simp, by simpa using hp'.symm⟩
  · cases hp'

/-! ### The walk -/

/-- R127: the walk from node `i` records exactly the leaves below it, each with its path. -/
theorem mem_walkCodes (h : t.Sound leaves) (fuel i : Nat) (path : List Bool) (hf : i < fuel)
    (s : Byte) (c : List Bool) :
    (s, c) ∈ walkCodes t.nodes fuel i path ↔
      ∃ p j q, c = path ++ p ∧ follow t.nodes i p = some j ∧ t.nodes[j]? = some (.leaf s q) := by
  induction fuel generalizing i path with
  | zero => omega
  | succ fuel ih =>
    rw [walkCodes]
    split
    · rename_i hn
      simp only [List.not_mem_nil, false_iff]
      rintro ⟨p, j, q, -, hp, hl⟩
      cases p with
      | nil => simp at hp; rw [← hp, hn] at hl; cases hl
      | cons b p =>
        obtain ⟨_, _, _, hn', -⟩ := follow_cons_some hp
        rw [hn] at hn'; cases hn'
    · rename_i s' q' hn
      rw [List.mem_singleton, Prod.mk.injEq]
      constructor
      · rintro ⟨rfl, rfl⟩
        exact ⟨[], i, q', by simp, by simp, hn⟩
      · rintro ⟨p, j, q, rfl, hp, hl⟩
        rw [follow_leaf hn] at hp
        split at hp
        · rename_i hp0
          subst hp0
          obtain rfl : i = j := by simpa using hp
          rw [hn] at hl
          simp at hl
          simp [hl.1]
        · cases hp
    · rename_i q' l r hn
      have hl' := h.child_lt false hn
      have hr' := h.child_lt true hn
      simp only [Bool.false_eq_true, if_false, if_true] at hl' hr'
      rw [List.mem_append, ih l _ (by omega), ih r _ (by omega)]
      constructor
      · rintro (⟨p, j, q, rfl, hp, hl⟩ | ⟨p, j, q, rfl, hp, hl⟩)
        · exact ⟨false :: p, j, q, by simp, by rw [follow_internal hn]; simpa using hp, hl⟩
        · exact ⟨true :: p, j, q, by simp, by rw [follow_internal hn]; simpa using hp, hl⟩
      · rintro ⟨p, j, q, rfl, hp, hl⟩
        cases p with
        | nil => simp at hp; rw [← hp, hn] at hl; cases hl
        | cons b p =>
          rw [follow_internal hn] at hp
          cases b
          · exact .inl ⟨p, j, q, by simp, by simpa using hp, hl⟩
          · exact .inr ⟨p, j, q, by simp, by simpa using hp, hl⟩

/-- Every code of the walk begins with the path so far. -/
theorem walkCodes_prefix (nodes : List Node) (fuel i : Nat) (path : List Bool) (e : Byte × List Bool)
    (he : e ∈ walkCodes nodes fuel i path) : path <+: e.2 := by
  induction fuel generalizing i path with
  | zero => simp [walkCodes] at he
  | succ fuel ih =>
    rw [walkCodes] at he
    split at he
    · simp at he
    · rw [List.mem_singleton] at he; subst he; exact List.prefix_refl _
    · rcases List.mem_append.1 he with he | he
      · exact (List.prefix_append _ _).trans (ih _ _ he)
      · exact (List.prefix_append _ _).trans (ih _ _ he)

/-- No two records of the walk have the same code. -/
theorem walkCodes_nodup (nodes : List Node) (fuel i : Nat) (path : List Bool) :
    ((walkCodes nodes fuel i path).map (·.2)).Nodup := by
  induction fuel generalizing i path with
  | zero => simp [walkCodes]
  | succ fuel ih =>
    rw [walkCodes]
    split
    · simp
    · simp
    · rw [List.map_append, List.nodup_append]
      refine ⟨ih _ _, ih _ _, ?_⟩
      intro a ha b hb hab
      obtain ⟨e, he, rfl⟩ := List.mem_map.1 ha
      obtain ⟨e', he', rfl⟩ := List.mem_map.1 hb
      obtain ⟨u, hu⟩ := walkCodes_prefix _ _ _ _ _ he
      obtain ⟨u', hu'⟩ := walkCodes_prefix _ _ _ _ _ he'
      rw [hab] at hu
      have := hu.trans hu'.symm
      simp at this

/-- R135 on the walk: the weights 2^(N - length) of its codes add up to the weight of its start. -/
theorem walkCodes_weight (h : t.Sound leaves) (N fuel i : Nat) (path : List Bool) (hf : i < fuel)
    (hi : i < t.nodes.length) (hN : path.length + i ≤ N) :
    ((walkCodes t.nodes fuel i path).map fun e => 2 ^ (N - e.2.length)).sum =
      2 ^ (N - path.length) := by
  induction fuel generalizing i path with
  | zero => omega
  | succ fuel ih =>
    rw [walkCodes]
    split
    · rename_i hn
      rw [List.getElem?_eq_none_iff] at hn
      omega
    · simp
    · rename_i q l r hn
      have hl := h.child_lt false hn
      have hr := h.child_lt true hn
      simp only [Bool.false_eq_true, if_false, if_true] at hl hr
      rw [List.map_append, List.sum_append, ih l _ (by omega) (by omega) (by simp; omega),
        ih r _ (by omega) (by omega) (by simp; omega)]
      simp only [List.length_append, List.length_singleton]
      have : N - path.length = (N - (path.length + 1)) + 1 := by omega
      rw [this, Nat.pow_succ]
      omega

end

/-! ### The codes of a frequency table -/

/-- The codes BUILD derives from a frequency table (R127). -/
def huffmanCodes (f : SymTable Word) : List (Byte × List Bool) :=
  deriveCodes (huffmanForest f) (seed f).length

/-- The leaf of each symbol of the alphabet is one of the nodes, and every leaf is one of these. -/
theorem leaf_iff_mem_alphabet (f : SymTable Word) (s : Byte) :
    (∃ j q : Nat, (huffmanForest f).nodes[j]? = some (.leaf s q)) ↔ s ∈ alphabet f := by
  have hs := huffmanForest_sound f
  constructor
  · rintro ⟨j, q, hj⟩
    by_cases hk : j < (alphabet f).length
    · rw [huffmanForest_leaf f j hk] at hj
      simp only [leafOf, Option.some.injEq, Node.leaf.injEq] at hj
      rw [← hj.1]
      exact List.getElem_mem _
    · obtain ⟨q', l, r, hn, -⟩ := huffmanForest_internal f j (by omega)
        (List.getElem?_eq_some_iff.1 hj).1
      rw [hj] at hn; cases hn
  · intro hm
    obtain ⟨j, hj, rfl⟩ := List.mem_iff_getElem.1 hm
    exact ⟨j, _, huffmanForest_leaf f j hj⟩

/-- Leaves with the same symbol are the same node. -/
theorem leaf_index_unique (f : SymTable Word) {j j' q q' : Nat} {s : Byte}
    (h : (huffmanForest f).nodes[j]? = some (.leaf s q))
    (h' : (huffmanForest f).nodes[j']? = some (.leaf s q')) : j = j' := by
  have key : ∀ {j q}, (huffmanForest f).nodes[j]? = some (.leaf s q) →
      ∃ hk : j < (alphabet f).length, (alphabet f)[j] = s := by
    intro j q hj
    by_cases hk : j < (alphabet f).length
    · rw [huffmanForest_leaf f j hk] at hj
      simp only [leafOf, Option.some.injEq, Node.leaf.injEq] at hj
      exact ⟨hk, hj.1⟩
    · obtain ⟨q', l, r, hn, -⟩ := huffmanForest_internal f j (by omega)
        (List.getElem?_eq_some_iff.1 hj).1
      rw [hj] at hn; cases hn
  obtain ⟨hk, e⟩ := key h
  obtain ⟨hk', e'⟩ := key h'
  exact (List.Nodup.getElem_inj_iff (nodup_alphabet f)).1 (e.trans e'.symm)

/-- With at least two symbols, the codes are the paths from the root to the leaves. -/
theorem mem_huffmanCodes (f : SymTable Word) (hk : 2 ≤ (alphabet f).length) (s : Byte)
    (c : List Bool) :
    (s, c) ∈ huffmanCodes f ↔ ∃ j q,
      follow (huffmanForest f).nodes (2 * (alphabet f).length - 2) c = some j ∧
        (huffmanForest f).nodes[j]? = some (.leaf s q) := by
  have hlen := length_huffmanForest f
  rw [nodeCountOf, if_neg (by omega)] at hlen
  rw [huffmanCodes, deriveCodes, huffmanForest_root, if_neg (by omega), length_seed]
  simp only
  rw [if_neg (by omega), mem_walkCodes (huffmanForest_sound f) _ _ _ (by omega)]
  simp

/-- With one symbol, its code is the one bit 0 (R127). -/
theorem huffmanCodes_single (f : SymTable Word) (s : Byte) (h : alphabet f = [s]) :
    huffmanCodes f = [(s, [false])] := by
  rw [huffmanCodes, deriveCodes, huffmanForest_root, length_seed]
  have h0 := huffmanForest_leaf f 0 (by simp [h])
  simp only [h, List.length_singleton, List.getElem_cons_zero] at h0 ⊢
  simp [h0, leafOf]

/-- With no symbol there is no code (R127). -/
theorem huffmanCodes_empty (f : SymTable Word) (h : alphabet f = []) : huffmanCodes f = [] := by
  rw [huffmanCodes, deriveCodes, huffmanForest_root]
  simp [h]

/-- Each symbol has at most one code. -/
theorem huffmanCodes_unique (f : SymTable Word) {s : Byte} {c c' : List Bool}
    (h : (s, c) ∈ huffmanCodes f) (h' : (s, c') ∈ huffmanCodes f) : c = c' := by
  by_cases h2 : 2 ≤ (alphabet f).length
  · obtain ⟨j, q, hp, hl⟩ := (mem_huffmanCodes f h2 s c).1 h
    obtain ⟨j', q', hp', hl'⟩ := (mem_huffmanCodes f h2 s c').1 h'
    rw [leaf_index_unique f hl hl'] at hp
    exact (huffmanForest_sound f).path_unique hp hp'
  · match ha : alphabet f with
    | [] => rw [huffmanCodes_empty f ha] at h; cases h
    | [r] =>
      rw [huffmanCodes_single f r ha, List.mem_singleton] at h h'
      exact (congrArg Prod.snd h).trans (congrArg Prod.snd h').symm
    | _ :: _ :: _ => rw [ha] at h2; simp at h2

/-- Exactly the symbols of the alphabet have a code. -/
theorem exists_huffmanCode (f : SymTable Word) (s : Byte) :
    (∃ c, (s, c) ∈ huffmanCodes f) ↔ s ∈ alphabet f := by
  by_cases h2 : 2 ≤ (alphabet f).length
  · rw [← leaf_iff_mem_alphabet]
    constructor
    · rintro ⟨c, hc⟩
      obtain ⟨j, q, -, hl⟩ := (mem_huffmanCodes f h2 s c).1 hc
      exact ⟨j, q, hl⟩
    · rintro ⟨j, q, hl⟩
      have hpool := huffmanForest_pool f
      rw [if_neg (by omega), length_huffmanForest, nodeCountOf, if_neg (by omega)] at hpool
      obtain ⟨p, hp⟩ := (huffmanForest_sound f).reached hpool j (List.getElem?_eq_some_iff.1 hl).1
      exact ⟨p, (mem_huffmanCodes f h2 s p).2 ⟨j, q, by
        rw [show 2 * (alphabet f).length - 2 = 2 * (alphabet f).length - 1 - 1 by omega]; exact hp, hl⟩⟩
  · match ha : alphabet f with
    | [] => simp [huffmanCodes_empty f ha]
    | [r] => simp [huffmanCodes_single f r ha]
    | _ :: _ :: _ => rw [ha] at h2; simp at h2

/-- Looking a symbol up finds its code. -/
theorem findCode_eq_some (f : SymTable Word) (s : Byte) (c : List Bool) :
    findCode (huffmanCodes f) s = some c ↔ (s, c) ∈ huffmanCodes f := by
  constructor
  · intro h
    obtain ⟨e, he, rfl⟩ := Option.map_eq_some_iff.1 h
    have h1 := List.find?_some he
    have h2 := List.mem_of_find?_eq_some he
    obtain rfl : e.1 = s := by simpa using h1
    exact h2
  · intro h
    cases hf : findCode (huffmanCodes f) s with
    | none =>
      rw [findCode, Option.map_eq_none_iff, List.find?_eq_none] at hf
      exact absurd (beq_self_eq_true s) (hf _ h)
    | some c' =>
      obtain ⟨e, he, rfl⟩ := Option.map_eq_some_iff.1 hf
      have h1 := List.find?_some he
      have h2 := List.mem_of_find?_eq_some he
      obtain rfl : e.1 = s := by simpa using h1
      rw [huffmanCodes_unique f h h2]

theorem findCode_eq_none (f : SymTable Word) (s : Byte) :
    findCode (huffmanCodes f) s = none ↔ s ∉ alphabet f := by
  rw [← exists_huffmanCode, Option.eq_none_iff_forall_ne_some]
  simp [findCode_eq_some]

/-- R134: every code has length 1 .. 255. -/
theorem huffmanCodes_length (f : SymTable Word) {s : Byte} {c : List Bool}
    (h : (s, c) ∈ huffmanCodes f) : 1 ≤ c.length ∧ c.length ≤ 255 := by
  by_cases h2 : 2 ≤ (alphabet f).length
  · obtain ⟨j, q, hp, hl⟩ := (mem_huffmanCodes f h2 s c).1 h
    have hs := huffmanForest_sound f
    have h1 := hs.path_length (isLeaf_of_mem_seed f) hp
    have h3 := length_alphabet_le f
    rw [length_seed] at h1
    refine ⟨?_, by omega⟩
    cases c with
    | nil =>
      simp only [follow_nil, Option.some.injEq] at hp
      obtain ⟨q', l, r, hn, -⟩ := huffmanForest_internal f j (by omega)
        (List.getElem?_eq_some_iff.1 hl).1
      rw [hl] at hn; cases hn
    | cons b c => simp
  · match ha : alphabet f with
    | [] => rw [huffmanCodes_empty f ha] at h; cases h
    | [r] =>
      rw [huffmanCodes_single f r ha, List.mem_singleton] at h
      rw [show c = [false] from congrArg Prod.snd h]; simp
    | _ :: _ :: _ => rw [ha] at h2; simp at h2

/-- R131: no symbol's code is a prefix of another symbol's code. -/
theorem huffmanCodes_prefix_free (f : SymTable Word) {s s' : Byte} {c c' : List Bool}
    (h : (s, c) ∈ huffmanCodes f) (h' : (s', c') ∈ huffmanCodes f) (hpre : c <+: c') : s = s' := by
  by_cases h2 : 2 ≤ (alphabet f).length
  · obtain ⟨j, q, hp, hl⟩ := (mem_huffmanCodes f h2 s c).1 h
    obtain ⟨j', q', hp', hl'⟩ := (mem_huffmanCodes f h2 s' c').1 h'
    obtain ⟨-, rfl⟩ := follow_leaf_prefix hp hl hp' hpre
    rw [hl] at hl'
    simp at hl'
    exact hl'.1
  · match ha : alphabet f with
    | [] => rw [huffmanCodes_empty f ha] at h; cases h
    | [r] =>
      rw [huffmanCodes_single f r ha, List.mem_singleton] at h h'
      exact (congrArg Prod.fst h).trans (congrArg Prod.fst h').symm
    | _ :: _ :: _ => rw [ha] at h2; simp at h2

/-- The coded symbols, in some order, are the alphabet. -/
theorem huffmanCodes_symbols (f : SymTable Word) : ((huffmanCodes f).map (·.1)).Perm (alphabet f) := by
  have hnd : ((huffmanCodes f).map (·.1)).Nodup := by
    by_cases h2 : 2 ≤ (alphabet f).length
    · have hn : ((huffmanCodes f).map (·.2)).Nodup := by
        rw [huffmanCodes, deriveCodes, huffmanForest_root, if_neg (by omega), length_seed]
        simp only
        rw [if_neg (by omega)]
        exact walkCodes_nodup _ _ _ _
      refine List.Nodup.map_on ?_ hn.of_map
      rintro ⟨s, c⟩ he ⟨s', c'⟩ he' (rfl : s = s')
      rw [huffmanCodes_unique f he he']
    · match ha : alphabet f with
      | [] => simp [huffmanCodes_empty f ha]
      | [r] => simp [huffmanCodes_single f r ha]
      | _ :: _ :: _ => rw [ha] at h2; simp at h2
  rw [List.perm_ext_iff_of_nodup hnd (nodup_alphabet f)]
  intro s
  rw [← exists_huffmanCode]
  simp

/-- R135: with at least two symbols the weights 2^(255 - length) of the codes add up to 2^255. -/
theorem huffmanCodes_weight (f : SymTable Word) (hk : 2 ≤ (alphabet f).length) :
    ((huffmanCodes f).map fun e => 2 ^ (255 - e.2.length)).sum = 2 ^ 255 := by
  have hlen := length_huffmanForest f
  have hle := length_alphabet_le f
  have h510 := walkCodes_weight (huffmanForest_sound f) 510 (huffmanForest f).nodes.length
    (2 * (alphabet f).length - 2) [] (by rw [hlen, nodeCountOf, if_neg (by omega)]; omega)
    (by rw [hlen, nodeCountOf, if_neg (by omega)]; omega) (by simp; omega)
  have hcodes : walkCodes (huffmanForest f).nodes (huffmanForest f).nodes.length
      (2 * (alphabet f).length - 2) [] = huffmanCodes f := by
    rw [huffmanCodes, deriveCodes, huffmanForest_root, if_neg (by omega), length_seed]
    simp only
    rw [if_neg (by omega)]
  rw [hcodes] at h510
  have hpow : ∀ e ∈ huffmanCodes f, 2 ^ (510 - e.2.length) = 2 ^ 255 * 2 ^ (255 - e.2.length) := by
    intro e he
    have := huffmanCodes_length f (s := e.1) (c := e.2) he
    rw [← Nat.pow_add]
    congr 1
    omega
  rw [List.map_congr_left hpow, List.sum_map_mul_left] at h510
  have e : (2 : Nat) ^ (510 - ([] : List Bool).length) = 2 ^ 255 * 2 ^ 255 := by
    rw [← Nat.pow_add]
    congr 1
  rw [e] at h510
  exact Nat.eq_of_mul_eq_mul_left (Nat.pow_pos (by decide)) h510

/-! ### Frequencies in the tree -/

/-- A node on a path has at most the frequency of the path's start. -/
theorem Forest.Sound.freqAt_follow_le {leaves : List Node} {t : Forest} (h : t.Sound leaves) {i j : Nat}
    {p : List Bool} (hp : follow t.nodes i p = some j) : freqAt t.nodes j ≤ freqAt t.nodes i := by
  induction p generalizing i with
  | nil => simp at hp; simp [hp]
  | cons b p ih =>
    obtain ⟨q, l, r, hn, hp⟩ := follow_cons_some hp
    have h1 := ih hp
    have h2 := h.sums i q l r hn
    have h3 : freqAt t.nodes i = q := by simp [freqAt, hn, Node.freq]
    cases b <;> simp at h1 <;> omega

/-- No node's frequency is above the sum of the table. -/
theorem freqAt_le_total (f : SymTable Word) (i : Nat) :
    freqAt (huffmanForest f).nodes i ≤ freqTotal f := by
  by_cases hi : i < (huffmanForest f).nodes.length
  · have hk : (alphabet f).length ≠ 0 := by
      intro e
      rw [length_huffmanForest, nodeCountOf, if_pos e] at hi
      omega
    have hpool := huffmanForest_pool f
    rw [if_neg hk, length_huffmanForest, nodeCountOf, if_neg hk] at hpool
    obtain ⟨p, hp⟩ := (huffmanForest_sound f).reached hpool i hi
    have := (huffmanForest_sound f).freqAt_follow_le hp
    rw [show 2 * (alphabet f).length - 1 - 1 = 2 * (alphabet f).length - 2 by omega, freqAt_root f hk] at this
    exact this
  · simp [freqAt, List.getElem?_eq_none (Nat.le_of_not_lt hi)]

/-- Some leaf stands at or below every node. -/
theorem exists_leaf_below (f : SymTable Word) (i : Nat) (hi : i < (huffmanForest f).nodes.length) :
    ∃ p j s q, follow (huffmanForest f).nodes i p = some j ∧
      (huffmanForest f).nodes[j]? = some (.leaf s q) := by
  induction i using Nat.strongRecOn with
  | _ i ih =>
    match hn : (huffmanForest f).nodes[i] with
    | .leaf s q => exact ⟨[], i, s, q, rfl, by rw [List.getElem?_eq_getElem hi, hn]⟩
    | .internal q l r =>
      have hget : (huffmanForest f).nodes[i]? = some (.internal q l r) := by
        rw [List.getElem?_eq_getElem hi, hn]
      have hl := (huffmanForest_sound f).below i _ hget l (by simp [Node.children])
      obtain ⟨p, j, s, q', h1, h2⟩ := ih l hl (by omega)
      exact ⟨false :: p, j, s, q', by rw [follow_internal hget]; simpa using h1, h2⟩

end Sys2Proof.Machine
end

