-- ==== Sys2Proof/Laws/Generator.lean ====
section
/-! SUPPORT. Laws of what BUILD writes (R126, R128, R129): the code table holds the derived codes, the
node arena holds the tree, and the two agree, so that DECODE reads ENCODE's codes back. -/

namespace Sys2Proof.Machine

/-! ### The registers -/

@[simp] theorem buildFrom_alpha (f : SymTable Word) :
    (buildFrom f).alpha = BitVec.ofNat 9 (alphabet f).length := by
  simp [buildFrom]

@[simp] theorem buildFrom_total (f : SymTable Word) :
    (buildFrom f).total = BitVec.ofNat 32 (freqTotal f) := rfl

@[simp] theorem buildFrom_nodeCount (f : SymTable Word) :
    (buildFrom f).nodeCount = BitVec.ofNat 10 (nodeCountOf (alphabet f).length) := by
  simp [buildFrom]

@[simp] theorem buildFrom_root (f : SymTable Word) :
    (buildFrom f).root =
      if (alphabet f).length = 0 then none
      else some (BitVec.ofNat 9 (2 * (alphabet f).length - 2)) := by
  simp only [buildFrom, huffmanForest_root]
  split <;> rfl

theorem buildFrom_rootIndex (f : SymTable Word) :
    (buildFrom f).rootIndex = BitVec.ofNat 9 (2 * (alphabet f).length - 2) := by
  rw [Built.rootIndex, buildFrom_root]
  split
  · rename_i h; simp [h]
  · rfl

theorem toNat_alpha (f : SymTable Word) : (buildFrom f).alpha.toNat = (alphabet f).length := by
  have := length_alphabet_le f
  rw [buildFrom_alpha, BitVec.toNat_ofNat, Nat.mod_eq_of_lt (by omega)]

/-! ### The code table -/

/-- CODE_LEN[s] (R128): the length of the code of s, 0 when it has none. -/
theorem lenOf_buildFrom (f : SymTable Word) (s : Byte) :
    (buildFrom f).lenOf s = ((findCode (huffmanCodes f) s).map List.length).getD 0 := by
  rw [Built.lenOf, show (buildFrom f).codeLen = tabulate 256 fun s =>
    codeLenEntry (findCode (huffmanCodes f) (BitVec.ofNat 8 s)) from rfl, entry_tabulate]
  simp only [BitVec.ofNat_toNat, BitVec.setWidth_eq]
  cases h : findCode (huffmanCodes f) s with
  | none => rfl
  | some c =>
    have := huffmanCodes_length f ((findCode_eq_some f s c).1 h)
    simp only [codeLenEntry, BitVec.toNat_ofNat, Option.map_some, Option.getD_some]
    omega

/-- Bit j of CODE_BITS[s] (R128): code bit j, 0 past the code's end and for a symbol without a code. -/
theorem codeBit_buildFrom (f : SymTable Word) (s : Byte) (j : Nat) (hj : j < 256) :
    (buildFrom f).codeBit s j = ((findCode (huffmanCodes f) s).getD []).getD j false := by
  rw [Built.codeBit, show (buildFrom f).codeBits = tabulate 256 fun s =>
    codeBitsEntry (findCode (huffmanCodes f) (BitVec.ofNat 8 s)) from rfl, entry_tabulate]
  simp only [BitVec.ofNat_toNat, BitVec.setWidth_eq]
  have hw : j / 32 < 8 := by omega
  cases h : findCode (huffmanCodes f) s with
  | none => simp [codeBitsEntry, hw]
  | some c =>
    simp only [codeBitsEntry, hw, Vector.getElem?_eq_getElem, getElem_tabulate, Option.getD_some]
    rw [getLsbD_packWord _ _ _ (Nat.mod_lt _ (by decide)), Nat.div_add_mod]

/-- `code(s)` read from the code table (R42) is the derived code of s. -/
theorem codeOf_buildFrom (f : SymTable Word) (s : Byte) :
    (buildFrom f).codeOf s = (findCode (huffmanCodes f) s).getD [] := by
  apply List.ext_getElem
  · rw [length_codeOf, lenOf_buildFrom]
    cases findCode (huffmanCodes f) s <;> rfl
  · intro j h1 h2
    have hlen : j < 256 := by
      rw [length_codeOf, lenOf_buildFrom] at h1
      cases h : findCode (huffmanCodes f) s with
      | none => simp [h] at h1
      | some c =>
        have := huffmanCodes_length f ((findCode_eq_some f s c).1 h)
        simp [h] at h1
        omega
    rw [getElem_codeOf, codeBit_buildFrom f s j hlen, List.getD_eq_getElem _ _ h2]

/-- A symbol has a code in the table exactly when it is in the alphabet. -/
theorem lenOf_buildFrom_ne_zero (f : SymTable Word) (s : Byte) :
    (buildFrom f).lenOf s ≠ 0 ↔ entry f s ≠ 0#32 := by
  rw [← mem_alphabet, lenOf_buildFrom]
  cases h : findCode (huffmanCodes f) s with
  | none => simp [(findCode_eq_none f s).1 h]
  | some c =>
    have hc := (findCode_eq_some f s c).1 h
    have := huffmanCodes_length f hc
    simp only [Option.map_some, Option.getD_some]
    exact ⟨fun _ => (exists_huffmanCode f s).1 ⟨c, hc⟩, fun _ => by omega⟩

/-- The code in the table of a symbol of the alphabet is one of the derived codes. -/
theorem codeOf_mem (f : SymTable Word) (s : Byte) (h : entry f s ≠ 0#32) :
    (s, (buildFrom f).codeOf s) ∈ huffmanCodes f := by
  obtain ⟨c, hc⟩ := (exists_huffmanCode f s).2 ((mem_alphabet f s).2 h)
  rw [codeOf_buildFrom, (findCode_eq_some f s c).2 hc]
  exact hc

theorem lenOf_le (f : SymTable Word) (s : Byte) : (buildFrom f).lenOf s ≤ 255 := by
  have := (entry (buildFrom f).codeLen s).isLt
  rw [Built.lenOf]; omega

/-! ### The node arena -/

theorem nodeCountOf_le (f : SymTable Word) : nodeCountOf (alphabet f).length ≤ 511 := by
  have := length_alphabet_le f
  unfold nodeCountOf
  split <;> omega

/-- NODE_INFO of a used slot (R126). -/
theorem slot_nodeInfo (f : SymTable Word) (i : Nat) (n : Node)
    (h : (huffmanForest f).nodes[i]? = some n) :
    slot (buildFrom f).nodeInfo (BitVec.ofNat 9 i) = n.info := by
  have hi := (List.getElem?_eq_some_iff.1 h).1
  have hc := nodeCountOf_le f
  rw [length_huffmanForest] at hi
  rw [show (buildFrom f).nodeInfo = tabulate 512 (slotInfo (huffmanForest f).nodes
    (nodeCountOf (seed f).length)) from rfl, slot_tabulate, BitVec.toNat_ofNat,
    Nat.mod_eq_of_lt (by omega), slotInfo, length_seed, if_pos hi, h]
  rfl

/-- NODE_INFO of an unused slot reads 0 (R126). -/
theorem slot_nodeInfo_unused (f : SymTable Word) (i : NodeIdx)
    (h : nodeCountOf (alphabet f).length ≤ i.toNat) :
    slot (buildFrom f).nodeInfo i = .unused := by
  rw [show (buildFrom f).nodeInfo = tabulate 512 (slotInfo (huffmanForest f).nodes
    (nodeCountOf (seed f).length)) from rfl, slot_tabulate, slotInfo, length_seed,
    if_neg (by omega)]

/-- NODE_FREQ of a slot (R126). -/
theorem slot_nodeFreq (f : SymTable Word) (i : NodeIdx) :
    slot (buildFrom f).nodeFreq i =
      if i.toNat < nodeCountOf (alphabet f).length then
        BitVec.ofNat 32 (freqAt (huffmanForest f).nodes i.toNat)
      else 0#32 := by
  rw [show (buildFrom f).nodeFreq = tabulate 512 (slotFreq (huffmanForest f).nodes
    (nodeCountOf (seed f).length)) from rfl, slot_tabulate, slotFreq, length_seed]

/-- The child of an internal node, read from the arena. -/
theorem child_buildFrom (f : SymTable Word) (i q l r : Nat) (bit : Bool)
    (h : (huffmanForest f).nodes[i]? = some (.internal q l r)) :
    (buildFrom f).child (BitVec.ofNat 9 i) bit = BitVec.ofNat 9 (if bit then r else l) := by
  rw [Built.child, slot_nodeInfo f i _ h]
  cases bit <;> rfl

/-- A nonempty path of the tree to a leaf is spelled by the arena's links. -/
theorem spells_of_follow (f : SymTable Word) (p : List Bool) (i j q : Nat) (s : Byte) (hp : p ≠ [])
    (h : follow (huffmanForest f).nodes i p = some j)
    (hl : (huffmanForest f).nodes[j]? = some (.leaf s q)) :
    (buildFrom f).spells (BitVec.ofNat 9 i) p s := by
  induction p generalizing i with
  | nil => exact absurd rfl hp
  | cons b p ih =>
    obtain ⟨q', l, r, hn, hf⟩ := follow_cons_some h
    cases p with
    | nil =>
      have hj : (if b then r else l) = j := by simpa using hf
      rw [Built.spells, child_buildFrom f i q' l r b hn, hj, slot_nodeInfo f j _ hl]
      exact ⟨rfl, rfl⟩
    | cons b' p =>
      obtain ⟨q'', l', r', hn', -⟩ := follow_cons_some hf
      rw [Built.spells, child_buildFrom f i q' l r b hn, slot_nodeInfo f _ _ hn']
      · exact ⟨rfl, ih _ (by simp) hf⟩
      · simp

/-- The table and arena of a successful BUILD agree on every symbol of the alphabet (R127, R163). -/
theorem readsBack_buildFrom (f : SymTable Word) (s : Byte) (h : entry f s ≠ 0#32) :
    (buildFrom f).readsBack s := by
  have hm := (mem_alphabet f s).2 h
  have hpos : 0 < (alphabet f).length := List.length_pos_of_mem hm
  have ha := toNat_alpha f
  have hcode := codeOf_mem f s h
  refine ⟨fun e => ?_, ?_⟩
  · rw [e] at ha; simp at ha; omega
  · split
    · rename_i h1
      have hone : (alphabet f).length = 1 := by rw [h1] at ha; simpa using ha.symm
      obtain ⟨r, hr⟩ := List.length_eq_one_iff.1 hone
      rw [hr, List.mem_singleton] at hm
      subst hm
      rw [huffmanCodes_single f s hr, List.mem_singleton] at hcode
      refine ⟨congrArg Prod.snd hcode, ?_⟩
      have hleaf := huffmanForest_leaf f 0 (by omega)
      rw [buildFrom_rootIndex, hone, slot_nodeInfo f 0 _ hleaf]
      simp [leafOf, Node.info, hr]
    · rename_i h1
      have h2 : 2 ≤ (alphabet f).length := by
        have : (alphabet f).length ≠ 1 := fun e => h1 (by rw [buildFrom_alpha, e])
        omega
      obtain ⟨j, q, hp, hl⟩ := (mem_huffmanCodes f h2 s _).1 hcode
      rw [buildFrom_rootIndex]
      refine spells_of_follow f _ _ j q s ?_ hp hl
      intro e
      have := huffmanCodes_length f hcode
      rw [e] at this
      simp at this

/-- R170 on the tables of one BUILD: DECODE's walk over ENCODE's bits gives the input back. -/
theorem decodeStream_buildFrom (f : SymTable Word) (dcap : Nat) (input : List Byte)
    (h : ∀ s ∈ input, entry f s ≠ 0#32) (hfit : input.length ≤ dcap) :
    decodeStream (buildFrom f) dcap ((buildFrom f).codesOf input) = .ok input :=
  decodeStream_codesOf _ _ _ (fun s hs => readsBack_buildFrom f s (h s hs)) hfit

/-! ### Frequencies and MAXLEN -/

/-- NODE_FREQ of a used slot as a number: it does not wrap when the sum of the table fits 32 bits. -/
theorem toNat_slot_nodeFreq (f : SymTable Word) (i : NodeIdx) (hf : freqTotal f ≤ 2 ^ 32 - 1)
    (hi : i.toNat < nodeCountOf (alphabet f).length) :
    (slot (buildFrom f).nodeFreq i).toNat = freqAt (huffmanForest f).nodes i.toNat := by
  have := freqAt_le_total f i.toNat
  rw [slot_nodeFreq, if_pos hi, BitVec.toNat_ofNat, Nat.mod_eq_of_lt (by omega)]

/-- A left fold of `max` from 0 is the maximum of a list that is not empty. -/
theorem maximum_eq_foldl (l : List Nat) (h : l ≠ []) : l.maximum = ((l.foldl max 0 : Nat) : WithBot Nat) := by
  rw [List.foldl_eq_foldr]
  exact (List.foldr_max_of_ne_nil h).symm

/-- The largest entry of a table of lengths is an upper bound. -/
theorem le_largest (t : SymTable Byte) (s : Byte) : (entry t s).toNat ≤ largest t := by
  have hm : (entry t s).toNat ∈ allSymbols.map fun s => (entry t s).toNat :=
    List.mem_map.2 ⟨s, mem_allSymbols s, rfl⟩
  exact List.le_maximum_of_mem hm (maximum_eq_foldl _ (List.ne_nil_of_mem hm))

/-- The largest entry of a table of lengths is one of its entries. -/
theorem exists_largest (t : SymTable Byte) : ∃ s, (entry t s).toNat = largest t := by
  have hm : (entry t 0#8).toNat ∈ allSymbols.map fun s => (entry t s).toNat :=
    List.mem_map.2 ⟨0#8, mem_allSymbols 0#8, rfl⟩
  obtain ⟨s, -, hs⟩ :=
    List.mem_map.1 (List.maximum_mem (maximum_eq_foldl _ (List.ne_nil_of_mem hm)))
  exact ⟨s, hs⟩

theorem toNat_maxlen (f : SymTable Word) :
    (buildFrom f).maxlen.toNat = largest (buildFrom f).codeLen := by
  obtain ⟨s, hs⟩ := exists_largest (buildFrom f).codeLen
  have := (entry (buildFrom f).codeLen s).isLt
  rw [show (buildFrom f).maxlen = BitVec.ofNat 8 (largest (buildFrom f).codeLen) from rfl,
    BitVec.toNat_ofNat, Nat.mod_eq_of_lt (by omega)]

/-- Over a path of the tree that ends at an internal node, a walk only moves there (R162). -/
theorem Walk.run_follow (f : SymTable Word) (dcap : Nat) (p : List Bool) (j i m q l r : Nat) (w : Walk)
    (h2 : 2 ≤ (alphabet f).length) (hw : w.pos = BitVec.ofNat 9 i)
    (hp : follow (huffmanForest f).nodes i p = some m)
    (hm : (huffmanForest f).nodes[m]? = some (.internal q l r)) :
    Walk.run (buildFrom f) dcap j w p = .ok { w with pos := BitVec.ofNat 9 m } := by
  have ha := toNat_alpha f
  have h0 : (buildFrom f).alpha ≠ 0#9 := fun e => by rw [e] at ha; simp at ha; omega
  have h1 : (buildFrom f).alpha ≠ 1#9 := fun e => by rw [e] at ha; simp at ha; omega
  induction p generalizing j i w with
  | nil =>
    rw [follow_nil, Option.some.injEq] at hp
    rw [Walk.run, ← hp, ← hw]
  | cons b p ih =>
    obtain ⟨q', l', r', hn, hp⟩ := follow_cons_some hp
    have hc : ∃ q'' l'' r'', (huffmanForest f).nodes[if b then r' else l']? =
        some (.internal q'' l'' r'') := by
      cases p with
      | nil =>
        rw [follow_nil, Option.some.injEq] at hp
        exact ⟨q, l, r, by rw [hp]; exact hm⟩
      | cons b' p =>
        obtain ⟨q'', l'', r'', hn', -⟩ := follow_cons_some hp
        exact ⟨q'', l'', r'', hn'⟩
    obtain ⟨q'', l'', r'', hc⟩ := hc
    have hstep : w.step (buildFrom f) dcap j b =
        .ok { w with pos := BitVec.ofNat 9 (if b then r' else l') } := by
      simp only [Walk.step, h0, h1, if_false, hw, child_buildFrom f i _ _ _ b hn,
        slot_nodeInfo f _ _ hc]
      simp [Node.info]
    rw [Walk.run, hstep]
    exact ih (j + 1) _ _ rfl hp

/-- The slot of an internal node (R45, R126): its children come before it, and its frequency is the sum of
theirs. -/
theorem slot_internal (f : SymTable Word) (i : NodeIdx) (h1 : (alphabet f).length ≤ i.toNat)
    (h2 : i.toNat + 1 < 2 * (alphabet f).length) :
    ∃ q l r, (huffmanForest f).nodes[i.toNat]? = some (.internal q l r) ∧ l < i.toNat ∧ r < i.toNat ∧
      q = freqAt (huffmanForest f).nodes l + freqAt (huffmanForest f).nodes r ∧
      slot (buildFrom f).nodeInfo i = ⟨false, true, BitVec.ofNat 9 r, BitVec.ofNat 9 l, 0#8⟩ := by
  obtain ⟨q, l, r, h, hl, hr, hq⟩ := huffmanForest_internal f i.toNat h1 (by
    rw [length_huffmanForest, nodeCountOf, if_neg (by omega)]; omega)
  have hs := slot_nodeInfo f i.toNat _ h
  rw [BitVec.ofNat_toNat, BitVec.setWidth_eq] at hs
  exact ⟨q, l, r, h, hl, hr, hq, hs⟩

end Sys2Proof.Machine
end

