-- ==== Sys2Proof/Laws/PerInstr.lean ====
section
/-! SUPPORT. What holds of every command as syntax, one lemma per command: its word has RESERVED = 0 and
its own OPCODE, is one of the six legal words, and is read back from the opcode table's numbering. -/

namespace Sys2Proof.Laws.CommandWord

/-- The word of a command (R83, R84, R90). -/
def Statement (i : Instr) : Prop :=
  i.wf = true ∧ reservedField (encode i) = 0#24 ∧ opcodeField (encode i) = opcodeOf i ∧
    legalWord (encode i) = true ∧ decodeTableWord 32 (encode i).toNat = some i

theorem nop : Statement .nop := by unfold Statement; decide
theorem clrf : Statement .clrf := by unfold Statement; decide
theorem scan : Statement .scan := by unfold Statement; decide
theorem build : Statement .build := by unfold Statement; decide
theorem encode : Statement .encode := by unfold Statement; decide
theorem decode : Statement .decode := by unfold Statement; decide

end Sys2Proof.Laws.CommandWord
end

