-- ==== Sys2Proof/Laws/Script.lean ====
section
/-! SUPPORT. Laws of the script notation: the offset of a name, and what a list of reads is answered while
the block is idle. -/

namespace Sys2Proof.Machine

/-- A name whose offset fits 32 bits has that offset on the bus (R80, R91). -/
theorem hostOffset_toNat {n : Nat} (h : n < 2 ^ 32) : (hostOffset n).toNat = n := by
  rw [hostOffset, Nat.min_eq_left (by omega), BitVec.toNat_ofNat, Nat.mod_eq_of_lt h]

/-- A name the host may read with an access of the given width, in a launch of the given size (R63, R79). -/
def Target.readable (size bits : Nat) (target : Target) : Prop :=
  target.offset < 2 ^ 32 ∧ sizeOk size target.offset bits target = true ∧
    ∀ a, target = .dmem a → a < size

/-- R51: while BUSY = 0 a read of a readable name answers its value and changes nothing else. -/
theorem hostStep_readNamed {s : State} {bits : Nat} {target : Target} (hb : s.status.busy = false)
    (h : target.readable s.dmemSize bits) :
    s.hostStep (readTxn target bits) = s.respond (.okRead (s.readTarget bits target)) := by
  have ha : accept s.dmemSize (readTxn target bits) = some target :=
    accept_named target (hostOffset_toNat h.1) h.2.1 h.2.2 (fun hd => by cases hd)
  rw [hostStep_read ha rfl, hb, if_neg (by simp)]
  rfl

/-- A read of a register is readable at 32 bits (R63). -/
theorem readable_reg (size : Nat) (r : Reg) : (Target.reg r).readable size 32 := by
  cases r <;> exact ⟨by decide, by rfl, fun _ h => by cases h⟩

/-- A read of a FREQ entry is readable at 32 bits (R63). -/
theorem readable_freq (size : Nat) (sym : Byte) : (Target.freq sym).readable size 32 := by
  have := sym.isLt
  refine ⟨by simp only [Target.offset]; omega, ?_, fun _ h => by cases h⟩
  simp only [sizeOk, Target.offset, Bool.and_eq_true, beq_iff_eq]
  exact ⟨trivial, by omega⟩

/-- A byte of DMEM is readable at 8 bits in a launch of legal size (R63, R8). -/
theorem readable_dmem {size a : Nat} (hs : size ≤ 2 ^ 28) (h : a < size) :
    (Target.dmem a).readable size 8 :=
  ⟨by simp only [Target.offset]; omega, rfl, fun b hb => by cases hb; exact h⟩

/-! ### Playing a script -/

/-- The host's turn is one host step (R82). -/
theorem stepTurn_host (s : State) (x : Txn) :
    s.stepTurn (.host x) = .next (({ s with turns := [] } : State).hostStep x) := rfl

/-- The core's turn is the core's step (R86), with no turn left. -/
theorem stepTurn_core {s t : State} (h : s.coreStep = .next t) :
    s.stepTurn .core = .next { t with turns := [] } := by
  have hs := coreStep_withBus s t s.turns s.response h
  have ht : t = t.withBus s.turns s.response := Host.Outcome.next.inj (h.symm.trans hs)
  rw [ht]
  exact coreStep_withBus s t [] s.response h

/-- While BUSY = 0 the core's turn changes nothing (R86). -/
theorem stepTurn_core_idle {s : State} (hb : s.status.busy = false) :
    s.stepTurn .core = .next { s with turns := [] } :=
  stepTurn_core (by rw [State.coreStep, hb]; rfl)

/-- A `WAIT`'s read of STATUS: it is over exactly when BUSY = 0. -/
theorem over_status (s : State) :
    HostOp.untilIdle.over (some (.okRead s.status.toWord)) = !s.status.busy := by
  obtain ⟨busy, done, err, valid, viol⟩ := s.status
  cases busy <;> cases done <;> cases err <;> cases valid <;> cases viol <;> rfl

/-- A script that is not over looks at the turns of no state: each step is given its own. -/
theorem playOps_turns (s : State) (ts : List Turn) (moves : List Mover) (op : HostOp)
    (ops : List HostOp) :
    ({ s with turns := ts } : State).playOps moves (op :: ops) = s.playOps moves (op :: ops) := by
  cases moves with
  | nil => rfl
  | cons m _ => cases m <;> rfl

/-- While BUSY = 0 the core's moves change nothing, so a script goes on as the host's next move goes: it is
answered, and is over or is made again. -/
theorem playOps_idle {s : State} (hb : s.status.busy = false) (op : HostOp) (ops : List HostOp)
    (hop : op.over (({ s with turns := [] } : State).hostStep op.txn).response = true) :
    ∀ moves, ∃ later, s.playOps moves (op :: ops) =
      heard (({ s with turns := [] } : State).hostStep op.txn).response
        ((({ s with turns := [] } : State).hostStep op.txn).playOps later ops)
  | [] => ⟨[], by
      rw [State.playOps, State.playOut, stepTurn_core_idle hb]
      cases ops <;> rfl⟩
  | .core :: moves => by
      obtain ⟨later, h⟩ := playOps_idle hb op ops hop moves
      refine ⟨later, ?_⟩
      rw [State.playOps, stepTurn_core_idle hb, ← h]
      exact playOps_turns s [] moves op ops
  | .host :: moves => ⟨moves, by rw [State.playOps, stepTurn_host, andThen, hop, if_pos rfl]⟩

/-- What the host does for a list of reads. -/
def readOps (reads : List (Target × Nat)) : List HostOp :=
  reads.map fun p => .access (readTxn p.1 p.2)

/-- A list of reads on an idle block is answered with the value of each name, in order, and changes nothing
but the last answer. -/
theorem playOps_reads {s : State} (hb : s.status.busy = false) :
    ∀ (reads : List (Target × Nat)) (moves : List Mover) (r : Option Response),
      (∀ p ∈ reads, p.1.readable s.dmemSize p.2) →
      ∃ r', (s.withBus [] r).playOps moves (readOps reads) =
        .next (s.withBus [] r', reads.map fun p => .okRead (s.readTarget p.2 p.1))
  | [], moves, r, _ => ⟨r, by cases moves <;> rfl⟩
  | (x, bits) :: ps, moves, r, h => by
    have hr : (s.withBus [] r).readTarget bits x = s.readTarget bits x := by cases x <;> rfl
    have hs : (s.withBus [] r).hostStep (readTxn x bits) =
        s.withBus [] (some (.okRead (s.readTarget bits x))) := by
      rw [hostStep_readNamed (s := s.withBus [] r) hb (h _ List.mem_cons_self), hr]
      rfl
    obtain ⟨later, hl⟩ :=
      playOps_idle (s := s.withBus [] r) hb (.access (readTxn x bits)) (readOps ps) rfl moves
    obtain ⟨r', hr'⟩ := playOps_reads hb ps later (some (.okRead (s.readTarget bits x)))
      fun p hp => h p (List.mem_cons_of_mem _ hp)
    refine ⟨r', hl.trans ?_⟩
    show heard ((s.withBus [] r).hostStep (readTxn x bits)).response
      (((s.withBus [] r).hostStep (readTxn x bits)).playOps later (readOps ps)) = _
    rw [hs, hr']
    rfl

end Sys2Proof.Machine
end

