-- ==== Sys2Proof/Tests/Slice0.lean ====
section
/-! SUPPORT. The model's own tests: words written out from the opcode map, terms the checks refuse, single
steps against the spec's worked examples (named in each docstring), and for every statement with
hypotheses a state that meets them. -/

open Sys2Proof Sys2Proof.Machine Sys2Proof.Spec

namespace Sys2Proof.Tests

-- One kernel computation at a time, so that the tests use little memory.
set_option Elab.async false

/-! ### Small states -/

/-- Bytes at an address, as DMEM cells. -/
def cells (a : Nat) (bytes : List Byte) : Memory :=
  (List.range' 0 bytes.length).map fun i => (a + i, bytes.getD i 0#8)

/-- "abracadabra" (G1). -/
def abra : List Byte :=
  [0x61#8, 0x62#8, 0x72#8, 0x61#8, 0x63#8, 0x61#8, 0x64#8, 0x61#8, 0x62#8, 0x72#8, 0x61#8]

/-- The counts of R136, as SCAN of "abracadabra" leaves them. -/
def abraFreq : SymTable Word := histogram abra

/-- Only "a", four times (R137, k = 1). -/
def oneFreq : SymTable Word := histogram [0x61#8, 0x61#8, 0x61#8, 0x61#8]

/-- Only 0 and 255, once each. -/
def twoFreq : SymTable Word := histogram [0x00#8, 0xFF#8]

/-- Counts of two symbols as a host writes them. -/
def bigFreq (v w : Word) : SymTable Word := setEntry (setEntry zeroFreq 0x00#8 v) 0xFF#8 w

/-- What BUILD writes for a tree, its codes and the two numbers that go with them. -/
def builtOf (t : Forest) (k total maxlen : Nat) (codes : List (Byte × List Bool)) : Built :=
  { alpha := BitVec.ofNat 9 k
    total := BitVec.ofNat 32 total
    root := t.root.map (BitVec.ofNat 9)
    nodeCount := BitVec.ofNat 10 (nodeCountOf k)
    maxlen := BitVec.ofNat 8 maxlen
    codeLen := tabulate 256 fun s => codeLenEntry (findCode codes (BitVec.ofNat 8 s))
    codeBits := tabulate 256 fun s => codeBitsEntry (findCode codes (BitVec.ofNat 8 s))
    nodeFreq := tabulate 512 (slotFreq t.nodes (nodeCountOf k))
    nodeInfo := tabulate 512 (slotInfo t.nodes (nodeCountOf k)) }

/-- R136's tree, N0 to N8. -/
def abraForest : Forest :=
  { nodes := [.leaf 0x61#8 5, .leaf 0x62#8 2, .leaf 0x63#8 1, .leaf 0x64#8 1, .leaf 0x72#8 2,
      .internal 2 2 3, .internal 4 1 4, .internal 6 5 6, .internal 11 0 7]
    pool := [8] }

/-- R136's codes: a = 0, c = 100, d = 101, b = 110, r = 111. -/
def abraCodes : List (Byte × List Bool) :=
  [(0x61#8, [false]), (0x63#8, [true, false, false]), (0x64#8, [true, false, true]),
    (0x62#8, [true, true, false]), (0x72#8, [true, true, true])]

/-- R136's table: k = 5, TOTAL = 11, MAXLEN = 3. -/
def abraBuilt : Built := builtOf abraForest 5 11 3 abraCodes

/-- R137, k = 1. -/
def oneBuilt : Built := builtOf ⟨[.leaf 0x61#8 4], [0]⟩ 1 4 1 [(0x61#8, [false])]

/-- R137, k = 0. -/
def noneBuilt : Built := builtOf ⟨[], []⟩ 0 0 0 []

/-- A pending command over the given DMEM and arguments. -/
def pending (w : Word) (mem : Memory) (args : Args) : State :=
  { State.reset with
    cmd := w, status := { State.reset.status with busy := true }, mem := mem, args := args }

/-- A pending command with a valid table. -/
def withTable (f : SymTable Word) (b : Built) (s : State) : State :=
  { s with freq := f, built := b, status := { s.status with tableValid := true } }

/-- ENCODE of "abracadabra" with capacity `c` (R145). -/
def encoding (c : Word) : State :=
  withTable abraFreq abraBuilt (pending 0x4#32 (cells 0 abra) ⟨0#32, 11#32, 0x20#32, c, 0#32⟩)

/-- DECODE of the first `n` bits of R168's stream with capacity `c`. -/
def decoding (n c : Word) : State :=
  withTable abraFreq abraBuilt
    (pending 0x5#32 (cells 0x20 [0x6E#8, 0x8A#8, 0xDC#8]) ⟨0x20#32, 0#32, 0x40#32, c, n⟩)

/-- DECODE with the single-leaf table of "a" (R169), the byte 0x40 at 0. -/
def decodingOne (n c : Word) : State :=
  withTable oneFreq oneBuilt (pending 0x5#32 (cells 0 [0x40#8]) ⟨0#32, 0#32, 0x40#32, c, n⟩)

/-- DECODE with the empty tree (R164). -/
def decodingNone (n : Word) : State :=
  withTable zeroFreq noneBuilt (pending 0x5#32 (cells 0 [0x40#8]) ⟨0#32, 0#32, 0x40#32, 4#32, n⟩)

/-- A pending BUILD of the given counts. -/
def building (f : SymTable Word) : State :=
  { pending 0x3#32 [] ⟨0#32, 0#32, 0#32, 0#32, 0#32⟩ with freq := f }

/-- The next state of an outcome has a property. -/
def nextHas (o : Host.Outcome State Fault Refusal) (p : State → Bool) : Bool :=
  match o with
  | .next t => p t
  | .fault _ | .refused _ => false

/-- A played script has a state and answers with a property. -/
def playedHas (o : Played) (p : State → List Response → Bool) : Bool :=
  match o with
  | .next (t, answers) => p t answers
  | .fault _ | .refused _ => false

/-! ### The worked tables of R136 and R137 are what BUILD gives -/

theorem alphabet_histogram (input : List Byte) :
    alphabet (histogram input) = allSymbols.filter fun s => BitVec.ofNat 32 (input.count s) ≠ 0#32 := by
  simp only [alphabet, entry_histogram]

theorem total_histogram (input : List Byte) (h : input.length < 2 ^ 32) :
    freqTotal (histogram input) = input.length := by
  simp only [freqTotal, toNat_entry_histogram _ _ h, sum_count_allSymbols]

theorem alphabet_abra : alphabet abraFreq = [0x61#8, 0x62#8, 0x63#8, 0x64#8, 0x72#8] := by
  rw [abraFreq, alphabet_histogram]; decide +kernel

theorem alphabet_one : alphabet oneFreq = [0x61#8] := by
  rw [oneFreq, alphabet_histogram]; decide +kernel

theorem alphabet_two : alphabet twoFreq = [0x00#8, 0xFF#8] := by
  rw [twoFreq, alphabet_histogram]; decide +kernel

theorem total_abra : freqTotal abraFreq = 11 := total_histogram _ (by decide)

theorem total_one : freqTotal oneFreq = 4 := total_histogram _ (by decide)

theorem total_two : freqTotal twoFreq = 2 := total_histogram _ (by decide)

theorem fits_abra : freqTotal abraFreq ≤ 2 ^ 32 - 1 := by rw [total_abra]; decide

theorem test_seed_abra : seed abraFreq = abraForest.nodes.take 5 := by
  rw [seed_eq, alphabet_abra]
  simp only [leafOf, List.map, abraFreq, entry_histogram]
  decide +kernel

theorem seed_one : seed oneFreq = [.leaf 0x61#8 4] := by
  rw [seed_eq, alphabet_one]
  simp only [leafOf, List.map, oneFreq, entry_histogram]
  decide +kernel

theorem test_forest_abra : huffmanForest abraFreq = abraForest := by
  rw [huffmanForest, seedForest, test_seed_abra]
  decide +kernel

theorem test_codes_abra : deriveCodes abraForest 5 = abraCodes := by decide +kernel

/-- MAXLEN of a code table given by its codes. -/
theorem largest_codes (codes : List (Byte × List Bool)) :
    largest (tabulate 256 fun s => codeLenEntry (findCode codes (BitVec.ofNat 8 s))) =
      (allSymbols.map fun s => (codeLenEntry (findCode codes s)).toNat).foldl max 0 := by
  simp only [largest, entry_tabulate, BitVec.ofNat_toNat, BitVec.setWidth_eq]

theorem maxlen_abra : largest (tabulate 256 fun s =>
    codeLenEntry (findCode abraCodes (BitVec.ofNat 8 s))) = 3 := by
  rw [largest_codes]; decide +kernel

theorem maxlen_one : largest (tabulate 256 fun s =>
    codeLenEntry (findCode [(0x61#8, [false])] (BitVec.ofNat 8 s))) = 1 := by
  rw [largest_codes]; decide +kernel

theorem built_abra : buildFrom abraFreq = abraBuilt := by
  have hk : (seed abraFreq).length = 5 := by rw [test_seed_abra]; rfl
  simp only [buildFrom, hk, test_forest_abra, test_codes_abra, total_abra, maxlen_abra]
  rfl

theorem built_one : buildFrom oneFreq = oneBuilt := by
  have hk : (seed oneFreq).length = 1 := by rw [seed_one]; rfl
  have hf : huffmanForest oneFreq = ⟨[.leaf 0x61#8 4], [0]⟩ := by
    rw [huffmanForest, seedForest, seed_one]; decide +kernel
  have hc : deriveCodes ⟨[.leaf 0x61#8 4], [0]⟩ 1 = [(0x61#8, [false])] := by decide +kernel
  simp only [buildFrom, hk, hf, hc, total_one, maxlen_one]
  rfl

/-- The sum of a table with two counts. -/
theorem total_big (v w : Word) : freqTotal (bigFreq v w) = v.toNat + w.toNat := by
  have h : ∀ s, (entry (bigFreq v w) s).toNat =
      [0x00#8].count s * v.toNat + [0xFF#8].count s * w.toNat := by
    intro s
    simp only [bigFreq, entry_setEntry, entry_zeroFreq]
    by_cases h1 : s = 0xFF#8
    · subst h1; simp
    · by_cases h0 : s = 0x00#8
      · subst h0; simp
      · simp [h1, h0, Ne.symm h1, Ne.symm h0]
  simp only [freqTotal, h, List.sum_map_add, List.sum_map_mul_right, sum_count_allSymbols]
  simp

/-- BUILD of a table that fits. -/
theorem build_next (s : State) (f : SymTable Word) (hf : s.freq = f) (h : freqTotal f ≤ 2 ^ 32 - 1) :
    exec .build s = .next (s.writeBuilt (buildFrom f)).succeed := by
  rcases execBuild_cases s with ⟨ho, -⟩ | ⟨-, hb⟩
  · subst hf
    simp only [freqOverflows] at ho
    omega
  · exact hf ▸ hb

/-- SCAN of a window in range. -/
theorem scan_next (s : State) (h : s.inputWindow.inRange s.dmemSize) :
    exec .scan s = .next (s.setFreq (histogram (s.readBytes s.inputWindow))).succeed := if_pos h

/-- A state given the table BUILD makes has a legal table. -/
theorem withTable_legal (f : SymTable Word) (b : Built) (s : State) (hb : buildFrom f = b)
    (h : freqTotal f ≤ 2 ^ 32 - 1) : (withTable f b s).tableLegal := by
  refine fun _ => ⟨?_, hb.symm⟩
  show ¬2 ^ 32 - 1 < freqTotal f
  omega

/-! ### Words (R83, R84) -/

theorem test_decode_words :
    decode 0b00000000000000000000000000000000#32 = .ok .nop ∧
    decode 0b00000000000000000000000000000001#32 = .ok .clrf ∧
    decode 0b00000000000000000000000000000010#32 = .ok .scan ∧
    decode 0b00000000000000000000000000000011#32 = .ok .build ∧
    decode 0b00000000000000000000000000000100#32 = .ok .encode ∧
    decode 0b00000000000000000000000000000101#32 = .ok .decode := by decide

/-- 0x0000_0102 and 0x0000_0006 (R182), and the last reserved opcode. -/
theorem test_decode_refuses :
    decode 0x00000102#32 = .error .reservedBits ∧ decode 0x80000000#32 = .error .reservedBits ∧
    decode 0x00000006#32 = .error .reservedOpcode ∧
    decode 0x000000FF#32 = .error .reservedOpcode := by decide

theorem test_table_words :
    decodeTableWord 32 0x3 = some .build ∧ decodeTableWord 8 0x5 = some .decode ∧
    decodeTableWord 32 0x103 = none ∧ decodeTableWord 64 0x3 = none := by decide

/-! ### WellFormed: what each check refuses -/

theorem smoke_legalWord : legalWord 0x5#32 = true ∧ legalWord 0x6#32 = false ∧
    legalWord 0x105#32 = false := by decide

/-- Write data wider than the access (R80). -/
theorem smoke_txn : (txn .write 0x10000 8 0xFF#32).wf = true ∧
    (txn .write 0x10000 8 0x100#32).wf = false := by decide

theorem smoke_turn : (Turn.host (txn .write 0x10000 8 0x100#32)).wf = false ∧
    Turn.core.wf = true := by decide

/-- Every command is well formed (R83: no fields), so this check has nothing to refuse. -/
theorem smoke_instr : Instr.nop.wf = true := by decide

/-! ### One step of each command -/

/-- R180's example: the flags after a NOP issued over an old error. -/
theorem test_nop : nextHas (exec .nop ({ State.reset with
    status := { State.reset.status with err := true }, errCode := .noCode }.issue 0#32)) (fun t =>
      t.readReg .status == 0x2#32 && t.readReg .errCode == 0#32) = true := by decide +kernel

/-- R100's example. -/
theorem test_clrf : nextHas (exec .clrf (withTable abraFreq abraBuilt (pending 0x1#32 [] State.reset.args)))
    (fun t => t.readReg .status == 0x2#32 && entry t.freq 0x61#8 == 0#32 &&
      t.readReg .alpha == 5#32) = true := by decide +kernel

/-- R102's example. -/
theorem test_scan : nextHas (exec .scan (pending 0x2#32 (cells 0 abra)
    ⟨0#32, 11#32, 0#32, 0#32, 0#32⟩)) (fun t => entry t.freq 0x61#8 == 5#32 &&
      entry t.freq 0x72#8 == 2#32 && entry t.freq 0x00#8 == 0#32 && t.readReg .status == 0x2#32) = true := by decide +kernel

/-- R69: one byte past the end of DMEM, and no 32-bit wrap. -/
theorem test_scan_range : nextHas (exec .scan (pending 0x2#32 []
    ⟨0xFFFFFFFF#32, 2#32, 0#32, 0#32, 0#32⟩)) (fun t => t.errCode == .range &&
      t.errInfo == 0#32) = true := by decide +kernel

/-- R136's example: the code table, the tree and the result registers. -/
theorem test_build : exec .build (building abraFreq) =
    .next ((building abraFreq).writeBuilt abraBuilt).succeed :=
  built_abra ▸ build_next _ _ rfl fits_abra

/-- R136's example: N8 and the code of "b" as the host reads them. -/
theorem test_build_readback : (slot abraBuilt.nodeInfo 8#9).toWord = 0x40000000#32 ||| 7#32 <<< 17 ∧
    abraBuilt.codeWord 0x62#8 0 = 0xC0000000#32 := by decide +kernel

/-- R145. -/
theorem test_encode : nextHas (exec .encode (encoding 16#32)) (fun t =>
    t.readByte 0x20 == 0x6E#8 && t.readByte 0x21 == 0x8A#8 && t.readByte 0x22 == 0xDC#8 &&
      t.results == ⟨23#32, 3#32, 11#32⟩) = true := by decide +kernel

/-- R146. -/
theorem test_encode_overflow : nextHas (exec .encode (encoding 2#32)) (fun t =>
    t.errCode == .dstOverflow && t.errInfo == 8#32) = true := by decide +kernel

/-- R168. -/
theorem test_decode : nextHas (exec .decode (decoding 23#32 11#32)) (fun t =>
    t.readBytes ⟨0x40, 11⟩ == abra && t.results == ⟨23#32, 11#32, 11#32⟩) = true := by decide +kernel

/-- R169: NBITS = 21. -/
theorem test_decode_truncated : nextHas (exec .decode (decoding 21#32 11#32)) (fun t =>
    t.errCode == .truncated && t.errInfo == 19#32) = true := by decide +kernel

/-! ### One host transaction -/

/-- R63: a misaligned access, a 16-bit access, and an offset past the DMEM window. -/
theorem test_buserr : (State.reset.hostStep (txn .read 0x10001 32 0#32)).response = some .busErr ∧
    (State.reset.hostStep (txn .read 0x10000 16 0#32)).response = some .busErr ∧
    (State.reset.hostStep (txn .read 0x10400 8 0#32)).response = some .busErr := by decide +kernel

/-- R64: little-endian. -/
theorem test_write_word : ((State.reset.hostStep (txn .write 0x10004 32 0x44332211#32)).readByte 5) =
    0x22#8 := by decide +kernel

/-- R79: an offset past 32 bits is no other offset: `WRW M[0xFFFF0004]` writes no command (log entry 15). -/
theorem test_script_offset_does_not_wrap :
    (State.reset.hostStep (writeTxn (.dmem 0xFFFF0004) 32 0x3#32)).response = some .busErr ∧
    (State.reset.hostStep (writeTxn (.reg .cmd) 32 0x3#32)).response = some .okWrite := by decide +kernel

/-- V-H23 (95_test_vectors.md): SCAN issued with SRC = LEN = 0, then a write of 5 to SRC, then WAIT. In run (a)
the core moves before the write, in run (b) after it and after one read of WAIT. -/
theorem test_issue_then_write :
    playedHas (State.reset.play [.host, .core, .host] [.issue .scan, .wr (.reg .src) 5#32, .wait])
      (fun t answers => t.args.src == 5#32 && t.status == ⟨false, true, false, false, false⟩ &&
        answers == [.okWrite, .okWrite, .okRead 0x2#32]) = true ∧
    playedHas (State.reset.play [.host, .host, .host] [.issue .scan, .wr (.reg .src) 5#32, .wait])
      (fun t answers => t.args.src == 0#32 && t.status == ⟨false, true, false, false, true⟩ &&
        answers == [.okWrite, .okWrite, .okRead 0x11#32, .okRead 0x12#32]) = true := by decide +kernel

/-- R92: a WAIT with no command pending ends with its first read, whoever moves next. -/
theorem test_wait_idle :
    playedHas (State.reset.play [.core, .host, .host, .host] [.wait, .rd (.reg .id)])
      (fun _ answers => answers == [.okRead 0#32, .okRead 0x48554631#32]) = true := by decide +kernel

/-- R93: what the host reads last after a decompress that gave three bytes at 0x40. -/
theorem test_decompress_reads :
    playedHas ({ State.reset with
        mem := cells 0x40 [0x61#8, 0x62#8, 0x72#8]
        results := ⟨8#32, 3#32, 3#32⟩ }.play []
      (decompressReads { State.reset with results := ⟨8#32, 3#32, 3#32⟩ } 0x40#32))
      (fun _ answers => answers ==
        [.okRead 3#32, .okRead 0x61#32, .okRead 0x62#32, .okRead 0x72#32]) = true := by decide +kernel

/-! ### The hypotheses of the statements can be met

Each theorem gives a state and operands at which all hypotheses of the statement of its name hold
together, with the boundary values of its clauses. -/

theorem witness_StepRunsThePendingCommand :
    (pending 0x4#32 [] State.reset.args).status.busy = true ∧
    decode (pending 0x4#32 [] State.reset.args).cmd = .ok .encode ∧
    (pending 0x4#32 [] State.reset.args).turns = [] ∧
    (State.reset.withFetchWord 32 0x4).turns = Turn.core :: [] ∧
    (State.reset.withFetchWord 32 0x4).status.busy = true ∧
    decode (State.reset.withFetchWord 32 0x4).cmd = .ok .encode := by decide +kernel

theorem witness_IllegalWordCompletesWithIllegalCmd :
    (pending 0x100#32 [] State.reset.args).status.busy = true ∧
    (pending 0x100#32 [] State.reset.args).turns = [] ∧
    0x100 ≤ (pending 0x100#32 [] State.reset.args).cmd.toNat ∧
    0x06 ≤ (pending 0x06#32 [] State.reset.args).cmd.toNat ∧
    (pending 0xFF#32 [] State.reset.args).cmd.toNat ≤ 0xFF ∧
    (State.reset.withFetchWord 32 0x100).status.busy = true ∧
    (State.reset.withFetchWord 32 0x100).turns = Turn.core :: [] ∧
    (State.reset.withFetchWord 32 0x100).cmd = 0x100#32 := by decide +kernel

theorem witness_CoreStepEndsTheCommand :
    (pending 0x2#32 [] State.reset.args).statusLegal ∧
    (pending 0x2#32 [] State.reset.args).status.busy = true :=
  ⟨⟨fun _ => ⟨rfl, rfl, rfl, rfl⟩, by decide +kernel, fun h => (by cases h), fun h => (by cases h)⟩, rfl⟩

theorem witness_IdleBlockStaysAsItIs :
    State.reset.status.busy = false ∧ State.reset.turns = [] := by decide +kernel

theorem witness_ResetInputGivesTheResetValues :
    ({ encoding 16#32 with turns := [.rst, .core] } : State).turns = .rst :: [.core] := rfl

/-- A pending ENCODE whose window holds the first and the last byte, a byte before it and one after. -/
theorem witness_SoftResetKeepsDmemButAPendingWindow :
    (0x1#32).getLsbD 0 = true ∧ (encoding 16#32).status.busy = true ∧
    (encoding 16#32).cmd = 0x4#32 ∧ 0x1F < (encoding 16#32).dmemSize ∧
    (encoding 16#32).args.dst.toNat = 0x20 ∧
    0x2F < (encoding 16#32).args.dst.toNat + (encoding 16#32).args.dcap.toNat ∧
    ¬0x30 < (encoding 16#32).args.dst.toNat + (encoding 16#32).args.dcap.toNat ∧
    State.reset.status.busy = false ∧ 0x30 < State.reset.dmemSize := by decide +kernel

/-- PARAM is the last mapped register and 0x54 is not mapped; the last byte of DMEM can be read and the
next offset cannot; ID cannot be written. -/
theorem witness_BusErrChangesNothing :
    accepted 0x400 (txn .read 0x50 32 0#32) ∧ ¬accepted 0x400 (txn .read 0x54 32 0#32) ∧
    accepted 0x400 (txn .read 0x103FF 8 0#32) ∧ ¬accepted 0x400 (txn .read 0x10400 8 0#32) ∧
    accepted 0x400 (txn .write 0x103FC 32 0#32) ∧ ¬accepted 0x400 (txn .write 0x103FD 32 0#32) ∧
    ¬accepted 0x400 (txn .write 0x00 32 0#32) ∧ ¬accepted 0x400 (txn .read 0x04 8 0#32) := by
  simp [accepted, mapped, sized, readOnly, txn]

theorem witness_BusyBlockDropsWritesAndHidesResults :
    (encoding 16#32).status.busy = true ∧
    accepted (encoding 16#32).dmemSize (txn .write 0x04 32 0x2#32) ∧
    accepted (encoding 16#32).dmemSize (txn .read 0x08 32 0#32) ∧
    (0x08, (encoding 16#32).status.toWord) ∈ busyReads (encoding 16#32) ∧
    accepted (encoding 16#32).dmemSize (txn .read 0x28 32 0#32) ∧
    (∀ p ∈ busyReads (encoding 16#32), p.1 ≠ 0x28) := by
  have hs : (encoding 16#32).dmemSize = 0x400 := rfl
  simp [accepted, mapped, sized, readOnly, txn, hs, busyReads]
  rfl

theorem witness_HostReadsHaveNoSideEffect : (txn .read 0x28 32 0#32).dir = .read := rfl

/-- Both values of BUSY: also the witness of the other statements with a hypothesis on BUSY alone
(StatusReadsFlagsAndClearsByWritingOne, ArgumentWritesOnlyStore, InterruptEnablesAndIrq,
FreqWriteStoresAndInvalidates, TablesAreReadAtTheirOffsets, WaitReturnsTheCommandsResult,
ErrorCodesHaveTheNumbersOfTheTable). -/
theorem witness_WriteToCmdIssuesACommand :
    State.reset.status.busy = false ∧ (encoding 16#32).status.busy = true := ⟨rfl, rfl⟩

/-- CTRL writes with bit 0 = 0. -/
theorem witness_InterruptEnablesAndIrq : (0xFFFFFFFE#32).getLsbD 0 = false := by decide

/-- The least bit of each reserved field, words that differ in reserved bits only, and a command word
with a reserved bit. -/
theorem witness_ReservedFieldsReadZeroAndIgnoreWrites :
    (8 ≤ 8) ∧ (9 ≤ 30 ∧ 30 ≠ 31) ∧ (10 ≤ 10) ∧ (3 ≤ 3) ∧ (5 ≤ 5) ∧ (26 ≤ 26 ∧ 29 ≤ 29) ∧
    (0xFFFFFFFF#32 ^^^ 0x7#32) &&& 0x00000007#32 = 0#32 ∧
    (0xFFFFFFFF#32 ^^^ 0x1F#32) &&& 0x0000001F#32 = 0#32 ∧
    (0xFFFFFFFF#32 ^^^ 0x1#32) &&& 0x00000001#32 = 0#32 ∧
    reservedField 0x100#32 ≠ 0#24 := by decide

/-- The last word and the last byte of DMEM. -/
theorem witness_DmemWindowIsLittleEndian :
    State.reset.sizeLegal ∧ State.reset.status.busy = false ∧
    0x3FC % 4 = 0 ∧ 0x3FC + 3 < State.reset.dmemSize ∧ 0x3FF < State.reset.dmemSize := by
  refine ⟨⟨?_, ?_⟩, ?_⟩ <;> decide +kernel

/-- A window that ends with DMEM, and one a byte longer. -/
theorem witness_ScanCountsTheWindowOrRaisesRange :
    (pending 0x2#32 [] ⟨0x3F5#32, 11#32, 0#32, 0#32, 0#32⟩).args.src.toNat + 11 ≤
      (pending 0x2#32 [] ⟨0x3F5#32, 11#32, 0#32, 0#32, 0#32⟩).dmemSize ∧
    (pending 0x2#32 [] ⟨0x3F6#32, 11#32, 0#32, 0#32, 0#32⟩).dmemSize <
      (pending 0x2#32 [] ⟨0x3F6#32, 11#32, 0#32, 0#32, 0#32⟩).args.src.toNat + 11 := by decide +kernel

/-- The same bytes in another order at another place. -/
theorem witness_ScanDependsOnTheWindowsCountsOnly : ∃ s s' t t' : State,
    s.inputWindow.inRange s.dmemSize ∧ s'.inputWindow.inRange s'.dmemSize ∧
    (s.readBytes s.inputWindow).Perm (s'.readBytes s'.inputWindow) ∧
    exec .scan s = .next t ∧ exec .scan s' = .next t' :=
  ⟨pending 0x2#32 (cells 0 [1#8, 2#8]) ⟨0#32, 2#32, 0#32, 0#32, 0#32⟩,
    pending 0x2#32 (cells 8 [2#8, 1#8]) ⟨8#32, 2#32, 0#32, 0#32, 0#32⟩, _, _,
    by decide +kernel, by decide +kernel, by decide +kernel, rfl, rfl⟩

/-- R136's table fits; counts that sum to one past the limit do not, and to the limit do. -/
theorem witness_BuildWritesItsResultRegisters :
    freqTotal (encoding 16#32).freq ≤ 2 ^ 32 - 1 ∧
    freqTotal (bigFreq 0xFFFFFFFE#32 1#32) = 2 ^ 32 - 1 :=
  ⟨fits_abra, total_big _ _⟩

theorem witness_BuildRefusesAnOverflowingTable :
    2 ^ 32 - 1 < freqTotal (bigFreq 0xFFFFFFFF#32 1#32) := by
  rw [total_big]; decide

/-- A BUILD of R136's table: the witness of every statement about the state a successful BUILD leaves
(BuildLeavesABinaryTree, EachMergeTakesTheTwoFirstNodes, NodeFrequenciesConserveTheTotal,
CodesAreThePathsOfTheTree, CodesArePrefixFree, CodeLengthsAreBounded, CodeIsComplete). -/
theorem witness_successful_build : ∃ t : State, freqTotal (building abraFreq).freq ≤ 2 ^ 32 - 1 ∧
    exec .build (building abraFreq) = .next t ∧ t.built = abraBuilt :=
  ⟨_, fits_abra, test_build, rfl⟩

/-- Leaves 0 and 4, internal nodes 5 and 8 (the root), unused slots from 9 on. -/
theorem witness_BuildLeavesABinaryTree :
    (alphabet abraFreq).length = 5 ∧ (0#9).toNat < 5 ∧ (4#9).toNat < 5 ∧
    (5 ≤ (5#9).toNat ∧ (8#9).toNat + 1 < 2 * 5) ∧ (7#9).toNat + 2 < 2 * 5 ∧
    2 * 5 ≤ (9#9).toNat + 1 := by
  rw [alphabet_abra]; decide

/-- The first merge and the last. -/
theorem witness_EachMergeTakesTheTwoFirstNodes :
    (alphabet abraFreq).length ≤ (5#9).toNat ∧ (5#9).toNat + 1 < 2 * (alphabet abraFreq).length ∧
    (alphabet abraFreq).length ≤ (8#9).toNat ∧ (8#9).toNat + 1 < 2 * (alphabet abraFreq).length := by
  rw [alphabet_abra]; decide

/-- SCAN of "abracadabra" leaves the table that BUILD then takes. -/
theorem witness_NodeFrequenciesConserveTheTotal : ∃ r s : State,
    r.inputWindow.inRange r.dmemSize ∧ exec .scan r = .next s ∧ freqTotal s.freq ≤ 2 ^ 32 - 1 ∧
    alphabet s.freq ≠ [] :=
  have hw : (encoding 16#32).inputWindow.inRange (encoding 16#32).dmemSize := by decide +kernel
  have hr : (encoding 16#32).readBytes (encoding 16#32).inputWindow = abra := by decide +kernel
  ⟨encoding 16#32, _, hw, scan_next _ hw, by rw [hr]; exact fits_abra,
    by rw [hr]; exact alphabet_abra ▸ List.cons_ne_nil _ _⟩

/-- A symbol with a code, one without, an alphabet of more than one and of one, bits past a code's end. -/
theorem witness_CodesAreThePathsOfTheTree :
    entry abraFreq 0x61#8 ≠ 0#32 ∧ 2 ≤ (alphabet abraFreq).length ∧ alphabet oneFreq = [0x61#8] ∧
    entry abraFreq 0x00#8 = 0#32 ∧ abraBuilt.lenOf 0x62#8 ≤ 3 :=
  ⟨by decide +kernel, by rw [alphabet_abra]; decide, alphabet_one, by decide +kernel, by decide +kernel⟩

theorem witness_CodesArePrefixFree :
    (0x61#8 : Byte) ≠ 0x62#8 ∧ abraBuilt.lenOf 0x61#8 ≠ 0 ∧ abraBuilt.lenOf 0x62#8 ≠ 0 := by
  decide +kernel

/-- An alphabet of one and one of more. -/
theorem witness_CodeLengthsAreBounded :
    entry oneFreq 0x61#8 ≠ 0#32 ∧ (alphabet oneFreq).length = 1 ∧
    entry abraFreq 0x61#8 ≠ 0#32 ∧ 2 ≤ (alphabet abraFreq).length :=
  ⟨by decide +kernel, by rw [alphabet_one]; rfl, by decide +kernel, by rw [alphabet_abra]; decide⟩

/-- The least alphabet with a complete code. -/
theorem witness_CodeIsComplete : ∃ t : State, freqTotal (building twoFreq).freq ≤ 2 ^ 32 - 1 ∧
    exec .build (building twoFreq) = .next t ∧ 2 ≤ (alphabet (building twoFreq).freq).length :=
  have h : freqTotal twoFreq ≤ 2 ^ 32 - 1 := by rw [total_two]; decide
  ⟨_, h, build_next _ _ rfl h, le_of_eq (congrArg List.length alphabet_two).symm⟩

/-- Two different states with one frequency table. -/
theorem witness_BuildDependsOnFreqOnly : ∃ s s' t t' : State, s.freq = s'.freq ∧
    freqTotal s.freq ≤ 2 ^ 32 - 1 ∧ exec .build s = .next t ∧ exec .build s' = .next t' ∧
    s.args.nbits ≠ s'.args.nbits :=
  ⟨encoding 16#32, decoding 23#32 11#32, _, _, rfl, fits_abra, build_next _ _ rfl fits_abra,
    build_next _ _ rfl fits_abra, by decide +kernel⟩

/-! ### ENCODE and DECODE -/

/-- R145's windows pass the up-front checks of ENCODE for each capacity used here. -/
theorem encoding_windows (c : Word) (h : c = 2#32 ∨ c = 3#32 ∨ c = 16#32) :
    (encoding c).status.tableValid = true ∧ (encoding c).inputWindow.inRange (encoding c).dmemSize ∧
    (encoding c).outputWindow.inRange (encoding c).dmemSize ∧
    ¬(encoding c).inputWindow.overlaps (encoding c).outputWindow := by
  rcases h with rfl | rfl | rfl <;> decide +kernel

/-- R168's windows pass those of DECODE. -/
theorem decoding_windows (n c : Word) (hn : n = 21#32 ∨ n = 23#32) (hc : c = 10#32 ∨ c = 11#32) :
    (decoding n c).status.tableValid = true ∧ (decoding n c).streamWindow.inRange (decoding n c).dmemSize ∧
    (decoding n c).outputWindow.inRange (decoding n c).dmemSize ∧
    ¬(decoding n c).streamWindow.overlaps (decoding n c).outputWindow := by
  rcases hn with rfl | rfl <;> rcases hc with rfl | rfl <;> decide +kernel

/-- A property of every byte of a list, from a computation over the list. -/
theorem forall_of_all (l : List Byte) (p : Byte → Prop) [DecidablePred p]
    (h : (l.all fun b => decide (p b)) = true) : ∀ b ∈ l, p b := by simpa using h

theorem abra_in_alphabet : ∀ sym ∈ abra, entry abraFreq sym ≠ 0#32 := by
  simp only [abraFreq, entry_histogram]
  exact forall_of_all _ _ (by decide +kernel)

theorem abra_has_codes : ∀ sym ∈ abra, abraBuilt.lenOf sym ≠ 0 := forall_of_all _ _ (by decide +kernel)

/-- The whole stream of R145. -/
theorem abra_codes : abraBuilt.codesOf abra =
    [false, true, true, false, true, true, true, false, true, false, false, false, true, false, true,
      false, true, true, false, true, true, true, false] := by decide +kernel

/-- R145 with the least capacity that holds its 23 bits; the windows are encoding_windows. -/
theorem witness_EncodePacksTheCodesInOrder :
    (∀ sym ∈ (encoding 3#32).readBytes (encoding 3#32).inputWindow,
      (encoding 3#32).built.lenOf sym ≠ 0) ∧
    (((encoding 3#32).readBytes (encoding 3#32).inputWindow).map (encoding 3#32).built.lenOf).sum ≤
      8 * (encoding 3#32).args.dcap.toNat := by
  have hr : (encoding 3#32).readBytes (encoding 3#32).inputWindow = abra := by decide +kernel
  rw [hr]
  exact ⟨abra_has_codes, by decide +kernel⟩

/-- R146: capacity 2 fails at offset 8; with the table of "a" alone, offset 1 has no code. -/
theorem witness_EncodeStopsAtTheFirstBadByte :
    (encoding 2#32).readBytes (encoding 2#32).inputWindow = abra.take 8 ++ 0x62#8 :: abra.drop 9 ∧
    (∀ r ∈ abra.take 8, (encoding 2#32).built.lenOf r ≠ 0) ∧
    ((abra.take 8).map (encoding 2#32).built.lenOf).sum ≤ 8 * (encoding 2#32).args.dcap.toNat ∧
    (encoding 2#32).built.lenOf 0x62#8 ≠ 0 ∧
    8 * (encoding 2#32).args.dcap.toNat <
      ((abra.take 8).map (encoding 2#32).built.lenOf).sum + (encoding 2#32).built.lenOf 0x62#8 ∧
    (withTable oneFreq oneBuilt (encoding 2#32)).readBytes (encoding 2#32).inputWindow =
      [0x61#8] ++ 0x62#8 :: abra.drop 2 ∧
    oneBuilt.lenOf 0x61#8 ≠ 0 ∧ oneBuilt.lenOf 0x62#8 = 0 :=
  ⟨by decide +kernel, fun r h => abra_has_codes r (List.mem_of_mem_take h), by decide +kernel⟩

/-- SCAN of "abracadabra", BUILD, and then ENCODE with the least capacity that fits. -/
theorem witness_EncodeAfterScanAndBuildSucceeds : ∃ s s1 s2 e : State,
    s.sizeLegal ∧ s.inputWindow.inRange s.dmemSize ∧ exec .scan s = .next s1 ∧
    exec .build s1 = .next s2 ∧ e.built = s2.built ∧ e.status.tableValid = true ∧
    e.dmemSize = s.dmemSize ∧ e.inputWindow = s.inputWindow ∧
    e.readBytes e.inputWindow = s.readBytes s.inputWindow ∧ e.outputWindow.inRange e.dmemSize ∧
    ¬e.inputWindow.overlaps e.outputWindow ∧
    (allSymbols.map fun sym => (entry s1.freq sym).toNat * s2.built.lenOf sym).sum ≤
      8 * e.args.dcap.toNat := by
  obtain ⟨hv, hi, ho, hn⟩ := encoding_windows 3#32 (.inr (.inl rfl))
  have hr : (encoding 3#32).readBytes (encoding 3#32).inputWindow = abra := by decide +kernel
  have hs := scan_next _ hi
  rw [hr] at hs
  refine ⟨encoding 3#32, _, _, encoding 3#32, ⟨by decide +kernel, by decide +kernel⟩, hi, hs,
    build_next _ abraFreq rfl fits_abra, built_abra.symm, hv, rfl, rfl, rfl, ho, hn, ?_⟩
  show (allSymbols.map fun sym => (entry (histogram abra) sym).toNat * (buildFrom abraFreq).lenOf sym).sum
    ≤ 24
  simp only [toNat_entry_histogram abra _ (by decide), sum_count_mul, built_abra]
  decide +kernel

/-- A command over two bytes at `src` (9 bits) with a 2-byte window at `dst` and a valid table. -/
def refusing (src dst : Word) : State :=
  withTable abraFreq abraBuilt (pending 0x4#32 [] ⟨src, 2#32, dst, 2#32, 9#32⟩)

/-- Each failure in turn, at the boundary: no table; a source window one byte too long; a destination
window one byte too long; windows that share one byte. The source is two bytes for ENCODE and DECODE. -/
theorem witness_UpFrontErrorsComeInOrderAndArePrecise :
    (pending 0x4#32 [] State.reset.args).status.tableValid = false ∧
    ((refusing 0x3FF#32 0#32).status.tableValid = true ∧ (refusing 0x3FF#32 0#32).dmemSize < 0x3FF + 2) ∧
    ((refusing 0x3FE#32 0x3FF#32).status.tableValid = true ∧
      0x3FE + 2 ≤ (refusing 0x3FE#32 0x3FF#32).dmemSize ∧
      (refusing 0x3FE#32 0x3FF#32).dmemSize < 0x3FF + 2) ∧
    ((refusing 0x10#32 0x11#32).status.tableValid = true ∧
      0x10 + 2 ≤ (refusing 0x10#32 0x11#32).dmemSize ∧ 0x11 + 2 ≤ (refusing 0x10#32 0x11#32).dmemSize ∧
      0x10 < (refusing 0x10#32 0x11#32).args.dst.toNat + 2 ∧
      (refusing 0x10#32 0x11#32).args.dst.toNat < 0x10 + 2) ∧
    (refusing 0x10#32 0x11#32).args.len.toNat = 2 ∧
    ((refusing 0x10#32 0x11#32).args.nbits.toNat + 7) / 8 = 2 := by decide +kernel

/-- R146 and R169's errors; before each of them ERR = 0. -/
theorem witness_RuntimeErrorsLeaveOnlyTheOutputUnspec :
    (nextHas (exec .encode (encoding 2#32)) fun t => t.errCode == .dstOverflow && t.status.err) = true ∧
    (nextHas (exec .decode (decoding 21#32 11#32)) fun t =>
      t.errCode == .truncated && t.status.err) = true ∧
    (encoding 2#32).status.err = false ∧ (decoding 21#32 11#32).status.err = false := by decide +kernel

/-- R168; the windows are decoding_windows. -/
theorem witness_DecodeWritesTheCodedSymbols :
    (decoding 23#32 11#32).tableLegal ∧
    (∀ sym ∈ abra, entry (decoding 23#32 11#32).freq sym ≠ 0#32) ∧
    abra.length ≤ (decoding 23#32 11#32).args.dcap.toNat ∧
    (decoding 23#32 11#32).streamBits (decoding 23#32 11#32).args.src.toNat
      (decoding 23#32 11#32).args.nbits.toNat = (decoding 23#32 11#32).built.codesOf abra :=
  ⟨withTable_legal _ _ _ built_abra fits_abra, abra_in_alphabet, by decide +kernel, by
    rw [show (decoding 23#32 11#32).built = abraBuilt from rfl, abra_codes]; decide +kernel⟩

/-- R169: 21 bits are the codes of nine symbols and two bits of the code of "r". -/
theorem witness_DecodeReportsAnUnfinishedCode :
    (decoding 21#32 11#32).tableLegal ∧
    (∀ sym ∈ abra.take 9, entry (decoding 21#32 11#32).freq sym ≠ 0#32) ∧
    (abra.take 9).length ≤ (decoding 21#32 11#32).args.dcap.toNat ∧
    entry (decoding 21#32 11#32).freq 0x72#8 ≠ 0#32 ∧
    (decoding 21#32 11#32).built.codeOf 0x72#8 = [true, true] ++ [true] ∧
    (decoding 21#32 11#32).streamBits 0x20 21 =
      (decoding 21#32 11#32).built.codesOf (abra.take 9) ++ [true, true] :=
  ⟨withTable_legal _ _ _ built_abra fits_abra, fun sym h => abra_in_alphabet sym (List.mem_of_mem_take h),
    by decide +kernel, abra_in_alphabet _ (by decide), by decide +kernel, by decide +kernel⟩

/-- Capacity 10: the last "a" does not fit. -/
theorem witness_DecodeReportsTheSymbolThatDoesNotFit :
    (decoding 23#32 10#32).tableLegal ∧
    (∀ sym ∈ abra.take 10, entry (decoding 23#32 10#32).freq sym ≠ 0#32) ∧
    (abra.take 10).length = (decoding 23#32 10#32).args.dcap.toNat ∧
    entry (decoding 23#32 10#32).freq 0x61#8 ≠ 0#32 ∧
    (decoding 23#32 10#32).streamBits 0x20 23 = (decoding 23#32 10#32).built.codesOf (abra.take 10) ++
      (decoding 23#32 10#32).built.codeOf 0x61#8 ++ [] :=
  ⟨withTable_legal _ _ _ built_abra fits_abra, fun sym h => abra_in_alphabet sym (List.mem_of_mem_take h),
    by decide +kernel, abra_in_alphabet _ (by decide), by decide +kernel⟩

/-- The empty tree with no bit and with one; the single leaf with the bits 0, 1. -/
theorem witness_DecodeReportsBitsThatBeginNoCode :
    (decodingNone 0#32).built.alpha = 0#9 ∧ (decodingNone 0#32).status.tableValid = true ∧
    (decodingNone 0#32).streamWindow.inRange (decodingNone 0#32).dmemSize ∧
    (decodingNone 1#32).streamWindow.inRange (decodingNone 1#32).dmemSize ∧
    (decodingNone 1#32).outputWindow.inRange (decodingNone 1#32).dmemSize ∧
    ¬(decodingNone 1#32).streamWindow.overlaps (decodingNone 1#32).outputWindow ∧
    (decodingOne 2#32 1#32).built.alpha = 1#9 ∧ (decodingOne 2#32 1#32).status.tableValid = true ∧
    (decodingOne 2#32 1#32).outputWindow.inRange (decodingOne 2#32 1#32).dmemSize ∧
    (decodingOne 2#32 1#32).streamWindow.inRange (decodingOne 2#32 1#32).dmemSize ∧
    ¬(decodingOne 2#32 1#32).streamWindow.overlaps (decodingOne 2#32 1#32).outputWindow ∧
    1 ≤ (decodingOne 2#32 1#32).args.dcap.toNat ∧
    (decodingOne 2#32 1#32).streamBits 0 2 = List.replicate 1 false ++ true :: [] := by decide +kernel

/-- R145's stream, decoded from a state that has the same table and holds it at the same address. -/
theorem witness_DecodeGivesBackWhatEncodeRead : ∃ t : State,
    (encoding 16#32).sizeLegal ∧ (encoding 16#32).tableLegal ∧ (encoding 16#32).status.done = false ∧
    exec .encode (encoding 16#32) = .next t ∧ t.status.done = true ∧
    (decoding 23#32 11#32).built = t.built ∧ (decoding 23#32 11#32).args.nbits = t.results.outBits ∧
    (∀ q, q < t.results.outBytes.toNat →
      (decoding 23#32 11#32).readByte (0x20 + q) = t.readByte (0x20 + q)) ∧
    (encoding 16#32).args.len.toNat ≤ (decoding 23#32 11#32).args.dcap.toNat := by
  have hu : (encoding 16#32).upFrontError (encoding 16#32).inputWindow = none :=
    ((encoding 16#32).upFrontError_none _).2 (encoding_windows 16#32 (.inr (.inr rfl)))
  have hr : (encoding 16#32).readBytes (encoding 16#32).inputWindow = abra := by decide +kernel
  have he : exec .encode (encoding 16#32) =
      .next ((encoding 16#32).writeEncoded (abraBuilt.codesOf abra)).succeed := by
    show execEncode (encoding 16#32) = _
    unfold execEncode
    rw [hu, hr, show encodeFrom (encoding 16#32).built (encoding 16#32).args.dcap.toNat 0 [] abra =
      .ok (abraBuilt.codesOf abra) by decide +kernel]
  rw [abra_codes] at he
  exact ⟨_, ⟨by decide +kernel, by decide +kernel⟩, withTable_legal _ _ _ built_abra fits_abra, rfl, he,
    rfl, rfl, by decide +kernel, by decide +kernel, by decide +kernel⟩

/-- Three bytes that end exactly at DMEM_SIZE, and none at all at DMEM_SIZE. -/
theorem witness_EntryPointsReadBackTheirResults :
    State.reset.status.busy = false ∧ State.reset.sizeLegal ∧
    (0x3FD#32).toNat + ({ State.reset with results := ⟨8#32, 3#32, 3#32⟩ } : State).results.outBytes.toNat ≤
      State.reset.dmemSize ∧
    (0x3FD#32).toNat + ({ State.reset with results := ⟨8#32, 3#32, 3#32⟩ } : State).results.outSyms.toNat ≤
      State.reset.dmemSize ∧
    (0x400#32).toNat + State.reset.results.outBytes.toNat ≤ State.reset.dmemSize :=
  ⟨rfl, ⟨by decide +kernel, by decide +kernel⟩, by decide +kernel⟩

/-- Every command has a next state (here from any state), so the frames speak of each of them. -/
theorem witness_CommandsWriteOnlyTheirOwnResults (i : Instr) :
    ∃ t, exec i (encoding 16#32) = .next t := exec_next i _

/-- An address before the window, one after it and one past DMEM. -/
theorem witness_CommandsWriteOnlyTheirWindow :
    (∃ t, exec .encode (encoding 16#32) = .next t) ∧ 0x1F < (encoding 16#32).args.dst.toNat ∧
    (encoding 16#32).args.dst.toNat + (encoding 16#32).args.dcap.toNat ≤ 0x30 ∧
    (encoding 16#32).dmemSize ≤ 0x400 :=
  ⟨exec_next .encode _, by decide +kernel⟩

/-- SCAN with other DST, DCAP and NBITS; ENCODE with another NBITS; DECODE with another LEN. -/
theorem witness_UnreadArgumentsHaveNoEffect :
    (∀ i, ∃ t, exec i (encoding 16#32) = .next t) ∧
    ((⟨0#32, 11#32, 7#32, 7#32, 7#32⟩ : Args).src = (encoding 16#32).args.src ∧
      (⟨0#32, 11#32, 7#32, 7#32, 7#32⟩ : Args).len = (encoding 16#32).args.len) ∧
    (⟨0#32, 11#32, 0x20#32, 16#32, 7#32⟩ : Args) = { (encoding 16#32).args with nbits := 7#32 } ∧
    (⟨0#32, 7#32, 0x20#32, 16#32, 0#32⟩ : Args) = { (encoding 16#32).args with len := 7#32 } :=
  ⟨fun i => exec_next i _, by decide +kernel⟩

/-- A state with a pending ENCODE meets the whole invariant and has a step: the witness of
StepsKeepDmemCanonical, StepsKeepStatusAndErrorConsistent, ValidTableIsTheBuildOfFreq (TABLE_VALID is 1)
and ReachableStatesKeepTheWholeInvariant (a run of one step). -/
theorem witness_invariant : (encoding 16#32).Inv ∧ (encoding 16#32).status.tableValid = true ∧
    ∃ t, step (encoding 16#32) = .next t ∧ Reaches (encoding 16#32) t := by
  obtain ⟨t, ht⟩ := exec_next .encode (encoding 16#32)
  have hs : step (encoding 16#32) = .next t := ht
  have hm : ((encoding 16#32).mem.all fun c => decide (c.1 < 0x400)) = true := by decide +kernel
  exact ⟨⟨⟨by decide +kernel, by decide +kernel⟩,
    ⟨by decide +kernel, fun c h => of_decide_eq_true (List.all_eq_true.1 hm c h)⟩,
    ⟨fun _ => ⟨rfl, rfl, rfl, rfl⟩, by decide +kernel, fun h => (by cases h), fun h => (by cases h)⟩,
    withTable_legal _ _ _ built_abra fits_abra, Nat.zero_lt_one⟩, rfl, t, hs, .step (.refl _) hs⟩

end Sys2Proof.Tests
end

section
/-! What every step keeps, said once per part of the invariant, and the two statements about steps and runs
that follow: O5 and O56. -/

namespace Sys2Proof.Machine

/-! ### The core's turn on a pending legal word (R86) -/

theorem coreStep_of_decode {s : State} {i : Instr} (hb : s.status.busy = true)
    (hd : decode s.cmd = .ok i) : s.coreStep = exec i s := by
  simp [State.coreStep, hb, hd]

theorem step_of_turns_nil {s : State} (ht : s.turns = []) : step s = s.coreStep := by
  simp [step, ht]

theorem step_of_turns_core {s : State} {rest : List Turn} (ht : s.turns = .core :: rest) :
    step s = (s.endTurn rest).coreStep := by
  simp [step, ht, State.takeTurn]

/-- Settles O5: with no turn left, and on the core's turn, the step is the core's, which decodes CMD. -/
theorem stepRunsThePendingCommand : Obligations.StepRunsThePendingCommand := by
  intro s rest i hb hd
  constructor
  · intro ht
    rw [step_of_turns_nil ht, coreStep_of_decode hb hd]
  · intro ht
    rw [step_of_turns_core ht]
    exact coreStep_of_decode (s := s.endTurn rest) hb hd

/-! ### Properties kept by everything a step is made of -/

/-- A property is kept by each of the events a step is made of: a turn taken from the list, a command or an
illegal word completed (R86, R182), each outcome of a host transaction (R82), and the reset input (R230). -/
structure KeptByEvents (P : State → Prop) : Prop where
  turnTaken : ∀ s rest, P s → P (s.endTurn rest)
  command : ∀ s t i, P s → s.status.busy = true → exec i s = .next t → P t
  illegal : ∀ s, P s → s.status.busy = true → P (illegalCommand s)
  answered : ∀ s r, P s → P (s.respond r)
  readHidden : ∀ s, P s → P s.respondUnspec
  writeDropped : ∀ s, P s → P s.dropWrite
  written : ∀ s x target, P s → accept s.dmemSize x = some target →
    P (s.writeTarget x.size x.wdata target)
  reset : ∀ s, P s → P s.hardReset

section
variable {P : State → Prop} {s t : State}

theorem KeptByEvents.coreStep (hP : KeptByEvents P) (hs : P s) (h : s.coreStep = .next t) : P t := by
  rcases coreStep_cases h with ⟨-, rfl⟩ | ⟨hb, i, -, he⟩ | ⟨hb, rfl⟩
  · exact hs
  · exact hP.command s t i hs hb he
  · exact hP.illegal s hs hb

theorem KeptByEvents.hostStep (hP : KeptByEvents P) (hs : P s) (x : Txn) : P (s.hostStep x) := by
  rcases hostStep_cases s x with ⟨-, h⟩ | ⟨-, h | ⟨v, h⟩⟩ | ⟨-, h⟩ | ⟨target, ha, -, h⟩ <;> rw [h]
  · exact hP.answered _ _ hs
  · exact hP.readHidden _ hs
  · exact hP.answered _ _ hs
  · exact hP.answered _ _ (hP.writeDropped _ hs)
  · exact hP.answered _ _ (hP.written _ _ _ hs ha)

theorem KeptByEvents.step (hP : KeptByEvents P) (hs : P s) (h : step s = .next t) : P t := by
  rcases step_cases h with ⟨rest, hc⟩ | ⟨rest, x, rfl⟩ | ⟨rest, rfl⟩
  · exact hP.coreStep (hP.turnTaken s rest hs) hc
  · exact hP.hostStep (hP.turnTaken s rest hs) x
  · exact hP.reset _ (hP.turnTaken s rest hs)

/-- The induction over runs: what every step keeps holds in every state a run reaches. -/
theorem Reaches.keeps (hP : ∀ u v, P u → Machine.step u = .next v → P v) (hr : Reaches s t) (hs : P s) :
    P t := by
  induction hr with
  | refl => exact hs
  | step _ hstep ih => exact hP _ _ ih hstep

end

/-! ### DMEM_SIZE (R8, R37) -/

theorem exec_param {i : Instr} {s t : State} (h : exec i s = .next t) : t.param = s.param := by
  rcases exec_cases h with ⟨-, rfl⟩ | ⟨-, rfl⟩ | ⟨-, rfl⟩ | ⟨-, -, rfl⟩ | ⟨-, rfl⟩ |
    ⟨-, e, info, -, rfl⟩ | ⟨-, -, e, info, -, rfl⟩ | ⟨-, -, bits, -, rfl⟩ | ⟨-, -, out, -, rfl⟩ <;> simp

theorem writeTarget_param {s : State} {x : Txn} {target : Target}
    (ha : accept s.dmemSize x = some target) : (s.writeTarget x.size x.wdata target).param = s.param := by
  rcases writeTarget_cases s x target ha with ⟨h, -⟩ | h | ⟨a, h⟩ | ⟨e, h⟩ | ⟨h, -⟩ | h | ⟨f, h⟩ |
    ⟨a, vs, -, h⟩ <;> simp [h, State.softReset]

theorem keptByEvents_param (p : Word) : KeptByEvents fun s => s.param = p where
  turnTaken _ _ hs := hs
  command _ _ _ hs _ h := (exec_param h).trans hs
  illegal _ hs _ := hs
  answered _ _ hs := hs
  readHidden _ hs := hs
  writeDropped _ hs := hs
  written _ _ _ hs ha := (writeTarget_param ha).trans hs
  reset _ hs := hs

theorem step_param {s t : State} (h : step s = .next t) : t.param = s.param :=
  (keptByEvents_param s.param).step rfl h

theorem step_keeps_sizeLegal {s t : State} (hs : s.sizeLegal) (h : step s = .next t) : t.sizeLegal := by
  unfold State.sizeLegal State.dmemSize at *
  rwa [step_param h]

/-! ### DMEM (R46, R68) -/

/-- What a command can do to DMEM's list: nothing, forget its output window, or write bytes from DST up that
fit the window, which lies in DMEM. -/
theorem exec_mem {i : Instr} {s t : State} (h : exec i s = .next t) :
    t.mem = s.mem ∨ t.mem = (s.forgetWindow s.outputWindow).mem ∨
      (s.outputWindow.inRange s.dmemSize ∧ ∃ vs, vs.length ≤ s.args.dcap.toNat ∧
        t.mem = (s.writeBytes s.args.dst.toNat vs).mem) := by
  rcases exec_cases h with ⟨-, rfl⟩ | ⟨-, rfl⟩ | ⟨-, rfl⟩ | ⟨-, -, rfl⟩ | ⟨-, rfl⟩ |
    ⟨-, e, info, -, rfl⟩ | ⟨-, -, e, info, -, rfl⟩ | ⟨-, hw, bits, hl, rfl⟩ | ⟨-, hw, out, hl, rfl⟩
  · exact .inl rfl
  · exact .inl rfl
  · exact .inl rfl
  · exact .inl rfl
  · exact .inl rfl
  · exact .inl rfl
  · exact .inr (.inl rfl)
  · exact .inr (.inr ⟨hw, packBytes bits, by simpa [ceil8_le_iff] using hl, rfl⟩)
  · exact .inr (.inr ⟨hw, out, hl, rfl⟩)

theorem exec_keeps_memLegal {i : Instr} {s t : State} (hs : s.memLegal) (h : exec i s = .next t) :
    t.memLegal := by
  obtain ⟨hwf, hbound⟩ := hs
  have hsize : t.dmemSize = s.dmemSize := congrArg BitVec.toNat (exec_param h)
  unfold State.memLegal
  rw [hsize]
  rcases exec_mem h with hm | hm | ⟨hw, vs, hl, hm⟩ <;> rw [hm]
  · exact ⟨hwf, hbound⟩
  · exact s.forgetWindow_mem_legal _ hwf hbound
  · refine s.writeBytes_mem_legal _ _ _ hwf hbound fun _ => ?_
    have : s.args.dst.toNat + s.args.dcap.toNat ≤ s.dmemSize := hw
    omega

theorem writeTarget_keeps_memLegal {s : State} {x : Txn} {target : Target} (hs : s.memLegal)
    (ha : accept s.dmemSize x = some target) : (s.writeTarget x.size x.wdata target).memLegal := by
  obtain ⟨hwf, hbound⟩ := hs
  rcases writeTarget_cases s x target ha with ⟨h, -⟩ | h | ⟨a, h⟩ | ⟨e, h⟩ | ⟨h, -⟩ | h | ⟨f, h⟩ |
    ⟨a, vs, hl, h⟩ <;> rw [h]
  · exact ⟨hwf, hbound⟩
  · exact ⟨hwf, hbound⟩
  · exact ⟨hwf, hbound⟩
  · exact ⟨hwf, hbound⟩
  · exact s.softReset_mem_legal hwf hbound
  · exact ⟨hwf, hbound⟩
  · exact ⟨hwf, hbound⟩
  · unfold State.memLegal
    rw [State.writeBytes_dmemSize]
    exact s.writeBytes_mem_legal _ _ _ hwf hbound fun _ => hl

theorem keptByEvents_memLegal : KeptByEvents State.memLegal where
  turnTaken _ _ hs := hs
  command _ _ _ hs _ h := exec_keeps_memLegal hs h
  illegal _ hs _ := hs
  answered _ _ hs := hs
  readHidden _ hs := hs
  writeDropped _ hs := hs
  written _ _ _ hs ha := writeTarget_keeps_memLegal hs ha
  reset _ _ := ⟨.nil, fun _ hc => nomatch hc⟩

/-! ### STATUS and the error registers (R24, R85, R86) -/

section
variable {s t : State}

/-- Only BUSY, DONE, ERR, ERR_CODE and ERR_INFO count; the equations are proved by the laws of State. -/
theorem State.statusLegal.congr (h : s.statusLegal) (hbusy : t.status.busy = s.status.busy := by simp)
    (hdone : t.status.done = s.status.done := by simp) (herr : t.status.err = s.status.err := by simp)
    (hcode : t.errCode = s.errCode := by simp) (hinfo : t.errInfo = s.errInfo := by simp) :
    t.statusLegal where
  pending := by rw [hbusy, hdone, herr, hcode, hinfo]; exact h.pending
  exclusive := by rw [hdone, herr]; exact h.exclusive
  clean := by rw [hdone, hcode, hinfo]; exact h.clean
  recorded := by rw [herr, hcode]; exact h.recorded

theorem State.statusLegal.succeed (h : s.statusLegal) (hb : s.status.busy = true) :
    s.succeed.statusLegal := by
  obtain ⟨-, herr, hcode, hinfo⟩ := h.pending hb
  exact ⟨by simp, by simp [herr], by simp [hcode, hinfo], by simp [herr]⟩

theorem State.statusLegal.raise (h : s.statusLegal) (hb : s.status.busy = true) {e : ErrCode}
    (he : e ≠ .none) (info : Word) : (s.raise e info).statusLegal := by
  obtain ⟨hdone, -, -, -⟩ := h.pending hb
  exact ⟨by simp, by simp [hdone], by simp [hdone], by simp [he]⟩

theorem State.statusLegal.acknowledge (h : s.statusLegal) (v : Word) : (s.acknowledge v).statusLegal where
  pending hb := by
    obtain ⟨hdone, herr, hcode, hinfo⟩ := h.pending hb
    simp [hdone, herr, hcode, hinfo]
  exclusive hboth := by
    obtain ⟨hdone, herr⟩ := hboth
    exact h.exclusive ⟨Bool.and_elim_left hdone, Bool.and_elim_left herr⟩
  clean hdone := h.clean (Bool.and_elim_left hdone)
  recorded herr := h.recorded (Bool.and_elim_left herr)

theorem State.issue_statusLegal (s : State) (w : Word) : (s.issue w).statusLegal :=
  ⟨by simp, by simp, by simp, by simp⟩

theorem State.resetOver_statusLegal (s : State) (m : Memory) (d : Nat) : (s.resetOver m d).statusLegal :=
  ⟨by simp, by simp, by simp, by simp⟩

theorem exec_keeps_statusLegal {i : Instr} (hs : s.statusLegal) (hb : s.status.busy = true)
    (h : exec i s = .next t) : t.statusLegal := by
  rcases exec_cases h with ⟨-, rfl⟩ | ⟨-, rfl⟩ | ⟨-, rfl⟩ | ⟨-, -, rfl⟩ | ⟨-, rfl⟩ |
    ⟨-, e, info, he, rfl⟩ | ⟨-, -, e, info, he, rfl⟩ | ⟨-, -, bits, -, rfl⟩ | ⟨-, -, out, -, rfl⟩
  · exact hs.succeed hb
  · exact State.statusLegal.succeed hs.congr hb
  · exact State.statusLegal.succeed hs.congr hb
  · exact State.statusLegal.succeed hs.congr hb
  · have hdrop : s.dropTable.statusLegal := hs.congr
    exact hdrop.raise hb (by decide) _
  · exact hs.raise hb (by rcases he with rfl | rfl | rfl <;> decide) _
  · have hforget : s.forgetOutput.statusLegal := hs.congr
    exact hforget.raise (by simpa using hb) (by rcases he with rfl | rfl | rfl | rfl <;> decide) _
  · exact State.statusLegal.succeed hs.congr (by simpa using hb)
  · exact State.statusLegal.succeed hs.congr (by simpa using hb)

theorem writeTarget_keeps_statusLegal {x : Txn} {target : Target} (hs : s.statusLegal)
    (ha : accept s.dmemSize x = some target) : (s.writeTarget x.size x.wdata target).statusLegal := by
  rcases writeTarget_cases s x target ha with ⟨h, -⟩ | h | ⟨a, h⟩ | ⟨e, h⟩ | ⟨h, -⟩ | h | ⟨f, h⟩ |
    ⟨a, vs, -, h⟩ <;> rw [h]
  · exact s.issue_statusLegal _
  · exact hs.acknowledge _
  · exact hs.congr
  · exact hs.congr
  · exact s.resetOver_statusLegal _ _
  · exact hs
  · exact hs.congr
  · exact hs.congr

end

theorem keptByEvents_statusLegal : KeptByEvents State.statusLegal where
  turnTaken _ _ hs := hs.congr
  command _ _ _ hs hb h := exec_keeps_statusLegal hs hb h
  illegal _ hs hb := hs.raise hb (by decide) _
  answered _ _ hs := hs.congr
  readHidden _ hs := hs.congr
  writeDropped _ hs := hs.congr
  written _ _ _ hs ha := writeTarget_keeps_statusLegal hs ha
  reset s _ := s.resetOver_statusLegal _ _

/-! ### TABLE_VALID (R48) -/

section
variable {s t : State}

/-- Only TABLE_VALID, FREQ and what BUILD writes count; the equations are proved by the laws of State. -/
theorem State.tableLegal.congr (h : s.tableLegal)
    (hvalid : t.status.tableValid = s.status.tableValid := by simp) (hfreq : t.freq = s.freq := by simp)
    (hbuilt : t.built = s.built := by simp) : t.tableLegal := by
  unfold State.tableLegal
  rw [hvalid, hfreq, hbuilt]
  exact h

theorem tableLegal_of_invalid (h : t.status.tableValid = false) : t.tableLegal :=
  fun hv => absurd hv (by simp [h])

theorem exec_keeps_tableLegal {i : Instr} (hs : s.tableLegal) (h : exec i s = .next t) :
    t.tableLegal := by
  rcases exec_cases h with ⟨-, rfl⟩ | ⟨-, rfl⟩ | ⟨-, rfl⟩ | ⟨-, hfits, rfl⟩ | ⟨-, rfl⟩ |
    ⟨-, e, info, -, rfl⟩ | ⟨-, -, e, info, -, rfl⟩ | ⟨-, -, bits, -, rfl⟩ | ⟨-, -, out, -, rfl⟩
  · exact hs.congr
  · exact tableLegal_of_invalid rfl
  · exact tableLegal_of_invalid rfl
  · exact fun _ => ⟨hfits, rfl⟩
  · exact tableLegal_of_invalid rfl
  · exact hs.congr
  · exact hs.congr
  · exact hs.congr
  · exact hs.congr

theorem writeTarget_keeps_tableLegal {x : Txn} {target : Target} (hs : s.tableLegal)
    (ha : accept s.dmemSize x = some target) : (s.writeTarget x.size x.wdata target).tableLegal := by
  rcases writeTarget_cases s x target ha with ⟨h, -⟩ | h | ⟨a, h⟩ | ⟨e, h⟩ | ⟨h, -⟩ | h | ⟨f, h⟩ |
    ⟨a, vs, -, h⟩ <;> rw [h]
  · exact hs.congr
  · exact hs.congr
  · exact hs.congr
  · exact hs.congr
  · exact tableLegal_of_invalid rfl
  · exact hs
  · exact tableLegal_of_invalid rfl
  · exact hs.congr

end

theorem keptByEvents_tableLegal : KeptByEvents State.tableLegal where
  turnTaken _ _ hs := hs
  command _ _ _ hs _ h := exec_keeps_tableLegal hs h
  illegal _ hs _ := hs
  answered _ _ hs := hs
  readHidden _ hs := hs
  writeDropped _ hs := hs
  written _ _ _ hs ha := writeTarget_keeps_tableLegal hs ha
  reset _ _ := tableLegal_of_invalid rfl

/-! ### The order of the draws (log entry 2) -/

/-- The event that gives the unwritten bytes stays the same, and events are only counted up. -/
theorem State.drawsLegal.mono {s t : State} (h : s.drawsLegal)
    (hst : t.dmemDraw = s.dmemDraw ∧ s.draws ≤ t.draws) : t.drawsLegal := by
  unfold State.drawsLegal at *
  omega

theorem exec_draws {i : Instr} {s t : State} (h : exec i s = .next t) :
    t.dmemDraw = s.dmemDraw ∧ s.draws ≤ t.draws := by
  rcases exec_cases h with ⟨-, rfl⟩ | ⟨-, rfl⟩ | ⟨-, rfl⟩ | ⟨-, -, rfl⟩ | ⟨-, rfl⟩ |
    ⟨-, e, info, -, rfl⟩ | ⟨-, -, e, info, -, rfl⟩ | ⟨-, -, bits, -, rfl⟩ | ⟨-, -, out, -, rfl⟩ <;> simp

theorem writeTarget_draws {s : State} {x : Txn} {target : Target}
    (ha : accept s.dmemSize x = some target) :
    (s.writeTarget x.size x.wdata target).dmemDraw = s.dmemDraw ∧
      s.draws ≤ (s.writeTarget x.size x.wdata target).draws := by
  rcases writeTarget_cases s x target ha with ⟨h, -⟩ | h | ⟨a, h⟩ | ⟨e, h⟩ | ⟨h, -⟩ | h | ⟨f, h⟩ |
    ⟨a, vs, -, h⟩ <;> simp [h, State.softReset]

theorem keptByEvents_drawsLegal : KeptByEvents State.drawsLegal where
  turnTaken _ _ hs := hs
  command _ _ _ hs _ h := hs.mono (exec_draws h)
  illegal _ hs _ := hs
  answered _ _ hs := hs
  readHidden s hs := hs.mono ⟨rfl, Nat.le_succ s.draws⟩
  writeDropped _ hs := hs
  written _ _ _ hs ha := hs.mono (writeTarget_draws ha)
  reset s _ := Nat.lt_succ_self s.draws

/-! ### The whole invariant -/

theorem step_keeps_inv {s t : State} (hs : s.Inv) (h : step s = .next t) : t.Inv where
  size := step_keeps_sizeLegal hs.size h
  mem := keptByEvents_memLegal.step hs.mem h
  status := keptByEvents_statusLegal.step hs.status h
  table := keptByEvents_tableLegal.step hs.table h
  draws := keptByEvents_drawsLegal.step hs.draws h

/-- Settles O56, by induction on the run: every step keeps each of the five parts. -/
theorem reachableStatesKeepTheWholeInvariant : Obligations.ReachableStatesKeepTheWholeInvariant :=
  fun _ _ hs hr => hr.keeps (fun _ _ => step_keeps_inv) hs

end Sys2Proof.Machine
end

section
/-! The parts of the invariant as statements about one step (O53 to O55) and the state right after reset
(O12, O57). -/

namespace Sys2Proof.Machine

/-- Settles O53: `memLegal` is kept by every event a step is made of, and PARAM is written by none. -/
theorem stepsKeepDmemCanonical : Obligations.StepsKeepDmemCanonical :=
  fun _ _ hs h => ⟨keptByEvents_memLegal.step hs h, step_param h⟩

/-- Settles O54: `statusLegal` is kept by every event a step is made of. -/
theorem stepsKeepStatusAndErrorConsistent : Obligations.StepsKeepStatusAndErrorConsistent :=
  fun _ _ hs h => keptByEvents_statusLegal.step hs h

/-- Settles O55: `tableLegal` is kept by every event a step is made of. -/
theorem validTableIsTheBuildOfFreq : Obligations.ValidTableIsTheBuildOfFreq :=
  fun _ _ hs h => keptByEvents_tableLegal.step hs h

/-- Settles O12: the registers are read off the literal; the bytes of DMEM are event 0's. -/
theorem resetStateHasTheResetValues : Obligations.ResetStateHasTheResetValues :=
  ⟨rfl, rfl, rfl, rfl, rfl, rfl, rfl, rfl, rfl, rfl, rfl, rfl, rfl, entry_replicate 0#32, rfl, 0,
    fun _ => rfl⟩

/-- Settles O57, part by part: no command is pending, no flag is set, no byte is listed. -/
theorem resetStateMeetsTheWholeInvariant : Obligations.ResetStateMeetsTheWholeInvariant where
  size := by unfold State.sizeLegal; decide
  mem := ⟨.nil, fun _ hc => nomatch hc⟩
  status := ⟨nofun, nofun, nofun, nofun⟩
  table := tableLegal_of_invalid rfl
  draws := Nat.zero_lt_one

end Sys2Proof.Machine
end

section
/-! The host's accesses (R38, R50, R51, R81): when the spec's `accepted` is the model's `accept`, one rule for
reads and one for writes, and the statements that follow: O15, O16, O19, O21, O22, O24. -/

namespace Sys2Proof.Machine

open Sys2Proof.Spec

/-! ### Acceptance by numbers (R81) -/

/-- The read-only names are those at the read-only offsets (R81 item 3). -/
theorem Target.readOnly_iff (target : Target) :
    target.readOnly = true ↔ Spec.readOnly target.offset := by
  unfold Spec.readOnly
  cases target with
  | reg r => cases r <;> decide
  | freq s =>
    have := s.isLt
    refine iff_of_false nofun ?_
    simp only [Target.offset, List.mem_cons, List.not_mem_nil, or_false]
    omega
  | dmem a =>
    refine iff_of_false nofun ?_
    simp only [Target.offset, List.mem_cons, List.not_mem_nil, or_false]
    omega
  | codeLen s | nodeFreq s | nodeInfo s =>
    have := s.isLt
    exact iff_of_true rfl (.inr (by simp only [Target.offset]; omega))
  | codeBits s w =>
    have := s.isLt
    have := w.isLt
    exact iff_of_true rfl (.inr (by simp only [Target.offset]; omega))

/-- Everything but DMEM lies below its window (R38). -/
theorem Target.offset_lt_window {target : Target} (h : ∀ a, target ≠ .dmem a) :
    target.offset < 0x10000 := by
  cases target with
  | reg r =>
    have := r.index_lt
    simp only [Target.offset]; omega
  | freq s | codeLen s | nodeFreq s | nodeInfo s =>
    have := s.isLt
    simp only [Target.offset]; omega
  | codeBits s w =>
    have := s.isLt
    have := w.isLt
    simp only [Target.offset]; omega
  | dmem a => exact absurd rfl (h a)

/-- The offset of everything but DMEM is a multiple of 4 (R38). -/
theorem Target.offset_aligned {target : Target} (h : ∀ a, target ≠ .dmem a) :
    target.offset % 4 = 0 := by
  cases target with
  | reg _ | freq _ | codeLen _ | codeBits _ _ | nodeFreq _ | nodeInfo _ =>
    simp only [Target.offset]; omega
  | dmem a => exact absurd rfl (h a)

/-- R63 on everything but DMEM. -/
theorem sizeOk_of_ne_dmem {target : Target} (h : ∀ a, target ≠ .dmem a) (size off bits : Nat) :
    sizeOk size off bits target = (bits == 32 && off % 4 == 0) := by
  cases target with
  | reg _ | freq _ | codeLen _ | codeBits _ _ | nodeFreq _ | nodeInfo _ => rfl
  | dmem a => exact absurd rfl (h a)

/-- The sizes and alignments of R63 in numbers are the model's, for what is mapped at the offset. -/
theorem sizeOk_of_sized {size off bits : Nat} {target : Target} (hl : locate size off = some target)
    (hs : Spec.sized size off bits) : sizeOk size off bits target = true := by
  by_cases hd : ∃ a, target = .dmem a
  · obtain ⟨a, rfl⟩ := hd
    have := locate_dmem hl
    unfold Spec.sized at hs
    simp only [sizeOk, Bool.or_eq_true, Bool.and_eq_true, beq_iff_eq, decide_eq_true_eq]
    omega
  · have hne : ∀ a, target ≠ .dmem a := fun a e => hd ⟨a, e⟩
    have haligned : off < 0x10000 → off % 4 = 0 := fun _ => by unfold Spec.sized at hs; omega
    have := offset_of_locate hl haligned
    have := Target.offset_lt_window hne
    unfold Spec.sized at hs
    simp only [sizeOk_of_ne_dmem hne, Bool.and_eq_true, beq_iff_eq]
    omega

/-- R81: a transaction the spec accepts is accepted for the name at its offset or, with DMEM, for the byte
there. -/
theorem accept_of_accepted {size : Nat} {t : Txn} (h : Spec.accepted size t) :
    ∃ target, accept size t = some target ∧ target.offset = t.offset.toNat := by
  obtain ⟨hmapped, hsized, hwritable⟩ := h
  obtain ⟨target, hl⟩ := (locate_isSome size t.offset.toNat).2 hmapped
  have hoff := offset_of_locate hl fun _ => by unfold Spec.sized at hsized; omega
  rw [← hoff, ← Target.readOnly_iff] at hwritable
  refine ⟨target, ?_, hoff⟩
  simp [accept, hl, sizeOk_of_sized hl hsized, hwritable]

/-- Only one register has an offset. -/
theorem eq_reg_of_accept {size : Nat} {t : Txn} {target : Target} {r : Reg}
    (ha : accept size t = some target) (hoff : (Target.reg r).offset = t.offset.toNat) :
    target = .reg r := by
  obtain ⟨hl, -, -⟩ := accept_eq_some ha
  rw [← hoff, locate_offset size (.reg r) fun _ h => nomatch h] at hl
  exact (Option.some.inj hl).symm

/-- R81 item 3: a write to a read-only name is answered BUSERR. -/
theorem accept_readOnly {size : Nat} {t : Txn} {target : Target} (hd : t.dir = .write)
    (hoff : t.offset.toNat = target.offset) (hro : target.readOnly = true) : accept size t = none := by
  refine Option.eq_none_iff_forall_not_mem.2 fun x hx => ?_
  obtain ⟨hl, -, hw⟩ := accept_eq_some (Option.mem_def.1 hx)
  rw [hoff, locate_offset size target fun a h => by rw [h] at hro; cases hro] at hl
  cases hl
  exact hw ⟨hd, hro⟩

/-! ### One rule for reads, one for writes -/

section
variable {s : State} {target : Target}

/-- A transaction at the offset of a name, which is no byte of DMEM, has that offset. -/
theorem txn_offset (hne : ∀ a, target ≠ .dmem a) (dir : Dir) (size : Nat) (v : Word) :
    (txn dir target.offset size v).offset.toNat = target.offset := by
  have := Target.offset_lt_window hne
  rw [txn, BitVec.toNat_ofNat, Nat.mod_eq_of_lt (by omega)]

/-- A 32-bit transaction at the offset of a name, which is no byte of DMEM, is accepted unless it writes to a
read-only one (R81). -/
theorem accept_txn (hne : ∀ a, target ≠ .dmem a) (size : Nat) (dir : Dir) (v : Word)
    (hw : dir = .write → target.readOnly = false) :
    accept size (txn dir target.offset 32 v) = some target := by
  refine accept_named target (txn_offset hne dir 32 v) ?_ (fun a h => absurd h (hne a)) hw
  simp [sizeOk_of_ne_dmem hne, Target.offset_aligned hne, txn]

/-- R50, R51: a host read of a name whose value is defined answers it and changes nothing else. -/
theorem hostStep_txn_read (hne : ∀ a, target ≠ .dmem a)
    (hr : s.status.busy = true → target.readableWhileBusy = true) :
    s.hostStep (txn .read target.offset 32 0#32) = s.respond (.okRead (s.readTarget 32 target)) := by
  rw [hostStep_read (accept_txn hne _ .read _ nofun) rfl,
    if_neg fun ⟨hb, hn⟩ => absurd (hr hb) (by simp [hn])]
  rfl

/-- R51, R36: a host write that is not dropped takes effect and is answered OK. -/
theorem hostStep_txn_write (hne : ∀ a, target ≠ .dmem a) (hro : target.readOnly = false)
    (hw : s.status.busy = true → target = .reg .ctrl) (v : Word) :
    s.hostStep (txn .write target.offset 32 v) = (s.writeTarget 32 v target).respond .okWrite := by
  rw [hostStep_write (accept_txn hne _ .write _ fun _ => hro) rfl, if_neg fun ⟨hb, hc⟩ => hc (hw hb)]
  rfl

/-- R81 item 3, R209: a host write to a read-only name changes nothing and is answered BUSERR. -/
theorem hostStep_txn_readOnly (hro : target.readOnly = true) (v : Word) :
    s.hostStep (txn .write target.offset 32 v) = s.respond .busErr :=
  hostStep_busErr (accept_readOnly rfl
    (txn_offset (fun a h => by rw [h] at hro; cases hro) .write 32 v) hro)

/-- A host read of a register whose value is defined (R50, R51). -/
theorem hostStep_readReg (r : Reg)
    (hr : s.status.busy = true → (Target.reg r).readableWhileBusy = true) :
    s.hostStep (txn .read (4 * r.index) 32 0#32) = s.respond (.okRead (s.readReg r)) :=
  hostStep_txn_read (target := .reg r) nofun hr

/-- A host write to a writable register while BUSY = 0 (R51). -/
theorem hostStep_writeReg (r : Reg) (hro : (Target.reg r).readOnly = false)
    (hb : s.status.busy = false) (v : Word) :
    s.hostStep (txn .write (4 * r.index) 32 v) = (s.writeReg v r).respond .okWrite :=
  hostStep_txn_write (target := .reg r) nofun hro (fun h => absurd (hb.symm.trans h) nofun) v

end

/-! ### ID and PARAM -/

/-- Settles O15: both are readable while BUSY = 1 and read-only. -/
theorem idAndParamAreConstant : Obligations.IdAndParamAreConstant := by
  intro s v
  refine ⟨hostStep_readReg .id fun _ => rfl, ?_, hostStep_txn_readOnly (target := .reg .id) rfl v,
    hostStep_txn_readOnly (target := .reg .param) rfl v⟩
  rw [show BitVec.ofNat 32 s.dmemSize = s.readReg .param by
    rw [State.dmemSize, BitVec.ofNat_toNat, BitVec.setWidth_eq]; rfl]
  exact hostStep_readReg .param fun _ => rfl

/-! ### Reads and writes while BUSY = 1 (R50) -/

/-- The eleven registers the host can read while BUSY = 1. -/
def busyRegs : List Reg :=
  [.id, .cmd, .status, .src, .len, .dst, .dcap, .nbits, .irqEn, .ctrl, .param]

theorem readableWhileBusy_iff (target : Target) :
    target.readableWhileBusy = true ↔ ∃ r ∈ busyRegs, target = .reg r := by
  cases target with
  | reg r => cases r <;> simp [Target.readableWhileBusy, busyRegs]
  | freq _ | codeLen _ | codeBits _ _ | nodeFreq _ | nodeInfo _ | dmem _ =>
    simp [Target.readableWhileBusy]

theorem busyReads_eq (s : State) :
    busyReads s = busyRegs.map fun r => ((Target.reg r).offset, s.readReg r) := rfl

/-- Settles O16: the name the transaction is accepted for is told by its offset, and is one of the eleven
registers exactly when the offset is in the list of R50. -/
theorem busyBlockDropsWritesAndHidesResults : Obligations.BusyBlockDropsWritesAndHidesResults := by
  intro s t hb hacc
  obtain ⟨target, ha, hoff⟩ := accept_of_accepted hacc
  refine ⟨fun hd hne => ?_, fun hd v hv => ?_, fun hd hnone => ?_⟩
  · have hctrl : target ≠ .reg .ctrl := fun e => hne (by rw [← hoff, e]; rfl)
    rw [hostStep_write ha hd, if_pos ⟨hb, hctrl⟩]
    rfl
  · rw [busyReads_eq] at hv
    obtain ⟨r, hr, hp⟩ := List.mem_map.1 hv
    obtain ⟨hroff, rfl⟩ := Prod.mk.inj hp
    obtain rfl := eq_reg_of_accept ha hroff
    have hread := (readableWhileBusy_iff (.reg r)).2 ⟨r, hr, rfl⟩
    rw [hostStep_read ha hd, if_neg (by simp [hread])]
    rfl
  · have hhidden : target.readableWhileBusy = false := by
      refine Bool.eq_false_iff.2 fun h => ?_
      obtain ⟨r, hr, rfl⟩ := (readableWhileBusy_iff _).1 h
      exact hnone _ (by rw [busyReads_eq]; exact List.mem_map_of_mem hr) hoff
    rw [hostStep_read ha hd, if_pos ⟨hb, hhidden⟩]
    rfl

/-! ### Reads while BUSY = 0 (R51) -/

/-- The 21 registers in the order of their offsets (R38). -/
def allRegs : List Reg :=
  [.id, .cmd, .status, .errCode, .errInfo, .src, .len, .dst, .dcap, .nbits, .outBits, .outBytes, .outSyms,
    .alpha, .total, .root, .nodeCount, .maxlen, .irqEn, .ctrl, .param]

theorem idleReads_eq (s : State) :
    idleReads s = allRegs.map fun r => (4 * r.index, s.readReg r) := rfl

/-- Settles O24: every name but a DMEM byte is read by one rule; the fields of NODE_INFO are laws of its
word. -/
theorem tablesAreReadAtTheirOffsets : Obligations.TablesAreReadAtTheirOffsets := by
  intro s sym w i hb
  have hread (target : Target) (hne : ∀ a, target ≠ .dmem a) :=
    hostStep_txn_read (s := s) hne fun h => absurd (hb.symm.trans h) nofun
  refine ⟨fun p hp => ?_, hread (.codeLen sym) nofun, hread (.codeBits sym w) nofun,
    hread (.nodeFreq i) nofun, _, hread (.nodeInfo i) nofun, ?_⟩
  · rw [idleReads_eq] at hp
    obtain ⟨r, -, rfl⟩ := List.mem_map.1 hp
    exact hread (.reg r) nofun
  · exact ⟨NodeInfo.toWord_leaf _, NodeInfo.toWord_used _, NodeInfo.toWord_reserved _,
      NodeInfo.toWord_right _, NodeInfo.toWord_left _, NodeInfo.toWord_symbol _⟩

/-! ### Writes while BUSY = 0 (R51) -/

/-- Settles O21: each of the five writes is the register's own. -/
theorem argumentWritesOnlyStore : Obligations.ArgumentWritesOnlyStore :=
  fun _ v hb => ⟨hostStep_writeReg .src rfl hb v, hostStep_writeReg .len rfl hb v,
    hostStep_writeReg .dst rfl hb v, hostStep_writeReg .dcap rfl hb v,
    hostStep_writeReg .nbits rfl hb v⟩

end Sys2Proof.Machine
end

section
/-! The words of STATUS and IRQ_EN and the reserved fields (R24, R35, R39): O19, O20 and O22. -/

namespace Sys2Proof.Machine

open Sys2Proof.Spec

/-! ### The flags of STATUS and the enables of IRQ_EN -/

/-- The bits of STATUS (R24). -/
theorem Status.getLsbD_toWord (st : Status) (n : Nat) : st.toWord.getLsbD n =
    match n with
    | 0 => st.busy
    | 1 => st.done
    | 2 => st.err
    | 3 => st.tableValid
    | 4 => st.busyViol
    | _ => false := by
  simp only [Status.toWord, BitVec.getLsbD_append, BitVec.getLsbD_ofBool]
  rcases n with _ | _ | _ | _ | _ | n <;> simp

/-- The bits of IRQ_EN (R35). -/
theorem IrqEnable.getLsbD_toWord (e : IrqEnable) (n : Nat) : e.toWord.getLsbD n =
    match n with
    | 0 => e.doneIe
    | 1 => e.errIe
    | 2 => e.violIe
    | _ => false := by
  simp only [IrqEnable.toWord, BitVec.getLsbD_append, BitVec.getLsbD_ofBool]
  rcases n with _ | _ | _ | n <;> simp

theorem Status.reserved (st : Status) {n : Nat} (h : 5 ≤ n) : st.toWord.getLsbD n = false := by
  obtain ⟨m, rfl⟩ := Nat.exists_eq_add_of_le' h
  exact st.getLsbD_toWord (m + 5)

theorem IrqEnable.reserved (e : IrqEnable) {n : Nat} (h : 3 ≤ n) : e.toWord.getLsbD n = false := by
  obtain ⟨m, rfl⟩ := Nat.exists_eq_add_of_le' h
  exact e.getLsbD_toWord (m + 3)

/-- Settles O19: the bits of the word, and the write that clears. -/
theorem statusReadsFlagsAndClearsByWritingOne : Obligations.StatusReadsFlagsAndClearsByWritingOne := by
  intro s v
  have hbit := s.status.getLsbD_toWord
  refine ⟨hbit 0, hbit 1, hbit 2, hbit 3, hbit 4, fun _ => s.status.reserved, fun hb => ?_⟩
  rw [← hb]
  exact hostStep_writeReg .status rfl hb v

/-- Settles O22: CTRL's write is never dropped, and R210's formula is read off the bits of the two words. -/
theorem interruptEnablesAndIrq : Obligations.InterruptEnablesAndIrq := by
  intro s v
  refine ⟨fun hb => hostStep_writeReg .irqEn rfl hb v, fun hv => ?_, ?_⟩
  · have hnothing : s.writeTarget 32 v (.reg .ctrl) = s := if_neg (Bool.eq_false_iff.1 hv)
    have h := hostStep_txn_write (s := s) (target := .reg .ctrl) nofun rfl (fun _ => rfl) v
    rw [hnothing] at h
    exact h
  · simp only [State.readReg, Status.getLsbD_toWord, IrqEnable.getLsbD_toWord, State.irq]

/-! ### Reserved fields (R39) -/

/-- A field zero-extended to a word reads 0 above its width. -/
theorem getLsbD_setWidth_of_ge {w n : Nat} (x : BitVec w) (h : w ≤ n) :
    (x.setWidth 32).getLsbD n = false := by
  rw [BitVec.getLsbD_setWidth, BitVec.getLsbD_of_ge x n h, Bool.and_false]

/-- ROOT's bits 30:9 (R32). -/
theorem rootWord_reserved (root : Option NodeIdx) {n : Nat} (h : 9 ≤ n) (hn : n ≠ 31) :
    (rootWord root).getLsbD n = false := by
  cases root with
  | some i => exact getLsbD_setWidth_of_ge i h
  | none =>
    rw [rootWord, show 0x80000000#32 = BitVec.twoPow 32 31 by decide, BitVec.getLsbD_twoPow]
    simp [Ne.symm hn]

/-- NODE_INFO's bits 29:26 (R44). -/
theorem NodeInfo.getLsbD_reserved (n : NodeInfo) {k : Nat} (h1 : 26 ≤ k) (h2 : k ≤ 29) :
    n.toWord.getLsbD k = false := by
  have h := congrArg (BitVec.getLsbD · (k - 26)) n.toWord_reserved
  simpa [show k - 26 < 4 by omega, Nat.add_sub_cancel' h1] using h

/-- Words that agree under a mask agree at each of its bits. -/
theorem getLsbD_eq_of_mask {v u m : Word} (h : (v ^^^ u) &&& m = 0#32) {k : Nat}
    (hk : m.getLsbD k = true) : v.getLsbD k = u.getLsbD k := by
  have h := congrArg (BitVec.getLsbD · k) h
  simpa [hk] using h

/-- Settles O20: what each register's word holds above its fields, and which bits each write looks at. -/
theorem reservedFieldsReadZeroAndIgnoreWrites : Obligations.ReservedFieldsReadZeroAndIgnoreWrites := by
  intro s v u n
  refine ⟨fun h => ⟨getLsbD_setWidth_of_ge _ h, getLsbD_setWidth_of_ge _ h,
      fun _ => getLsbD_setWidth_of_ge _ h⟩,
    fun h => ⟨getLsbD_setWidth_of_ge _ h, rootWord_reserved _ h⟩,
    fun h => getLsbD_setWidth_of_ge _ h, s.irqEn.reserved, s.status.reserved, BitVec.getLsbD_zero,
    fun h1 h2 _ => NodeInfo.getLsbD_reserved _ h1 h2, fun h => ?_, fun h => ?_, fun h => ?_,
    fun h => ⟨.reservedBits, if_neg h⟩⟩
  · have hbit (k : Nat) := getLsbD_eq_of_mask (k := k) h
    simp only [State.writeReg, IrqEnable.ofWord, hbit 0 rfl, hbit 1 rfl, hbit 2 rfl]
  · have hbit (k : Nat) := getLsbD_eq_of_mask (k := k) h
    simp only [State.writeReg, State.acknowledge, Status.writeOneClear, hbit 1 rfl, hbit 2 rfl,
      hbit 4 rfl]
  · simp only [State.writeReg, getLsbD_eq_of_mask (k := 0) h rfl]

end Sys2Proof.Machine
end

section
/-! The frame of each command (R48, R65) and the arguments it does not read (R28): O50 and O51. -/

namespace Sys2Proof.Machine

/-! ### Frames -/

section
variable {i : Instr} {s t : State}

/-- No command writes the host's registers (R27, R35, R23) or BUSY_VIOL. -/
theorem exec_keeps_hostRegs (h : exec i s = .next t) :
    t.args = s.args ∧ t.irqEn = s.irqEn ∧ t.cmd = s.cmd ∧ t.status.busyViol = s.status.busyViol := by
  rcases exec_cases h with ⟨-, rfl⟩ | ⟨-, rfl⟩ | ⟨-, rfl⟩ | ⟨-, -, rfl⟩ | ⟨-, rfl⟩ |
    ⟨-, e, info, -, rfl⟩ | ⟨-, -, e, info, -, rfl⟩ | ⟨-, -, bits, -, rfl⟩ | ⟨-, -, out, -, rfl⟩ <;> simp

/-- Only ENCODE and DECODE write DMEM and the result registers (R29, R65). -/
theorem exec_keeps_output (h : exec i s = .next t) (hi : i ≠ .encode) (hi' : i ≠ .decode) :
    t.results = s.results ∧ ∀ a, t.readByte a = s.readByte a := by
  rcases exec_cases h with ⟨-, rfl⟩ | ⟨-, rfl⟩ | ⟨-, rfl⟩ | ⟨-, -, rfl⟩ | ⟨-, rfl⟩ |
    ⟨-, e, info, -, rfl⟩ | ⟨he | hd, -⟩ | ⟨he, -⟩ | ⟨hd, -⟩
  · exact ⟨rfl, fun _ => rfl⟩
  · exact ⟨rfl, fun _ => rfl⟩
  · exact ⟨rfl, fun _ => rfl⟩
  · exact ⟨rfl, fun _ => rfl⟩
  · exact ⟨rfl, fun _ => rfl⟩
  · exact ⟨rfl, fun _ => rfl⟩
  · exact absurd he hi
  · exact absurd hd hi'
  · exact absurd he hi
  · exact absurd hd hi'

/-- Only BUILD writes the code table, the arena and BUILD's registers (R48). -/
theorem exec_keeps_built (h : exec i s = .next t) (hi : i ≠ .build) : t.built = s.built := by
  rcases exec_cases h with ⟨-, rfl⟩ | ⟨-, rfl⟩ | ⟨-, rfl⟩ | ⟨hb, -⟩ | ⟨-, rfl⟩ |
    ⟨-, e, info, -, rfl⟩ | ⟨-, -, e, info, -, rfl⟩ | ⟨-, -, bits, -, rfl⟩ | ⟨-, -, out, -, rfl⟩
  · simp
  · simp
  · simp
  · exact absurd hb hi
  · simp
  · simp
  · simp
  · simp
  · simp

/-- Only CLRF and SCAN write FREQ (R48). -/
theorem exec_keeps_freq (h : exec i s = .next t) (hc : i ≠ .clrf) (hs : i ≠ .scan) :
    t.freq = s.freq := by
  rcases exec_cases h with ⟨-, rfl⟩ | ⟨hi, -⟩ | ⟨hi, -⟩ | ⟨-, -, rfl⟩ | ⟨-, rfl⟩ |
    ⟨-, e, info, -, rfl⟩ | ⟨-, -, e, info, -, rfl⟩ | ⟨-, -, bits, -, rfl⟩ | ⟨-, -, out, -, rfl⟩
  · simp
  · exact absurd hi hc
  · exact absurd hi hs
  · simp
  · simp
  · simp
  · simp
  · simp
  · simp

/-- Only CLRF, SCAN and BUILD write TABLE_VALID (R48). -/
theorem exec_keeps_tableValid (h : exec i s = .next t) (hc : i ≠ .clrf) (hs : i ≠ .scan)
    (hb : i ≠ .build) : t.status.tableValid = s.status.tableValid := by
  rcases exec_cases h with ⟨-, rfl⟩ | ⟨hi, -⟩ | ⟨hi, -⟩ | ⟨hi, -⟩ | ⟨hi, -⟩ |
    ⟨-, e, info, -, rfl⟩ | ⟨-, -, e, info, -, rfl⟩ | ⟨-, -, bits, -, rfl⟩ | ⟨-, -, out, -, rfl⟩
  · simp
  · exact absurd hi hc
  · exact absurd hi hs
  · exact absurd hi hb
  · exact absurd hi hb
  · simp
  · simp
  · simp
  · simp

end

/-- Settles O50: one frame lemma per thing a command can write. -/
theorem commandsWriteOnlyTheirOwnResults : Obligations.CommandsWriteOnlyTheirOwnResults := by
  intro i s t h
  obtain ⟨hargs, hirq, hcmd, hviol⟩ := exec_keeps_hostRegs h
  refine ⟨hargs, hirq, hcmd, exec_param h, hviol, fun hi => ?_, exec_keeps_built h,
    exec_keeps_freq h, fun hi => ?_⟩
  · rcases hi with rfl | rfl | rfl | rfl <;> exact exec_keeps_output h nofun nofun
  · rcases hi with rfl | rfl | rfl <;> exact exec_keeps_tableValid h nofun nofun nofun

/-! ### Argument registers a command does not read (R28) -/

/-- The state with other values in the argument registers. -/
def State.withArgs (s : State) (a : Args) : State := { s with args := a }

theorem State.withArgs_writeBytes (s : State) (a : Args) (k : Nat) (vs : List Byte) :
    (s.withArgs a).writeBytes k vs = (s.writeBytes k vs).withArgs a := by
  induction vs generalizing s k with
  | nil => rfl
  | cons v vs ih => exact ih (s.writeByte k v) (k + 1)

/-- A runtime error reads the output window only (R205). -/
theorem State.withArgs_raiseRuntime (s : State) (a : Args) (e : ErrCode) (info : Word)
    (hw : (s.withArgs a).outputWindow = s.outputWindow) :
    (s.withArgs a).raiseRuntime e info = (s.raiseRuntime e info).withArgs a := by
  have h : (s.withArgs a).forgetWindow (s.withArgs a).outputWindow =
      (s.forgetWindow s.outputWindow).withArgs a := by
    rw [hw]
    exact State.withArgs_writeBytes _ _ _ _
  unfold State.raiseRuntime State.forgetOutput
  rw [h]
  rfl

/-- ENCODE's results depend on DST and LEN only (R140). -/
theorem State.withArgs_writeEncoded (s : State) (a : Args) (bits : List Bool)
    (hdst : a.dst = s.args.dst) (hlen : a.len = s.args.len) :
    (s.withArgs a).writeEncoded bits = (s.writeEncoded bits).withArgs a := by
  unfold State.writeEncoded
  rw [State.withArgs_writeBytes]
  simp only [State.withArgs, hdst, hlen]

/-- DECODE's results depend on DST and NBITS only (R160). -/
theorem State.withArgs_writeDecoded (s : State) (a : Args) (out : List Byte)
    (hdst : a.dst = s.args.dst) (hbits : a.nbits = s.args.nbits) :
    (s.withArgs a).writeDecoded out = (s.writeDecoded out).withArgs a := by
  unfold State.writeDecoded
  rw [State.withArgs_writeBytes]
  simp only [State.withArgs, hdst, hbits]

/-- The up-front checks read the two windows only (R202). -/
theorem State.withArgs_upFrontError (s : State) (a : Args) (w : Window)
    (hw : (s.withArgs a).outputWindow = s.outputWindow) :
    (s.withArgs a).upFrontError w = s.upFrontError w := by
  simp only [State.upFrontError, hw]
  rfl

section
variable {s t : State} {a : Args}

/-- BUILD reads no argument. -/
theorem execBuild_withArgs (h : execBuild s = .next t) :
    execBuild (s.withArgs a) = .next (t.withArgs a) := by
  have hfreq : (s.withArgs a).freq = s.freq := rfl
  rcases execBuild_cases s with ⟨hf, h'⟩ | ⟨hf, h'⟩ <;> cases h.symm.trans h' <;>
    simp only [execBuild, hfreq, hf, if_true, if_false] <;> rfl

/-- SCAN reads SRC and LEN only. -/
theorem execScan_withArgs (h : execScan s = .next t) (hsrc : a.src = s.args.src)
    (hlen : a.len = s.args.len) : execScan (s.withArgs a) = .next (t.withArgs a) := by
  have hw : (s.withArgs a).inputWindow = s.inputWindow := by
    simp only [State.inputWindow, State.withArgs, hsrc, hlen]
  have hsize : (s.withArgs a).dmemSize = s.dmemSize := rfl
  rcases execScan_cases s with ⟨hr, h'⟩ | ⟨hr, h'⟩ <;> cases h.symm.trans h' <;>
    simp only [execScan, hw, hsize, hr, if_true, if_false] <;> rfl

/-- ENCODE reads SRC, LEN, DST and DCAP only. -/
theorem execEncode_withArgs (h : execEncode s = .next t) (hsrc : a.src = s.args.src)
    (hlen : a.len = s.args.len) (hdst : a.dst = s.args.dst) (hdcap : a.dcap = s.args.dcap) :
    execEncode (s.withArgs a) = .next (t.withArgs a) := by
  have hin : (s.withArgs a).inputWindow = s.inputWindow := by
    simp only [State.inputWindow, State.withArgs, hsrc, hlen]
  have hout : (s.withArgs a).outputWindow = s.outputWindow := by
    simp only [State.outputWindow, State.withArgs, hdst, hdcap]
  have hloop : encodeFrom (s.withArgs a).built (s.withArgs a).args.dcap.toNat 0 []
      ((s.withArgs a).readBytes s.inputWindow) =
      encodeFrom s.built s.args.dcap.toNat 0 [] (s.readBytes s.inputWindow) := by
    rw [← hdcap]
    rfl
  rw [execEncode, hin, s.withArgs_upFrontError a _ hout, hloop]
  rcases execEncode_cases s with ⟨e, info, hu, h'⟩ | ⟨hu, e, k, -, hx, h'⟩ | ⟨hu, hcode, hfit, h'⟩ <;>
    cases h.symm.trans h' <;> rw [hu]
  · rfl
  · rw [hx, ← s.withArgs_raiseRuntime a _ _ hout]
  · rw [encodeFrom_ok _ _ _ hcode hfit]
    exact congrArg (Host.Outcome.next ·.succeed) (s.withArgs_writeEncoded a _ hdst hlen)

/-- DECODE reads SRC, NBITS, DST and DCAP only. -/
theorem execDecode_withArgs (h : execDecode s = .next t) (hsrc : a.src = s.args.src)
    (hbits : a.nbits = s.args.nbits) (hdst : a.dst = s.args.dst) (hdcap : a.dcap = s.args.dcap) :
    execDecode (s.withArgs a) = .next (t.withArgs a) := by
  have hin : (s.withArgs a).streamWindow = s.streamWindow := by
    simp only [State.streamWindow, State.withArgs, hsrc, hbits]
  have hout : (s.withArgs a).outputWindow = s.outputWindow := by
    simp only [State.outputWindow, State.withArgs, hdst, hdcap]
  have hwalk : decodeStream (s.withArgs a).built (s.withArgs a).args.dcap.toNat
      ((s.withArgs a).streamBits (s.withArgs a).args.src.toNat (s.withArgs a).args.nbits.toNat) =
      decodeStream s.built s.args.dcap.toNat
        (s.streamBits s.args.src.toNat s.args.nbits.toNat) := by
    rw [← hsrc, ← hbits, ← hdcap]
    rfl
  rw [execDecode, hin, s.withArgs_upFrontError a _ hout, hwalk]
  rcases execDecode_cases s with ⟨e, info, hu, h'⟩ | ⟨hu, e, k, -, hx, h'⟩ | ⟨hu, out, -, hx, h'⟩ <;>
    cases h.symm.trans h' <;> rw [hu]
  · rfl
  · rw [hx, ← s.withArgs_raiseRuntime a _ _ hout]
  · rw [hx]
    exact congrArg (Host.Outcome.next ·.succeed) (s.withArgs_writeDecoded a _ hdst hbits)

end

/-- Settles O51: one lemma per command, over the arguments it reads. -/
theorem unreadArgumentsHaveNoEffect : Obligations.UnreadArgumentsHaveNoEffect := by
  intro i s t a h hi
  rcases hi with rfl | rfl | rfl | ⟨rfl, hsrc, hlen⟩ | ⟨rfl, ha⟩ | ⟨rfl, ha⟩
  · cases h
    rfl
  · cases h
    rfl
  · exact execBuild_withArgs h
  · exact execScan_withArgs h hsrc hlen
  · exact execEncode_withArgs h (by rw [ha]) (by rw [ha]) (by rw [ha]) (by rw [ha])
  · exact execDecode_withArgs h (by rw [ha]) (by rw [ha]) (by rw [ha]) (by rw [ha])

end Sys2Proof.Machine
end

section
/-! The tree in the node arena (R45, R126): who is whose child, in the forest and in the slots; O32. -/

namespace Sys2Proof.Machine

open Sys2Proof.Spec

/-- Every node of the tree but its root, the last one, has a parent. -/
theorem huffmanForest_parent (f : SymTable Word) {i : Nat}
    (hi : i + 1 < (huffmanForest f).nodes.length) :
    ∃ (p q l r : Nat) (bit : Bool), (huffmanForest f).nodes[p]? = some (.internal q l r) ∧
      (if bit then r else l) = i := by
  have hroot : i ∉ (huffmanForest f).pool := by
    rw [huffmanForest_pool]
    split
    · exact List.not_mem_nil
    · rw [List.mem_singleton]
      omega
  have hchild : i ∈ childList (huffmanForest f).nodes := by
    have hpart : i ∈ childList (huffmanForest f).nodes ++ (huffmanForest f).pool := by
      rw [(huffmanForest_sound f).parts.mem_iff, List.mem_range]
      omega
    exact (List.mem_append.1 hpart).resolve_right hroot
  obtain ⟨x, hx, hix⟩ := List.mem_flatMap.1 hchild
  obtain ⟨p, hp⟩ := List.mem_iff_getElem?.1 hx
  cases x with
  | leaf s q => cases hix
  | internal q l r =>
    rcases List.mem_pair.1 hix with rfl | rfl
    · exact ⟨p, q, i, r, false, hp, rfl⟩
    · exact ⟨p, q, l, i, true, hp, rfl⟩

/-- A node's number, cut to a node index, is that number. -/
theorem toNat_nodeIdx (f : SymTable Word) {i : Nat} (hi : i < (huffmanForest f).nodes.length) :
    (BitVec.ofNat 9 i).toNat = i := by
  have := nodeCountOf_le f
  rw [length_huffmanForest] at hi
  rw [BitVec.toNat_ofNat, Nat.mod_eq_of_lt (by omega)]

/-- A node is a child when a bit leads to it (R162). -/
theorem childOf_iff (b : Built) (i p : NodeIdx) : childOf b i p ↔ ∃ bit, b.child p bit = i := by
  simp [childOf, Built.child]

/-- A slot's links, as numbers, are the children of the internal node in it. -/
theorem childOf_buildFrom (f : SymTable Word) (i p : NodeIdx) {q l r : Nat}
    (hp : (huffmanForest f).nodes[p.toNat]? = some (.internal q l r)) :
    childOf (buildFrom f) i p ↔ ∃ bit : Bool, (if bit then r else l) = i.toNat := by
  have hlt := (List.getElem?_eq_some_iff.1 hp).1
  have hlink (bit : Bool) : (buildFrom f).child p bit = i ↔ (if bit then r else l) = i.toNat := by
    have hbelow := (huffmanForest_sound f).child_lt bit hp
    have hchild := child_buildFrom f p.toNat q l r bit hp
    rw [BitVec.ofNat_toNat, BitVec.setWidth_eq] at hchild
    rw [hchild, ← BitVec.toNat_inj, toNat_nodeIdx f (by omega)]
  simp only [childOf_iff, hlink]

/-- R45: every used slot but the root is linked from exactly one internal slot. -/
theorem existsUnique_parent (f : SymTable Word) (i : NodeIdx)
    (hi : i.toNat + 2 < 2 * (alphabet f).length) :
    ∃ p : NodeIdx, ((alphabet f).length ≤ p.toNat ∧ p.toNat + 1 < 2 * (alphabet f).length ∧
      childOf (buildFrom f) i p) ∧
      ∀ p' : NodeIdx, (alphabet f).length ≤ p'.toNat → p'.toNat + 1 < 2 * (alphabet f).length →
        childOf (buildFrom f) i p' → p' = p := by
  have hlen : (huffmanForest f).nodes.length = 2 * (alphabet f).length - 1 := by
    rw [length_huffmanForest, nodeCountOf, if_neg (by omega)]
  obtain ⟨p, q, l, r, bit, hp, hbit⟩ := huffmanForest_parent f (i := i.toNat) (by omega)
  have hlt := (List.getElem?_eq_some_iff.1 hp).1
  have hge := (huffmanForest_sound f).internal_ge (isLeaf_of_mem_seed f) hp
  rw [length_seed] at hge
  have hpn := toNat_nodeIdx f hlt
  refine ⟨BitVec.ofNat 9 p, ⟨by omega, by omega, ?_⟩, fun p' hk' hp' hchild => ?_⟩
  · exact (childOf_buildFrom f i _ (by rw [hpn]; exact hp)).2 ⟨bit, hbit⟩
  · obtain ⟨q', l', r', hn', -⟩ := slot_internal f p' hk' hp'
    obtain ⟨bit', hbit'⟩ := (childOf_buildFrom f i p' hn').1 hchild
    obtain ⟨hpp, -⟩ := (huffmanForest_sound f).parent_unique hn' hp (hbit'.trans hbit.symm)
    exact BitVec.eq_of_toNat_eq (hpp.trans hpn.symm)

/-- The two children of a node are different. -/
theorem Forest.Sound.left_ne_right {leaves : List Node} {t : Forest} (h : t.Sound leaves)
    {i q l r : Nat} (hi : t.nodes[i]? = some (.internal q l r)) : l ≠ r := fun e =>
  absurd (h.parent_unique (b := false) (b' := true) hi hi e).2 nofun

/-- R45: an internal slot, with its links as node indices. -/
theorem slot_internal_links (f : SymTable Word) (i : NodeIdx) (h1 : (alphabet f).length ≤ i.toNat)
    (h2 : i.toNat + 1 < 2 * (alphabet f).length) :
    ∃ left right : NodeIdx, slot (buildFrom f).nodeInfo i = ⟨false, true, right, left, 0#8⟩ ∧
      left.toNat < i.toNat ∧ right.toNat < i.toNat ∧ left ≠ right := by
  obtain ⟨q, l, r, hn, hl, hr, -, hslot⟩ := slot_internal f i h1 h2
  have hlt := (List.getElem?_eq_some_iff.1 hn).1
  have hln := toNat_nodeIdx f (hl.trans hlt)
  have hrn := toNat_nodeIdx f (hr.trans hlt)
  refine ⟨_, _, hslot, by rwa [hln], by rwa [hrn], fun e => ?_⟩
  have hlr := congrArg BitVec.toNat e
  rw [hln, hrn] at hlr
  exact (huffmanForest_sound f).left_ne_right hn hlr

/-- Settles O32: the slots hold the sound forest of the merge, leaves first. -/
theorem buildLeavesABinaryTree : Obligations.BuildLeavesABinaryTree := by
  rintro s t hf h k rfl
  obtain rfl := execBuild_built hf h
  simp only [State.succeed_built, State.writeBuilt_built]
  refine ⟨fun i hi => ?_, fun i hk hi => ?_, existsUnique_parent s.freq, fun i hi => ?_⟩
  · have hslot := slot_nodeInfo s.freq i.toNat _ (huffmanForest_leaf s.freq i.toNat hi)
    rw [BitVec.ofNat_toNat, BitVec.setWidth_eq] at hslot
    exact hslot
  · obtain ⟨left, right, hslot, hl, hr, hne⟩ := slot_internal_links s.freq i hk hi
    rw [hslot]
    exact ⟨rfl, rfl, rfl, hl, hr, hne⟩
  · have hunused : nodeCountOf (alphabet s.freq).length ≤ i.toNat := by
      unfold nodeCountOf
      split <;> omega
    rw [slot_nodeInfo_unused s.freq i hunused, slot_nodeFreq, if_neg (by omega)]
    exact ⟨by decide, rfl⟩

end Sys2Proof.Machine
end

section
/-! The host's reads (R73) and its window on DMEM (R62, R64): O17 and O25. -/

namespace Sys2Proof.Machine

open Sys2Proof.Spec

/-- Settles O17: a read is answered BUSERR, a free word or a value; each answer sets the response, and the
free word is one draw. -/
theorem hostReadsHaveNoSideEffect : Obligations.HostReadsHaveNoSideEffect := by
  intro s t hd
  cases ha : accept s.dmemSize t with
  | none =>
    rw [hostStep_busErr ha]
    rfl
  | some target =>
    rw [hostStep_read ha hd]
    split
    · rfl
    · rfl

/-! ### Words of DMEM (R64) -/

/-- The word of four bytes by shifts: none of the bytes loses a bit, and a shift of a shift is one shift. -/
theorem littleEndian_eq_or (b0 b1 b2 b3 : Byte) : littleEndian b0 b1 b2 b3 =
    b0.setWidth 32 ||| b1.setWidth 32 <<< 8 ||| b2.setWidth 32 <<< 16 ||| b3.setWidth 32 <<< 24 := by
  have h0 := b0.isLt
  have h1 := b1.isLt
  have h2 := b2.isLt
  have h3 := b3.isLt
  refine BitVec.eq_of_toNat_eq ?_
  simp (disch := omega) only [littleEndian, BitVec.toNat_append, BitVec.toNat_or,
    BitVec.toNat_shiftLeft, BitVec.toNat_setWidth, Nat.mod_eq_of_lt, Nat.shiftLeft_or_distrib,
    ← Nat.shiftLeft_add]
  simp only [Nat.reduceAdd, Nat.or_assoc, Nat.or_comm]

/-- What a 32-bit write stores: byte `q` of the word at `a + q`. -/
theorem State.readByte_writeWord_at (s : State) (a : Nat) (v : Word) {q : Nat} (h : q < 4) :
    (s.writeWord a v).readByte (a + q) = v.extractLsb' (8 * q) 8 := by
  refine (s.readByte_writeBytes_at a [byteOf v 0, byteOf v 1, byteOf v 2, byteOf v 3] q h).trans ?_
  interval_cases q <;> rfl

/-- What a 32-bit write leaves alone. -/
theorem State.readByte_writeWord_outside (s : State) (a : Nat) (v : Word) {k : Nat}
    (h : k < a ∨ a + 4 ≤ k) : (s.writeWord a v).readByte k = s.readByte k :=
  s.readByte_writeBytes_outside a _ k h

/-! ### Accesses to the window (R62, R63, R51) -/

section
variable {s : State} {a bits : Nat}

/-- A transaction at an address of DMEM, of a width and alignment that R63 takes, is accepted for that byte:
the address space fits the host's 32-bit offsets (R8). -/
theorem accept_txn_dmem (hs : s.sizeLegal) (ha : a < s.dmemSize)
    (hbits : bits = 8 ∨ (bits = 32 ∧ a % 4 = 0 ∧ a + 3 < s.dmemSize)) (dir : Dir) (v : Word) :
    accept s.dmemSize (txn dir (0x10000 + a) bits v) = some (.dmem a) := by
  obtain ⟨-, hmax⟩ := hs
  unfold Config.dmemSizeMax at hmax
  refine accept_named (.dmem a) ?_ ?_ (fun b hb => Target.dmem.inj hb ▸ ha) fun _ => rfl
  · rw [txn, BitVec.toNat_ofNat, Nat.mod_eq_of_lt (by omega), Target.offset]
  · simpa [sizeOk, txn, and_assoc] using hbits

/-- A host read of DMEM while BUSY = 0 answers the value and changes nothing else (R51). -/
theorem hostStep_dmem_read (hs : s.sizeLegal) (hb : s.status.busy = false) (ha : a < s.dmemSize)
    (hbits : bits = 8 ∨ (bits = 32 ∧ a % 4 = 0 ∧ a + 3 < s.dmemSize)) :
    s.hostStep (txn .read (0x10000 + a) bits 0#32) =
      s.respond (.okRead (s.readTarget bits (.dmem a))) := by
  rw [hostStep_read (accept_txn_dmem hs ha hbits .read _) rfl, if_neg (by simp [hb])]
  rfl

/-- A host write of DMEM while BUSY = 0 takes effect and is answered OK (R51). -/
theorem hostStep_dmem_write (hs : s.sizeLegal) (hb : s.status.busy = false) (ha : a < s.dmemSize)
    (hbits : bits = 8 ∨ (bits = 32 ∧ a % 4 = 0 ∧ a + 3 < s.dmemSize)) (v : Word) :
    s.hostStep (txn .write (0x10000 + a) bits v) =
      (s.writeTarget bits v (.dmem a)).respond .okWrite := by
  rw [hostStep_write (accept_txn_dmem hs ha hbits .write v) rfl, if_neg (by simp [hb])]
  rfl

end

/-- Settles O25: a word and a byte are each written and read by the rule for the window; what then stands in
DMEM is told by the laws of `writeWord` and `writeByte`. -/
theorem dmemWindowIsLittleEndian : Obligations.DmemWindowIsLittleEndian := by
  intro s a v hs hb
  refine ⟨fun h4 hend => ?_, fun ha => ?_⟩
  · have hword : (32 : Nat) = 8 ∨ ((32 : Nat) = 32 ∧ a % 4 = 0 ∧ a + 3 < s.dmemSize) :=
      .inr ⟨rfl, h4, hend⟩
    have hframe : (s.writeWord a v).respond .okWrite =
        { s with mem := (s.writeWord a v).mem, response := some .okWrite } :=
      congrArg (State.respond · .okWrite) (s.writeBytes_eq a _)
    constructor
    · exact ⟨(s.writeWord a v).respond .okWrite, hostStep_dmem_write hs hb (by omega) hword v, hframe,
        s.readByte_writeWord_at a v (q := 0) (by decide),
        s.readByte_writeWord_at a v (q := 1) (by decide),
        s.readByte_writeWord_at a v (q := 2) (by decide),
        s.readByte_writeWord_at a v (q := 3) (by decide),
        fun k => s.readByte_writeWord_outside a v⟩
    · rw [hostStep_dmem_read hs hb (by omega) hword, ← littleEndian_eq_or]
      rfl
  · have hread (k : Nat) := s.readByte_writeByte a k (byteOf v 0)
    constructor
    · exact ⟨(s.writeByte a (byteOf v 0)).respond .okWrite,
        hostStep_dmem_write hs hb ha (.inl rfl) v, rfl,
        (hread a).trans (if_pos rfl), fun k hk => (hread k).trans (if_neg hk)⟩
    · exact hostStep_dmem_read hs hb ha (.inl rfl)

end Sys2Proof.Machine
end

section
/-! Where a command writes DMEM (R65, R68): O52. -/

namespace Sys2Proof.Machine

/-- What any address reads as after a command: `exec_mem` as seen by a read, since no command changes the
event that gives the unwritten bytes. -/
theorem exec_readByte {i : Instr} {s t : State} (h : exec i s = .next t) (a : Nat) :
    t.readByte a = s.readByte a ∨ t.readByte a = (s.forgetWindow s.outputWindow).readByte a ∨
      (s.outputWindow.inRange s.dmemSize ∧ ∃ vs, vs.length ≤ s.args.dcap.toNat ∧
        t.readByte a = (s.writeBytes s.args.dst.toNat vs).readByte a) := by
  obtain ⟨hdraw, -⟩ := exec_draws h
  rcases exec_mem h with hm | hm | ⟨hin, vs, hlen, hm⟩
  · exact .inl (State.readByte_congr hm hdraw a)
  · exact .inr (.inl (State.readByte_congr hm (by simp [hdraw]) a))
  · exact .inr (.inr ⟨hin, vs, hlen, State.readByte_congr hm (by simp [hdraw]) a⟩)

/-- Settles O52: a forgotten window gives free bytes only inside it and inside DMEM, and written bytes fit a
window that lies in DMEM. -/
theorem commandsWriteOnlyTheirWindow : Obligations.CommandsWriteOnlyTheirWindow := by
  intro i s t a h ha
  have hout : ¬(s.outputWindow.has a ∧ a < s.dmemSize) := by
    simp only [Window.has, State.outputWindow]
    omega
  rcases exec_readByte h a with hr | hr | ⟨hin, vs, hlen, hr⟩
  · exact hr
  · rw [hr, State.readByte_forgetWindow, if_neg hout]
  · have hend : s.args.dst.toNat + s.args.dcap.toNat ≤ s.dmemSize := hin
    rw [hr, State.readByte_writeBytes_outside _ _ _ _ (by omega)]

end Sys2Proof.Machine
end

section
/-! The command word (R83, R84): the six legal words and the two rejections; O1 to O4. -/

namespace Sys2Proof

/-- Settles O1, command by command. -/
theorem decodeUndoesEncode : Obligations.DecodeUndoesEncode := by
  intro i
  cases i <;> rfl

/-- R84: the word of a command is the only one that decodes to it. -/
theorem decode_eq_ok_iff (w : Word) (i : Instr) : decode w = .ok i ↔ w = encode i := by
  constructor
  · intro h
    rw [decode_eq] at h
    split at h
    · cases h
    · split at h <;> cases h <;> exact BitVec.eq_of_toNat_eq ‹_›
  · rintro rfl
    exact decodeUndoesEncode i

/-- The legal words are those of the six commands (R84). -/
theorem legalWord_iff (w : Word) : legalWord w = true ↔ ∃ i, w = encode i := by
  constructor
  · intro h
    simp only [legalWord, List.contains_iff_mem, List.mem_cons, List.not_mem_nil, or_false] at h
    rcases h with rfl | rfl | rfl | rfl | rfl | rfl
    · exact ⟨.nop, rfl⟩
    · exact ⟨.clrf, rfl⟩
    · exact ⟨.scan, rfl⟩
    · exact ⟨.build, rfl⟩
    · exact ⟨.encode, rfl⟩
    · exact ⟨.decode, rfl⟩
  · rintro ⟨i, rfl⟩
    cases i <;> rfl

/-- Settles O2: each clause is `decode_eq_ok_iff` for its command. -/
theorem exactlySixWordsAreLegal : Obligations.ExactlySixWordsAreLegal := by
  intro w
  have h := decode_eq_ok_iff w
  exact ⟨h .nop, h .clrf, h .scan, h .build, h .encode, h .decode,
    (exists_congr h).trans (legalWord_iff w).symm⟩

/-- Settles O3, on the word as a number: the range of bits 31:8, then each value of OPCODE. -/
theorem illegalWordsAreRejectedByTheirField : Obligations.IllegalWordsAreRejectedByTheirField := by
  intro w
  rw [decode_eq]
  by_cases hr : 0x100 ≤ w.toNat
  · rw [if_pos hr]
    exact ⟨iff_of_true rfl hr, iff_of_false nofun (by omega)⟩
  · rw [if_neg hr]
    split
    case h_7 h0 h1 h2 h3 h4 h5 =>
      simp only [imp_false] at h0 h1 h2 h3 h4 h5
      exact ⟨iff_of_false nofun hr, iff_of_true rfl (by omega)⟩
    all_goals exact ⟨iff_of_false nofun hr, iff_of_false nofun (by omega)⟩

/-- Settles O4: the decoder runs on each word. -/
theorem sampleWordsDecode : Obligations.SampleWordsDecode := ⟨rfl, rfl, rfl, rfl, rfl, rfl⟩

end Sys2Proof
end

section
/-! The core's turn (R86): it always comes, ends a pending command and leaves an idle block alone; O7, O8 and
O9. -/

namespace Sys2Proof.Machine

/-- Settles O7, by whose turn it is: the core's turn always has a next state, and the host's and the reset
input's give one at once. -/
theorem everyStepHasANextState : Obligations.EveryStepHasANextState := by
  intro s
  cases ht : s.turns with
  | nil =>
    rw [step_of_turns_nil ht]
    exact coreStep_next s
  | cons turn rest =>
    cases turn with
    | core =>
      rw [step_of_turns_core ht]
      exact coreStep_next _
    | host x => exact ⟨(s.endTurn rest).hostStep x, by rw [step, ht]; rfl⟩
    | rst => exact ⟨(s.endTurn rest).hardReset, by rw [step, ht]; rfl⟩

/-- While BUSY = 0 the core's turn changes nothing (R86). -/
theorem coreStep_idle {s : State} (hb : s.status.busy = false) : s.coreStep = .next s := by
  rw [State.coreStep, hb]
  rfl

/-- Settles O9: with no turn left the step is the core's, which has nothing pending. -/
theorem idleBlockStaysAsItIs : Obligations.IdleBlockStaysAsItIs :=
  fun _ hb ht => (step_of_turns_nil ht).trans (coreStep_idle hb)

section
variable {s t : State}

/-- Every command ends with BUSY cleared and DONE or ERR set (R203, R206). -/
theorem exec_completes {i : Instr} (h : exec i s = .next t) :
    t.status.busy = false ∧ (t.status.done = true ∨ t.status.err = true) := by
  rcases exec_cases h with ⟨-, rfl⟩ | ⟨-, rfl⟩ | ⟨-, rfl⟩ | ⟨-, -, rfl⟩ | ⟨-, rfl⟩ |
    ⟨-, e, info, -, rfl⟩ | ⟨-, -, e, info, -, rfl⟩ | ⟨-, -, bits, -, rfl⟩ | ⟨-, -, out, -, rfl⟩ <;> simp

/-- The core's turn ends a pending command, legal or not, and keeps its word in CMD (R86, R182). -/
theorem coreStep_completes (hb : s.status.busy = true) (h : s.coreStep = .next t) :
    t.status.busy = false ∧ (t.status.done = true ∨ t.status.err = true) ∧ t.cmd = s.cmd := by
  rcases coreStep_cases h with ⟨hidle, -⟩ | ⟨-, i, -, he⟩ | ⟨-, rfl⟩
  · exact absurd (hb.symm.trans hidle) nofun
  · obtain ⟨hbusy, hend⟩ := exec_completes he
    obtain ⟨-, -, hcmd, -⟩ := exec_keeps_hostRegs he
    exact ⟨hbusy, hend, hcmd⟩
  · exact ⟨rfl, .inr rfl, rfl⟩

end

/-- Settles O8: one of DONE and ERR is set by the completion, and `statusLegal`, which the core's turn keeps,
says what comes with it. -/
theorem coreStepEndsTheCommand : Obligations.CoreStepEndsTheCommand := by
  intro s hs hb
  obtain ⟨t, h⟩ := coreStep_next s
  have ht : t.statusLegal := keptByEvents_statusLegal.coreStep hs h
  obtain ⟨hbusy, hend, hcmd⟩ := coreStep_completes hb h
  refine ⟨t, h, hbusy, hcmd, ?_⟩
  rcases hend with hdone | herr
  · exact .inl ⟨hdone, Bool.eq_false_iff.2 fun herr => ht.exclusive ⟨hdone, herr⟩, ht.clean hdone⟩
  · exact .inr ⟨Bool.eq_false_iff.2 fun hdone => ht.exclusive ⟨hdone, herr⟩, herr, ht.recorded herr⟩

end Sys2Proof.Machine
end

section
/-! Which transactions are accepted (R81, R209), and the host's write to CMD (R85); O14 and O18. -/

namespace Sys2Proof.Machine

open Sys2Proof.Spec

/-- The sizes and alignments of the model are R63's in numbers, for what is mapped at the offset. -/
theorem sized_of_sizeOk {size off bits : Nat} {target : Target} (hl : locate size off = some target)
    (hs : sizeOk size off bits target = true) : Spec.sized size off bits := by
  unfold Spec.sized
  by_cases hd : ∃ a, target = .dmem a
  · obtain ⟨a, rfl⟩ := hd
    have := locate_dmem hl
    simp only [sizeOk, Bool.or_eq_true, Bool.and_eq_true, beq_iff_eq, decide_eq_true_eq] at hs
    omega
  · have hne : ∀ a, target ≠ .dmem a := fun a e => hd ⟨a, e⟩
    have := offset_of_locate hl (sizeOk_aligned hl hs)
    have := Target.offset_lt_window hne
    simp only [sizeOk_of_ne_dmem hne, Bool.and_eq_true, beq_iff_eq] at hs
    omega

/-- R81: what the model accepts the spec does. -/
theorem accepted_of_accept {size : Nat} {t : Txn} {target : Target} (ha : accept size t = some target) :
    Spec.accepted size t := by
  obtain ⟨hl, hsize, hwritable⟩ := accept_eq_some ha
  rw [Target.readOnly_iff, offset_of_locate hl (sizeOk_aligned hl hsize)] at hwritable
  exact ⟨(locate_isSome size _).1 ⟨target, hl⟩, sized_of_sizeOk hl hsize, hwritable⟩

/-- An accepted transaction is answered OK (R82). -/
theorem hostStep_response_ne_busErr {s : State} {t : Txn} {target : Target}
    (ha : accept s.dmemSize t = some target) : (s.hostStep t).response ≠ some .busErr := by
  cases hd : t.dir with
  | write =>
    rw [hostStep_write ha hd]
    split <;> simp
  | read =>
    rw [hostStep_read ha hd]
    split <;> simp

/-- Settles O14: the spec's acceptance is the model's, and only what is not accepted is answered BUSERR. -/
theorem busErrChangesNothing : Obligations.BusErrChangesNothing := by
  intro s t
  constructor
  · intro hnot
    have h : s.hostStep t = s.respond .busErr :=
      hostStep_busErr (Option.eq_none_iff_forall_ne_some.2 fun _ ha => hnot (accepted_of_accept ha))
    rw [h]
    exact ⟨rfl, rfl⟩
  · intro hacc
    obtain ⟨target, ha, -⟩ := accept_of_accepted hacc
    exact hostStep_response_ne_busErr ha

/-- R50: a host write to a writable name but CTRL is dropped while BUSY = 1. -/
theorem hostStep_txn_dropped {s : State} {target : Target} (hne : ∀ a, target ≠ .dmem a)
    (hro : target.readOnly = false) (hctrl : target ≠ .reg .ctrl) (hb : s.status.busy = true) (v : Word) :
    s.hostStep (txn .write target.offset 32 v) = s.dropWrite.respond .okWrite := by
  rw [hostStep_write (accept_txn hne _ .write _ fun _ => hro) rfl, if_pos ⟨hb, hctrl⟩]

/-- Settles O18: the write to CMD is the issue, or one of the writes that are dropped. -/
theorem writeToCmdIssuesACommand : Obligations.WriteToCmdIssuesACommand :=
  fun _ w => ⟨fun hb => hostStep_writeReg .cmd rfl hb w,
    fun hb => hostStep_txn_dropped (target := .reg .cmd) nofun rfl nofun hb w⟩

end Sys2Proof.Machine
end

section
/-! Scripts (R91 to R93): the play of a WAIT, and the reads that end the entry points; O10 and O59. -/

namespace Sys2Proof.Machine

/-! ### WAIT (R92) -/

section
variable {s t : State}

/-- With no command pending a WAIT ends with its first read. -/
theorem playOps_wait_idle (hb : s.status.busy = false) (moves : List Mover) :
    s.playOps moves [.untilIdle] = .next
      (s.withBus [] (some (.okRead s.status.toWord)), [.okRead s.status.toWord]) := by
  have hread : ({ s with turns := [] } : State).hostStep HostOp.untilIdle.txn =
      s.withBus [] (some (.okRead s.status.toWord)) := hostStep_readStatus _
  have hover : HostOp.untilIdle.over
      (({ s with turns := [] } : State).hostStep HostOp.untilIdle.txn).response = true := by
    rw [hread]
    exact (over_status s).trans (by rw [hb]; rfl)
  obtain ⟨later, h⟩ := playOps_idle hb .untilIdle [] hover moves
  rw [h, hread, State.playOps]
  rfl

/-- A read of STATUS (R50, R51) in place of the host's turn. -/
theorem stepTurn_readStatus (s : State) (r : Option Response) :
    (s.withBus [] r).stepTurn (.host HostOp.untilIdle.txn) =
      .next (s.withBus [] (some (.okRead s.status.toWord))) :=
  congrArg Host.Outcome.next (hostStep_readStatus (s.withBus [] r))

/-- With a command pending a WAIT is answered BUSY = 1 by each read before the core's move, and ends with the
first read after it. The induction is over the moves, for any turns and last response of the state. -/
theorem playOps_wait_pending (hb : s.status.busy = true) (h : s.coreStep = .next t) :
    ∀ (moves : List Mover) (r : Option Response), (s.withBus [] r).playOps moves [.untilIdle] = .next
      (t.withBus [] (some (.okRead t.status.toWord)),
        List.replicate (moves.takeWhile (· = .host)).length (.okRead s.status.toWord) ++
          [.okRead t.status.toWord])
  | [], r => by
    rw [State.playOps, State.playOut, stepTurn_core (coreStep_withBus s t [] r h), andThen]
    change andThen ((t.withBus [] r).stepTurn _) _ = _
    rw [stepTurn_readStatus]
    rfl
  | .core :: moves, r => by
    obtain ⟨hdone, -, -⟩ := coreStep_completes hb h
    rw [State.playOps, stepTurn_core (coreStep_withBus s t [] r h)]
    exact playOps_wait_idle (s := t.withBus [] r) hdone moves
  | .host :: moves, r => by
    have hover : HostOp.untilIdle.over (some (.okRead s.status.toWord)) = false := by
      rw [over_status, hb]
      rfl
    rw [State.playOps, stepTurn_readStatus, andThen, State.withBus, hover]
    exact congrArg _ (playOps_wait_pending hb h moves _)

end

/-- Settles O10: the play of a WAIT with and without a command pending, which the core's turn ends. -/
theorem waitReturnsTheCommandsResult : Obligations.WaitReturnsTheCommandsResult := by
  rintro s moves _ rfl
  refine ⟨fun hb => playOps_wait_idle hb moves, fun hb => ?_⟩
  obtain ⟨t, h⟩ := coreStep_next s
  obtain ⟨hbusy, -, -⟩ := coreStep_completes hb h
  refine ⟨t, h, hbusy, ?_⟩
  exact (playOps_turns s [] moves _ _).symm.trans (playOps_wait_pending hb h moves s.response)

/-! ### The reads of the entry points (R93) -/

/-- Lines that each read one name are the list of those reads (R91). -/
theorem scriptOps_map_read {α : Type} (xs : List α) (line : α → ScriptLine) (read : α → Target × Nat)
    (h : ∀ x, (line x).ops = readOps [read x]) : scriptOps (xs.map line) = readOps (xs.map read) := by
  induction xs with
  | nil => rfl
  | cons x xs ih =>
    rw [scriptOps] at ih
    rw [List.map_cons, scriptOps, List.flatMap_cons, ih, h]
    rfl

/-- The reads of FREQ[0] to FREQ[255]. -/
def freqReads : List (Target × Nat) := allSymbols.map fun sym => (.freq sym, 32)

/-- The reads of `n` bytes of DMEM from address `a` up. -/
def byteReads (a n : Nat) : List (Target × Nat) := (List.range' 0 n).map fun i => (.dmem (a + i), 8)

theorem scriptOps_append (xs ys : List ScriptLine) :
    scriptOps (xs ++ ys) = scriptOps xs ++ scriptOps ys := List.flatMap_append

theorem readOps_append (xs ys : List (Target × Nat)) :
    readOps (xs ++ ys) = readOps xs ++ readOps ys := List.map_append

theorem scriptOps_cons_rd (target : Target) (lines : List ScriptLine) :
    scriptOps (.rd target :: lines) = .access (readTxn target 32) :: scriptOps lines := rfl

theorem scriptOps_readFreqLines : scriptOps readFreqLines = readOps freqReads :=
  scriptOps_map_read _ _ _ fun _ => rfl

theorem scriptOps_readBytesLines (a n : Nat) :
    scriptOps (readBytesLines a n) = readOps (byteReads a n) :=
  scriptOps_map_read _ _ _ fun _ => rfl

theorem scriptOps_compressReads (s : State) (d : Word) : scriptOps (compressReads s d) =
    readOps (freqReads ++ (.reg .outBits, 32) :: (.reg .outBytes, 32) ::
      byteReads d.toNat s.results.outBytes.toNat) := by
  rw [compressReads, scriptOps_append, scriptOps_cons_rd, scriptOps_cons_rd, scriptOps_readFreqLines,
    scriptOps_readBytesLines, readOps_append]
  rfl

theorem scriptOps_decompressReads (s : State) (d : Word) : scriptOps (decompressReads s d) =
    readOps ((.reg .outSyms, 32) :: byteReads d.toNat s.results.outSyms.toNat) := by
  rw [decompressReads, scriptOps_cons_rd, scriptOps_readBytesLines]
  rfl

section
variable {s : State}

/-- A script that is a list of reads, played on an idle block. -/
theorem play_reads (hb : s.status.busy = false) {lines : List ScriptLine} {reads : List (Target × Nat)}
    (hlines : scriptOps lines = readOps reads) (hne : reads ≠ [])
    (hreadable : ∀ p ∈ reads, p.1.readable s.dmemSize p.2) (moves : List Mover) :
    ∃ r, s.play moves lines = .next ({ s with turns := [], response := r },
      reads.map fun p => .okRead (s.readTarget p.2 p.1)) := by
  obtain ⟨r, h⟩ := playOps_reads hb reads moves s.response hreadable
  obtain ⟨p, ps, rfl⟩ := List.exists_cons_of_ne_nil hne
  refine ⟨r, ?_⟩
  rw [State.play, hlines]
  exact (playOps_turns s [] moves _ _).symm.trans h

theorem readable_reg_cons (r : Reg) {reads : List (Target × Nat)}
    (h : ∀ p ∈ reads, p.1.readable s.dmemSize p.2) :
    ∀ p ∈ (.reg r, 32) :: reads, p.1.readable s.dmemSize p.2 :=
  List.forall_mem_cons.2 ⟨readable_reg _ r, h⟩

theorem readable_freqReads : ∀ p ∈ freqReads, p.1.readable s.dmemSize p.2 :=
  List.forall_mem_map.2 fun sym _ => readable_freq _ sym

/-- The bytes of a window in DMEM can be read one by one (R63). -/
theorem readable_byteReads (hs : s.sizeLegal) {a n : Nat} (hin : a + n ≤ s.dmemSize) :
    ∀ p ∈ byteReads a n, p.1.readable s.dmemSize p.2 := by
  refine List.forall_mem_map.2 fun i hi => readable_dmem hs.2 ?_
  have := List.mem_range'_1.1 hi
  omega

theorem freqReads_answers :
    (freqReads.map fun p => Response.okRead (s.readTarget p.2 p.1)) =
      allSymbols.map fun sym => .okRead (entry s.freq sym) := List.map_map

/-- What 8-bit reads of a window are answered (R64). -/
theorem byteReads_answers (a n : Nat) :
    ((byteReads a n).map fun p => Response.okRead (s.readTarget p.2 p.1)) =
      Spec.byteAnswers s a n := by
  rw [Spec.byteAnswers, byteReads, List.map_map, List.range_eq_range']
  rfl

end

/-- Settles O59: both lists of reads are played on an idle block, and each read is of a readable name. -/
theorem entryPointsReadBackTheirResults : Obligations.EntryPointsReadBackTheirResults := by
  intro s moves d hb hs
  constructor
  · intro hin
    have hregs := readable_reg_cons .outBits (readable_reg_cons .outBytes (readable_byteReads hs hin))
    obtain ⟨r, h⟩ := play_reads hb (scriptOps_compressReads s d)
      (List.append_ne_nil_of_right_ne_nil _ (List.cons_ne_nil _ _))
      (List.forall_mem_append.2 ⟨readable_freqReads, hregs⟩) moves
    rw [List.map_append, freqReads_answers, List.map_cons, List.map_cons, byteReads_answers] at h
    exact ⟨r, by rw [h, List.append_assoc]; rfl⟩
  · intro hin
    obtain ⟨r, h⟩ := play_reads hb (scriptOps_decompressReads s d) (List.cons_ne_nil _ _)
      (readable_reg_cons .outSyms (readable_byteReads hs hin)) moves
    rw [List.map_cons, byteReads_answers] at h
    exact ⟨r, h⟩

end Sys2Proof.Machine
end

section
/-! The frequency table (40_frequency_scanner.md): the host's accesses to FREQ (R105, R106), CLRF (R100), and
what SCAN counts (R102 to R104); O23 and O27 to O29. -/

namespace Sys2Proof.Machine

/-! ### The host's accesses to FREQ (R105, R106) -/

/-- Settles O23: FREQ is a writable name that is hidden while BUSY = 1, and the write replaces one entry. -/
theorem freqWriteStoresAndInvalidates : Obligations.FreqWriteStoresAndInvalidates := by
  intro s sym v
  refine ⟨fun hb => ?_, hostStep_txn_dropped (target := .freq sym) nofun rfl nofun (v := v)⟩
  have hidle : ∀ {p : Prop}, s.status.busy = true → p := fun h => absurd (hb.symm.trans h) nofun
  exact ⟨setEntry s.freq sym v, hostStep_txn_write (target := .freq sym) nofun rfl hidle v,
    fun r => entry_setEntry s.freq sym r v, hostStep_txn_read (target := .freq sym) nofun hidle⟩

/-! ### CLRF (R100) -/

/-- Settles O27: the table CLRF leaves is the zero table. -/
theorem clrfClearsTheTable : Obligations.ClrfClearsTheTable :=
  ⟨rfl, fun _ => ⟨zeroFreq, rfl, entry_zeroFreq⟩⟩

/-! ### SCAN (R102 to R104) -/

/-- R102: SCAN of a window in range. -/
theorem exec_scan_of_inRange {s : State} (h : s.inputWindow.inRange s.dmemSize) :
    exec .scan s = .next (s.setFreq (histogram (s.readBytes s.inputWindow))).succeed := by
  rcases execScan_cases s with ⟨-, hx⟩ | ⟨hn, -⟩
  · exact hx
  · exact absurd h hn

/-- R102: SCAN of a window that runs past DMEM_SIZE. -/
theorem exec_scan_of_not_inRange {s : State} (h : ¬s.inputWindow.inRange s.dmemSize) :
    exec .scan s = .next (s.raise .range 0#32) := by
  rcases execScan_cases s with ⟨hr, -⟩ | ⟨-, hx⟩
  · exact absurd hr h
  · exact hx

/-- A symbol occurs in a window's bytes once per offset at which the window holds it. -/
theorem State.count_readBytes (s : State) (w : Window) (sym : Byte) :
    (s.readBytes w).count sym = (List.range w.len).countP fun i => s.readByte (w.base + i) == sym := by
  rw [State.readBytes, List.count, List.countP_map, List.range_eq_range']
  rfl

/-- R103: LEN fits 32 bits, so no counter of a SCAN wraps. -/
theorem State.toNat_entry_scan (s : State) (sym : Byte) :
    (entry (histogram (s.readBytes s.inputWindow)) sym).toNat = (s.readBytes s.inputWindow).count sym :=
  toNat_entry_histogram _ sym (by rw [State.length_readBytes]; exact s.args.len.isLt)

/-- Settles O28: the counts are those of the window's bytes, which are LEN in number. -/
theorem scanCountsTheWindowOrRaisesRange : Obligations.ScanCountsTheWindowOrRaisesRange := by
  refine ⟨rfl, fun s => ⟨fun hin => ?_, fun hpast => exec_scan_of_not_inRange (Nat.not_le.2 hpast)⟩⟩
  refine ⟨histogram (s.readBytes s.inputWindow), exec_scan_of_inRange hin, fun sym => ?_, ?_⟩
  · rw [s.toNat_entry_scan, s.count_readBytes]
    rfl
  · simp only [s.toNat_entry_scan, sum_count_allSymbols, State.length_readBytes]
    rfl

/-- R104: the order of the bytes does not matter, since each entry is a count. -/
theorem histogram_perm {xs ys : List Byte} (h : xs.Perm ys) : histogram xs = histogram ys :=
  symTable_ext fun sym => by rw [entry_histogram, entry_histogram, h.count_eq]

/-- Settles O29: each of the two tables is the histogram of its window. -/
theorem scanDependsOnTheWindowsCountsOnly : Obligations.ScanDependsOnTheWindowsCountsOnly := by
  intro s s' t t' hin hin' hperm ht ht'
  cases ht.symm.trans (exec_scan_of_inRange hin)
  cases ht'.symm.trans (exec_scan_of_inRange hin')
  exact histogram_perm hperm

end Sys2Proof.Machine
end

section
/-! BUILD as a command (R120, R121) and its result registers (R129); O30, O31 and O39. -/

namespace Sys2Proof.Machine

open Sys2Proof.Spec

/-- R120: BUILD of a table whose sum fits 32 bits. -/
theorem exec_build_of_fits {s : State} (hf : freqTotal s.freq ≤ 2 ^ 32 - 1) :
    exec .build s = .next (s.writeBuilt (buildFrom s.freq)).succeed := by
  rcases execBuild_cases s with ⟨ho, -⟩ | ⟨-, hx⟩
  · exact absurd hf (Nat.not_le.2 ho)
  · exact hx

/-- R121: BUILD of a table whose sum is past 32 bits. -/
theorem exec_build_of_overflows {s : State} (ho : freqOverflows s.freq) :
    exec .build s = .next (s.dropTable.raise .freqOverflow 0#32) := by
  rcases execBuild_cases s with ⟨-, hx⟩ | ⟨hn, -⟩
  · exact hx
  · exact absurd ho hn

/-- R133: a successful BUILD's results are those of FREQ. -/
theorem built_of_exec_build {s t : State} (hf : freqTotal s.freq ≤ 2 ^ 32 - 1)
    (h : exec .build s = .next t) : t.built = buildFrom s.freq := by
  rw [execBuild_built hf h, State.succeed_built, State.writeBuilt_built]

/-- TOTAL as a number (R31): the sum of the table, when it fits. -/
theorem toNat_total {f : SymTable Word} (hf : freqTotal f ≤ 2 ^ 32 - 1) :
    (buildFrom f).total.toNat = freqTotal f := by
  rw [buildFrom_total, BitVec.toNat_ofNat, Nat.mod_eq_of_lt (by omega)]

/-- ROOT as the host reads it (R32): NONE for an empty alphabet, else the last node's index. -/
theorem toNat_rootWord (f : SymTable Word) :
    (rootWord (buildFrom f).root).toNat =
      if (alphabet f).length = 0 then 0x80000000 else 2 * (alphabet f).length - 2 := by
  have hk := length_alphabet_le f
  rw [buildFrom_root]
  split
  · rfl
  · simp only [rootWord, BitVec.toNat_setWidth, BitVec.toNat_ofNat]
    omega

/-- NODE_COUNT as a number (R33). -/
theorem toNat_nodeCount (f : SymTable Word) :
    (buildFrom f).nodeCount.toNat = nodeCountOf (alphabet f).length := by
  have hc := nodeCountOf_le f
  rw [buildFrom_nodeCount, BitVec.toNat_ofNat, Nat.mod_eq_of_lt (by omega)]

/-- R129: no code is longer than MAXLEN. -/
theorem lenOf_le_maxlen (f : SymTable Word) (sym : Byte) :
    (buildFrom f).lenOf sym ≤ (buildFrom f).maxlen.toNat := by
  rw [toNat_maxlen]
  exact le_largest _ sym

/-- R129: MAXLEN is the length of some code. -/
theorem exists_lenOf_eq_maxlen (f : SymTable Word) :
    ∃ sym, (buildFrom f).lenOf sym = (buildFrom f).maxlen.toNat := by
  rw [toNat_maxlen]
  exact exists_largest _

/-- R128: a symbol that is not in the alphabet has CODE_LEN 0. -/
theorem lenOf_eq_zero {f : SymTable Word} {sym : Byte} (h : entry f sym = 0#32) :
    (buildFrom f).lenOf sym = 0 :=
  Decidable.not_not.1 fun hne => (lenOf_buildFrom_ne_zero f sym).1 hne h

/-- R129: MAXLEN is 0 for an empty alphabet. -/
theorem maxlen_of_alphabet_nil {f : SymTable Word} (h : alphabet f = []) :
    (buildFrom f).maxlen = 0#8 := by
  obtain ⟨sym, hsym⟩ := exists_lenOf_eq_maxlen f
  have hzero : entry f sym = 0#32 :=
    Decidable.not_not.1 fun hne => by simpa [h] using (mem_alphabet f sym).2 hne
  rw [lenOf_eq_zero hzero] at hsym
  exact BitVec.eq_of_toNat_eq hsym.symm

/-- Settles O30: the results are those of `buildFrom`, register by register. -/
theorem buildWritesItsResultRegisters : Obligations.BuildWritesItsResultRegisters := by
  intro s hf
  refine ⟨buildFrom s.freq, exec_build_of_fits hf, toNat_alpha _, toNat_total hf, toNat_rootWord _,
    toNat_nodeCount _, lenOf_le_maxlen _, ?_⟩
  split
  · next h => exact maxlen_of_alphabet_nil (List.length_eq_zero_iff.1 h)
  · exact exists_lenOf_eq_maxlen _

/-- Settles O31: the sum is past BUILD's limit, so BUILD takes its error. -/
theorem buildRefusesAnOverflowingTable : Obligations.BuildRefusesAnOverflowingTable :=
  fun _ ho => exec_build_of_overflows ho

/-- Settles O39: both results are `buildFrom` of the one table. -/
theorem buildDependsOnFreqOnly : Obligations.BuildDependsOnFreqOnly := by
  intro s s' t t' hfreq hf h h'
  rw [built_of_exec_build hf h, built_of_exec_build (hfreq ▸ hf) h', hfreq]

end Sys2Proof.Machine
end

section
/-! The merge seen in the node arena: its order (R123, R124) and the node frequencies (R43, R132); O33 and
O34. -/

namespace Sys2Proof.Machine

open Sys2Proof.Spec

/-! ### The order of the merges (R123, R124) -/

/-- NODE_FREQ of a node's slot as a number. -/
theorem nodeFreq_buildFrom {f : SymTable Word} (hf : freqTotal f ≤ 2 ^ 32 - 1) {i : NodeIdx}
    (hi : i.toNat < (huffmanForest f).nodes.length) :
    nodeFreq (buildFrom f) i = freqAt (huffmanForest f).nodes i.toNat :=
  toNat_slot_nodeFreq f i hf (length_huffmanForest f ▸ hi)

/-- The arena's order of two used slots is the forest's order of the two nodes. -/
theorem before_buildFrom {f : SymTable Word} (hf : freqTotal f ≤ 2 ^ 32 - 1) {i j : NodeIdx}
    (hi : i.toNat < (huffmanForest f).nodes.length) (hj : j.toNat < (huffmanForest f).nodes.length) :
    before (buildFrom f) i j ↔ comesBefore (huffmanForest f).nodes i.toNat j.toNat := by
  rw [before, nodeFreq_buildFrom hf hi, nodeFreq_buildFrom hf hj]

/-- The node in an internal slot, by the slot's own links. -/
theorem node_of_internal_slot (f : SymTable Word) {n : NodeIdx} (hk : (alphabet f).length ≤ n.toNat)
    (hn : n.toNat + 1 < 2 * (alphabet f).length) :
    ∃ q, (huffmanForest f).nodes[n.toNat]? =
      some (.internal q (slot (buildFrom f).nodeInfo n).left.toNat
        (slot (buildFrom f).nodeInfo n).right.toNat) := by
  obtain ⟨q, l, r, hnode, hl, hr, -, hslot⟩ := slot_internal f n hk hn
  have hlt := (List.getElem?_eq_some_iff.1 hnode).1
  refine ⟨q, ?_⟩
  rw [hslot, toNat_nodeIdx f (hl.trans hlt), toNat_nodeIdx f (hr.trans hlt), hnode]

/-- A node no internal slot below `n` links to is no child of a node below `n`. -/
theorem not_mem_children_of_not_childOf (f : SymTable Word) {j n : NodeIdx}
    (hfree : ∀ m : NodeIdx, (alphabet f).length ≤ m.toNat → m.toNat < n.toNat →
      ¬childOf (buildFrom f) j m)
    (m : Nat) (x : Node) (hm : m < n.toNat) (hx : (huffmanForest f).nodes[m]? = some x) :
    j.toNat ∉ x.children := by
  have hmn := toNat_nodeIdx f (List.getElem?_eq_some_iff.1 hx).1
  cases x with
  | leaf s q => exact List.not_mem_nil
  | internal q l r =>
    intro hj
    have hk := (huffmanForest_sound f).internal_ge (isLeaf_of_mem_seed f) hx
    rw [length_seed] at hk
    refine hfree (BitVec.ofNat 9 m) (by omega) (by omega) ?_
    refine (childOf_buildFrom f j _ (by rw [hmn]; exact hx)).2 ?_
    rcases List.mem_pair.1 hj with h | h
    · exact ⟨false, h.symm⟩
    · exact ⟨true, h.symm⟩

/-- R124: a child of node `n` was not the child of any node before `n`. -/
theorem not_childOf_of_child (f : SymTable Word) {n m j : NodeIdx} {q l r : Nat} (bit : Bool)
    (hn : (huffmanForest f).nodes[n.toNat]? = some (.internal q l r))
    (hj : (if bit then r else l) = j.toNat) (hk : (alphabet f).length ≤ m.toNat)
    (hm : m.toNat < n.toNat) : ¬childOf (buildFrom f) j m := by
  intro hc
  have hlt := (List.getElem?_eq_some_iff.1 hn).1
  obtain ⟨q', l', r', hx, -⟩ := huffmanForest_internal f m.toNat hk (hm.trans hlt)
  obtain ⟨bit', hj'⟩ := (childOf_buildFrom f j m hx).1 hc
  have hmn := ((huffmanForest_sound f).parent_unique hx hn (hj'.trans hj.symm)).1
  omega

/-- The frequency of a node. -/
theorem freqAt_of_getElem? {nodes : List Node} {i : Nat} {x : Node} (h : nodes[i]? = some x) :
    freqAt nodes i = x.freq := by
  rw [freqAt, h]
  rfl

section
variable {f : SymTable Word} {n a c : NodeIdx} {q : Nat} (hf : freqTotal f ≤ 2 ^ 32 - 1)
  (hnode : (huffmanForest f).nodes[n.toNat]? = some (.internal q a.toNat c.toNat))

include hnode in
/-- The children of a node are nodes before it. -/
theorem children_lt_of_node :
    n.toNat < (huffmanForest f).nodes.length ∧ a.toNat < n.toNat ∧ c.toNat < n.toNat :=
  ⟨(List.getElem?_eq_some_iff.1 hnode).1, (huffmanForest_sound f).child_lt false hnode,
    (huffmanForest_sound f).child_lt true hnode⟩

include hf hnode

/-- R123, R124: the left child comes before every other node that was still free, the right child before
every other one but the left. -/
theorem before_of_free {j : NodeIdx} (hj : j.toNat < n.toNat)
    (hfree : ∀ m : NodeIdx, (alphabet f).length ≤ m.toNat → m.toNat < n.toNat →
      ¬childOf (buildFrom f) j m) (hja : j ≠ a) :
    before (buildFrom f) a j ∧ (j ≠ c → before (buildFrom f) c j) := by
  obtain ⟨hn, ha, hc⟩ := children_lt_of_node hnode
  obtain ⟨hfirst, hsecond⟩ := huffmanForest_greedy f _ _ _ _ hnode _ hj
    (not_mem_children_of_not_childOf f hfree) (mt BitVec.eq_of_toNat_eq hja)
  rw [before_buildFrom hf (ha.trans hn) (hj.trans hn), before_buildFrom hf (hc.trans hn) (hj.trans hn)]
  exact ⟨hfirst, fun hjc => hsecond (mt BitVec.eq_of_toNat_eq hjc)⟩

/-- R124: the frequency of an internal node is the sum of its children's. -/
theorem nodeFreq_internal :
    nodeFreq (buildFrom f) n = nodeFreq (buildFrom f) a + nodeFreq (buildFrom f) c := by
  obtain ⟨hn, ha, hc⟩ := children_lt_of_node hnode
  rw [nodeFreq_buildFrom hf hn, nodeFreq_buildFrom hf (ha.trans hn), nodeFreq_buildFrom hf (hc.trans hn),
    freqAt_of_getElem? hnode]
  exact (huffmanForest_sound f).sums _ _ _ _ hnode

end

/-- Settles O33: the merge is greedy, and the slots hold its nodes in their order. -/
theorem eachMergeTakesTheTwoFirstNodes : Obligations.EachMergeTakesTheTwoFirstNodes := by
  rintro s t hf h k rfl n hk hn a c rfl rfl pool rfl
  rw [built_of_exec_build hf h]
  obtain ⟨q, hnode⟩ := node_of_internal_slot s.freq hk hn
  obtain ⟨-, ha, hc⟩ := children_lt_of_node hnode
  refine ⟨⟨ha, fun m => not_childOf_of_child s.freq false hnode rfl⟩,
    ⟨hc, fun m => not_childOf_of_child s.freq true hnode rfl⟩,
    fun e => (huffmanForest_sound s.freq).left_ne_right hnode (congrArg BitVec.toNat e),
    fun j hj hja => ?_, fun j hj hja => ?_, nodeFreq_internal hf hnode⟩
  · exact (before_of_free hf hnode hj.1 hj.2 hja).1
  · exact (before_of_free hf hnode hj.1 hj.2 hja).2

/-! ### Node frequencies (R43, R132) -/

/-- The leaves are used slots. -/
theorem lt_nodeCountOf {i k : Nat} (hi : i < k) : i < nodeCountOf k := by
  rw [nodeCountOf, if_neg (by omega)]
  omega

/-- R43: a leaf's frequency is its symbol's count. -/
theorem freqAt_leaf (f : SymTable Word) {i : Nat} (hi : i < (alphabet f).length) :
    freqAt (huffmanForest f).nodes i = (entry f (alphabet f)[i]).toNat :=
  freqAt_of_getElem? (huffmanForest_leaf f i hi)

/-- R43: NODE_FREQ of a leaf's slot is its symbol's count. -/
theorem slot_nodeFreq_leaf (f : SymTable Word) (i : NodeIdx) (hi : i.toNat < (alphabet f).length) :
    slot (buildFrom f).nodeFreq i = entry f (alphabet f)[i.toNat] := by
  rw [slot_nodeFreq, if_pos (lt_nodeCountOf hi), freqAt_leaf f hi, BitVec.ofNat_toNat, BitVec.setWidth_eq]

/-- R132: NODE_FREQ of the leaves adds up to the sum of the table. -/
theorem sum_nodeFreq_leaves (f : SymTable Word) :
    ((List.range (alphabet f).length).map fun i =>
      nodeFreq (buildFrom f) (BitVec.ofNat 9 i)).sum = freqTotal f := by
  rw [← sum_freq_seed, seed_eq]
  congr 1
  refine List.ext_getElem (by simp) fun i hi _ => ?_
  have hk : i < (alphabet f).length := by simpa using hi
  have hin : (BitVec.ofNat 9 i).toNat = i :=
    toNat_nodeIdx f (by rw [length_huffmanForest]; exact lt_nodeCountOf hk)
  have hslot := slot_nodeFreq_leaf f (BitVec.ofNat 9 i) (by rwa [hin])
  simp only [hin] at hslot
  simp [nodeFreq, hslot, leafOf, Node.freq]

/-- R132: NODE_FREQ of the root is the sum of the table. -/
theorem nodeFreq_root {f : SymTable Word} (hf : freqTotal f ≤ 2 ^ 32 - 1) (hne : alphabet f ≠ []) :
    nodeFreq (buildFrom f) (buildFrom f).rootIndex = freqTotal f := by
  have hk : (alphabet f).length ≠ 0 := mt List.length_eq_zero_iff.1 hne
  have hlt : 2 * (alphabet f).length - 2 < (huffmanForest f).nodes.length := by
    rw [length_huffmanForest, nodeCountOf, if_neg hk]
    omega
  have hroot := toNat_nodeIdx f hlt
  rw [buildFrom_rootIndex, nodeFreq_buildFrom hf (by rwa [hroot]), hroot, freqAt_root f hk]

/-- R103: the counts of a SCAN add up to LEN. -/
theorem State.freqTotal_scan (s : State) :
    freqTotal (histogram (s.readBytes s.inputWindow)) = s.args.len.toNat := by
  simp only [freqTotal, s.toNat_entry_scan, sum_count_allSymbols, State.length_readBytes]
  rfl

/-- Settles O34: the leaves' frequencies are the table's entries, and each merge keeps the sum. -/
theorem nodeFrequenciesConserveTheTotal : Obligations.NodeFrequenciesConserveTheTotal := by
  intro s t hf h
  rw [built_of_exec_build hf h, toNat_total hf]
  refine ⟨slot_nodeFreq_leaf s.freq, sum_nodeFreq_leaves s.freq, nodeFreq_root hf, fun r hin hr => ?_⟩
  cases hr.symm.trans (exec_scan_of_inRange hin)
  refine BitVec.eq_of_toNat_eq ?_
  rw [toNat_total hf]
  exact r.freqTotal_scan

end Sys2Proof.Machine
end

section
/-! BUILD's code table: the codes are the paths of the tree (R127, R128), none begins another (R131), their
lengths are bounded (R134), and they are complete (R135); O35 to O38. -/

namespace Sys2Proof.Machine

/-! ### Paths (R127, R128) -/

/-- R127: with at least two symbols the arena's links spell each code. -/
theorem spells_codeOf {f : SymTable Word} {sym : Byte} (hsym : entry f sym ≠ 0#32)
    (hk : 2 ≤ (alphabet f).length) :
    (buildFrom f).spells (buildFrom f).rootIndex ((buildFrom f).codeOf sym) sym := by
  have halpha : (buildFrom f).alpha ≠ 1#9 := fun e => by
    have := toNat_alpha f
    rw [e, show (1#9).toNat = 1 from rfl] at this
    omega
  have hread := (readsBack_buildFrom f sym hsym).2
  rwa [if_neg halpha] at hread

/-- R127: with one symbol its code is the bit 0. -/
theorem codeOf_single {f : SymTable Word} {sym : Byte} (h : alphabet f = [sym]) :
    (buildFrom f).codeOf sym = [false] := by
  rw [codeOf_buildFrom, (findCode_eq_some f sym [false]).2 (by simp [huffmanCodes_single f sym h])]
  rfl

/-- R128: the bits of CODE_BITS past a code's length are 0. -/
theorem codeBit_past_lenOf (f : SymTable Word) {sym : Byte} {j : Nat}
    (hlen : (buildFrom f).lenOf sym ≤ j) (hj : j < 256) : (buildFrom f).codeBit sym j = false := by
  rw [codeBit_buildFrom f sym j hj, ← codeOf_buildFrom]
  exact List.getD_eq_default _ _ (by rwa [length_codeOf])

/-- Settles O35: the table holds the derived codes, which are the tree's paths. -/
theorem codesAreThePathsOfTheTree : Obligations.CodesAreThePathsOfTheTree := by
  intro s t hf h
  rw [built_of_exec_build hf h]
  exact ⟨fun _ => spells_codeOf, fun _ => codeOf_single, fun _ => lenOf_eq_zero,
    fun _ _ => codeBit_past_lenOf s.freq⟩

/-- Settles O36: a path to a leaf does not go on to another leaf. -/
theorem codesArePrefixFree : Obligations.CodesArePrefixFree := by
  intro s t hf h a b hab ha hb hpre
  rw [built_of_exec_build hf h, lenOf_buildFrom_ne_zero] at ha hb
  rw [built_of_exec_build hf h] at hpre
  exact hab (huffmanCodes_prefix_free s.freq (codeOf_mem s.freq a ha) (codeOf_mem s.freq b hb) hpre)

/-! ### Lengths (R134) -/

/-- R134: with at least two symbols, the path to a leaf has at most k - 1 steps. -/
theorem length_huffmanCode_le {f : SymTable Word} {sym : Byte} {c : List Bool}
    (hc : (sym, c) ∈ huffmanCodes f) (hk : 2 ≤ (alphabet f).length) :
    c.length ≤ (alphabet f).length - 1 := by
  obtain ⟨j, q, hpath, -⟩ := (mem_huffmanCodes f hk sym c).1 hc
  have hlen := (huffmanForest_sound f).path_length (isLeaf_of_mem_seed f) hpath
  rw [length_seed] at hlen
  omega

/-- Settles O37: lengths of paths in the tree. -/
theorem codeLengthsAreBounded : Obligations.CodeLengthsAreBounded := by
  intro s t hf h sym hsym
  rw [built_of_exec_build hf h, ← length_codeOf]
  have hc := codeOf_mem s.freq sym hsym
  obtain ⟨hpos, hle⟩ := huffmanCodes_length s.freq hc
  refine ⟨hpos, hle, length_huffmanCode_le hc, fun hone => ?_⟩
  obtain ⟨r, hr⟩ := List.length_eq_one_iff.1 hone
  have hm := (mem_alphabet s.freq sym).2 hsym
  rw [hr, List.mem_singleton] at hm
  rw [codeOf_single (hm ▸ hr)]
  rfl

/-! ### Completeness (R135) -/

/-- CODE_LEN of a derived code is its length. -/
theorem lenOf_of_mem {f : SymTable Word} {sym : Byte} {c : List Bool} (hc : (sym, c) ∈ huffmanCodes f) :
    (buildFrom f).lenOf sym = c.length := by
  rw [lenOf_buildFrom, (findCode_eq_some f sym c).2 hc]
  rfl

/-- R135: the weights of the code lengths over the alphabet add up to 1, here times 2^255. -/
theorem sum_weight_alphabet {f : SymTable Word} (hk : 2 ≤ (alphabet f).length) :
    ((alphabet f).map fun sym => 2 ^ (255 - (buildFrom f).lenOf sym)).sum = 2 ^ 255 := by
  rw [← ((huffmanCodes_symbols f).map _).sum_eq, List.map_map, ← huffmanCodes_weight f hk]
  refine congrArg List.sum (List.map_congr_left fun e he => ?_)
  rw [Function.comp_apply, lenOf_of_mem he]

/-- R135: from any node a bit string either ends on the way to a leaf or passes one, since an internal node
has a child for either bit. -/
theorem exists_leaf_along (f : SymTable Word) (bits : List Bool) {i : Nat}
    (hi : i < (huffmanForest f).nodes.length) :
    ∃ p j sym q, follow (huffmanForest f).nodes i p = some j ∧
      (huffmanForest f).nodes[j]? = some (.leaf sym q) ∧ (bits <+: p ∨ p <+: bits) := by
  induction bits generalizing i with
  | nil =>
    obtain ⟨p, j, sym, q, hp, hl⟩ := exists_leaf_below f i hi
    exact ⟨p, j, sym, q, hp, hl, .inl List.nil_prefix⟩
  | cons b bits ih =>
    have hnode := List.getElem?_eq_getElem hi
    cases hx : (huffmanForest f).nodes[i] with
    | leaf sym q => exact ⟨[], i, sym, q, rfl, hx ▸ hnode, .inr List.nil_prefix⟩
    | internal q l r =>
      rw [hx] at hnode
      obtain ⟨p, j, sym, q', hp, hl, hpre⟩ :=
        ih (((huffmanForest_sound f).child_lt b hnode).trans hi)
      refine ⟨b :: p, j, sym, q', (follow_internal hnode b p).trans hp, hl, ?_⟩
      exact hpre.imp (List.cons_prefix_cons.2 ⟨rfl, ·⟩) (List.cons_prefix_cons.2 ⟨rfl, ·⟩)

/-- R135: every bit string begins with a code or begins one. -/
theorem exists_code_along {f : SymTable Word} (hk : 2 ≤ (alphabet f).length) (bits : List Bool) :
    ∃ sym c, (sym, c) ∈ huffmanCodes f ∧ (bits <+: c ∨ c <+: bits) := by
  obtain ⟨c, j, sym, q, hc, hl, hpre⟩ := exists_leaf_along f bits
    (i := 2 * (alphabet f).length - 2)
    (by rw [length_huffmanForest, nodeCountOf, if_neg (by omega)]; omega)
  exact ⟨sym, c, (mem_huffmanCodes f hk sym c).2 ⟨j, q, hc, hl⟩, hpre⟩

/-- Settles O38: the weights of the tree's leaves add up, and each bit string leads to a leaf or past
one. -/
theorem codeIsComplete : Obligations.CodeIsComplete := by
  intro s t hf h hk
  rw [built_of_exec_build hf h]
  refine ⟨sum_weight_alphabet hk, fun bits => ?_⟩
  obtain ⟨sym, c, hc, hpre⟩ := exists_code_along hk bits
  refine ⟨sym, (mem_alphabet _ _).1 ((exists_huffmanCode _ _).1 ⟨c, hc⟩), ?_⟩
  rwa [codeOf_buildFrom, (findCode_eq_some _ _ _).2 hc]

end Sys2Proof.Machine
end

section
/-! ENCODE as a command (R140): the stream it packs (R141, R144), the byte it stops at (R142), and ENCODE of
the window whose code table SCAN and BUILD made; O40 to O42. -/

namespace Sys2Proof.Machine

open Sys2Proof.Spec

/-! ### The command, by the outcome of its loop (R140) -/

section
variable {s : State} (hup : s.upFrontError s.inputWindow = none)
include hup

/-- R140: past the up-front checks, a loop that stops at a byte ends ENCODE with its runtime error. -/
theorem exec_encode_of_error {e : ErrCode} {i : Nat}
    (hloop : encodeFrom s.built s.args.dcap.toNat 0 [] (s.readBytes s.inputWindow) = .error (e, i)) :
    exec .encode s = .next (s.raiseRuntime e (BitVec.ofNat 32 i)) := by
  simp only [exec, execEncode, hup, hloop]

/-- R140: past the up-front checks, with a code for every byte and room for the codes, ENCODE writes them. -/
theorem exec_encode_of_fits
    (hcode : ∀ sym ∈ s.readBytes s.inputWindow, s.built.lenOf sym ≠ 0)
    (hfit : ((s.readBytes s.inputWindow).map s.built.lenOf).sum ≤ 8 * s.args.dcap.toNat) :
    exec .encode s =
      .next (s.writeEncoded (s.built.codesOf (s.readBytes s.inputWindow))).succeed := by
  rw [← Built.length_codesOf] at hfit
  simp only [exec, execEncode, hup, encodeFrom_ok _ _ _ hcode hfit]

end

/-! ### The packed stream (R141, R68) -/

/-- ENCODE writes DMEM and the result registers only. -/
theorem State.writeEncoded_eq (s : State) (bits : List Bool) :
    s.writeEncoded bits =
      { s with
        mem := (s.writeEncoded bits).mem
        results := ⟨BitVec.ofNat 32 bits.length, BitVec.ofNat 32 (ceil8 bits.length), s.args.len⟩ } := by
  conv_lhs => rw [State.writeEncoded, State.writeBytes_eq]
  rfl

/-- R141: bit `7 - r` of the q-th byte written is stream bit `8q + r`, or 0 past the stream's end. -/
theorem State.getLsbD_writeEncoded (s : State) (bits : List Bool) {q r : Nat}
    (hq : q < ceil8 bits.length) (hr : r < 8) :
    ((s.writeEncoded bits).readByte (s.args.dst.toNat + q)).getLsbD (7 - r) =
      bits.getD (8 * q + r) false := by
  rw [s.writeEncoded_readByte, s.readByte_writeBytes_at _ _ q (by rwa [length_packBytes]),
    getElem_packBytes, getLsbD_packByte _ _ _ hr]

/-- R68: every byte outside the stream is unchanged. -/
theorem State.writeEncoded_readByte_outside (s : State) (bits : List Bool) {a : Nat}
    (ha : a < s.args.dst.toNat ∨ s.args.dst.toNat + ceil8 bits.length ≤ a) :
    (s.writeEncoded bits).readByte a = s.readByte a := by
  rw [s.writeEncoded_readByte, s.readByte_writeBytes_outside _ _ _ (by rwa [length_packBytes])]

/-- Settles O40: every byte has a code and the codes fit, so ENCODE writes the packed stream. -/
theorem encodePacksTheCodesInOrder : Obligations.EncodePacksTheCodesInOrder := by
  rintro s hvalid hin hout hover hcode hfit bits rfl
  have hup := (s.upFrontError_none s.inputWindow).2 ⟨hvalid, hin, hout, hover⟩
  rw [← Built.length_codesOf]
  exact ⟨_, _, exec_encode_of_fits hup hcode hfit, congrArg State.succeed (s.writeEncoded_eq _), rfl,
    fun _ _ => s.getLsbD_writeEncoded _, fun _ => s.writeEncoded_readByte_outside _⟩

/-! ### The byte ENCODE stops at (R142) -/

/-- Settles O41: the bytes before the bad one are passed over, and the loop tests its CODE_LEN before the
room for its code. -/
theorem encodeStopsAtTheFirstBadByte : Obligations.EncodeStopsAtTheFirstBadByte := by
  intro s u v sym hvalid hin hout hover hinput hcode hfit
  have hup := (s.upFrontError_none s.inputWindow).2 ⟨hvalid, hin, hout, hover⟩
  rw [← Built.length_codesOf] at hfit ⊢
  have stops (e : ErrCode) (hloop : encodeFrom s.built s.args.dcap.toNat 0 [] (u ++ sym :: v) =
      .error (e, u.length)) : ∃ t, exec .encode s = .next t ∧ t.status = failed s.status ∧
        t.errCode = e ∧ t.errInfo = BitVec.ofNat 32 u.length :=
    ⟨_, exec_encode_of_error hup (hinput ▸ hloop), s.raiseRuntime_status e _,
      s.raiseRuntime_errCode e _, s.raiseRuntime_errInfo e _⟩
  exact ⟨fun hzero => stops _ (encodeFrom_noCode _ _ u v sym hcode hfit hzero),
    fun hne hpast => stops _ (encodeFrom_dstOverflow _ _ u v sym hcode hfit hne hpast)⟩

/-! ### After SCAN and BUILD (R142, R144) -/

/-- R103: a byte SCAN has read is in the alphabet of its table. -/
theorem State.entry_scan_ne_zero {s : State} {sym : Byte} (h : sym ∈ s.readBytes s.inputWindow) :
    entry (histogram (s.readBytes s.inputWindow)) sym ≠ 0#32 := by
  intro hzero
  have hcount := s.toNat_entry_scan sym
  rw [hzero] at hcount
  exact (List.count_pos_iff.2 h).ne hcount

/-- R144: the sum over the symbols of a SCAN, each length weighted with its count, is the sum over the
bytes of the window. -/
theorem State.sum_entry_scan_mul (s : State) (g : Byte → Nat) :
    (allSymbols.map fun sym =>
      (entry (histogram (s.readBytes s.inputWindow)) sym).toNat * g sym).sum =
      ((s.readBytes s.inputWindow).map g).sum := by
  simp only [s.toNat_entry_scan, sum_count_mul]

/-- R103: the counts of a SCAN fit BUILD. -/
theorem State.freqTotal_scan_le (s : State) :
    freqTotal (histogram (s.readBytes s.inputWindow)) ≤ 2 ^ 32 - 1 := by
  rw [s.freqTotal_scan]
  have := s.args.len.isLt
  omega

/-- R102: FREQ after a SCAN of a window in range. -/
theorem freq_of_exec_scan {s t : State} (hin : s.inputWindow.inRange s.dmemSize)
    (h : exec .scan s = .next t) : t.freq = histogram (s.readBytes s.inputWindow) := by
  cases h.symm.trans (exec_scan_of_inRange hin)
  rfl

/-- Settles O42: the table is BUILD's of the window's own counts, so each byte of the window has a code, and
the sum weighted with the counts is the length of the stream. -/
theorem encodeAfterScanAndBuildSucceeds : Obligations.EncodeAfterScanAndBuildSucceeds := by
  intro s s1 s2 e _ hin hscan hbuild hbuilt hvalid hsize hwindow hbytes hout hover
  have hfreq := freq_of_exec_scan hin hscan
  have htable : e.built = buildFrom s1.freq :=
    hbuilt.trans (built_of_exec_build (hfreq ▸ s.freqTotal_scan_le) hbuild)
  have hup := (e.upFrontError_none e.inputWindow).2
    ⟨hvalid, by rwa [hwindow, hsize], hout, hover⟩
  have hcode : ∀ sym ∈ e.readBytes e.inputWindow, e.built.lenOf sym ≠ 0 := by
    rw [hbytes, htable, hfreq]
    exact fun sym hsym => (lenOf_buildFrom_ne_zero _ sym).2 (State.entry_scan_ne_zero hsym)
  rw [hfreq, ← hbuilt, s.sum_entry_scan_mul, ← hbytes]
  intro hfit
  refine ⟨_, exec_encode_of_fits hup hcode hfit, congrArg ok (e.writeEncoded_status _), ?_⟩
  rw [State.succeed_results, State.writeEncoded_results, Built.length_codesOf]

end Sys2Proof.Machine
end

section
/-! DECODE as a command (R160): the symbols it writes (R162, R163), the unfinished code (R165), the symbol
that does not fit (R166), bits that begin no code (R163, R164), and the round trip with ENCODE (R170); O45 to
O49. -/

namespace Sys2Proof.Machine

open Sys2Proof.Spec

/-! ### The command, by the outcome of its walk (R160) -/

section
variable {s : State} (hup : s.upFrontError s.streamWindow = none)
include hup

/-- R160, R203: past the up-front checks, a walk that stops with an error makes DECODE report it. -/
theorem exec_decode_reports {e : ErrCode} {i : Nat}
    (hwalk : decodeStream s.built s.args.dcap.toNat
      (s.streamBits s.args.src.toNat s.args.nbits.toNat) = .error (e, i)) :
    ∃ t, exec .decode s = .next t ∧ t.status = failed s.status ∧ t.errCode = e ∧
      t.errInfo = BitVec.ofNat 32 i := by
  refine ⟨s.raiseRuntime e (BitVec.ofNat 32 i), ?_, s.raiseRuntime_status e _,
    s.raiseRuntime_errCode e _, s.raiseRuntime_errInfo e _⟩
  simp only [exec, execDecode, hup, hwalk]

/-- R160: past the up-front checks, a walk that reaches the stream's end makes DECODE write its symbols. -/
theorem exec_decode_of_ok {out : List Byte}
    (hwalk : decodeStream s.built s.args.dcap.toNat
      (s.streamBits s.args.src.toNat s.args.nbits.toNat) = .ok out) :
    exec .decode s = .next (s.writeDecoded out).succeed := by
  simp only [exec, execDecode, hup, hwalk]

/-- R160, R162, R163: DECODE of the codes of symbols that the arena reads back, and that fit, writes them. -/
theorem exec_decode_of_codesOf {syms : List Byte} (hread : ∀ sym ∈ syms, s.built.readsBack sym)
    (hfit : syms.length ≤ s.args.dcap.toNat)
    (hbits : s.streamBits s.args.src.toNat s.args.nbits.toNat = s.built.codesOf syms) :
    exec .decode s = .next (s.writeDecoded syms).succeed :=
  exec_decode_of_ok hup (hbits ▸ decodeStream_codesOf _ _ _ hread hfit)

end

/-! ### The decoded symbols (R68) -/

/-- DECODE writes DMEM and the result registers only. -/
theorem State.writeDecoded_eq (s : State) (out : List Byte) :
    s.writeDecoded out =
      { s with
        mem := (s.writeDecoded out).mem
        results := ⟨s.args.nbits, BitVec.ofNat 32 out.length, BitVec.ofNat 32 out.length⟩ } := by
  conv_lhs => rw [State.writeDecoded, State.writeBytes_eq]
  rfl

/-- R160: the q-th byte from DST up is the q-th symbol. -/
theorem State.writeDecoded_readByte_at (s : State) (out : List Byte) {q : Nat} (hq : q < out.length) :
    (s.writeDecoded out).readByte (s.args.dst.toNat + q) = out[q] := by
  rw [s.writeDecoded_readByte, s.readByte_writeBytes_at _ _ q hq]

/-- R68: every byte outside the symbols is unchanged. -/
theorem State.writeDecoded_readByte_outside (s : State) (out : List Byte) {a : Nat}
    (ha : a < s.args.dst.toNat ∨ s.args.dst.toNat + out.length ≤ a) :
    (s.writeDecoded out).readByte a = s.readByte a := by
  rw [s.writeDecoded_readByte, s.readByte_writeBytes_outside _ _ _ ha]

/-- R127, R163: the table of a BUILD reads back the symbols of its alphabet. -/
theorem State.tableLegal.readsBack {s : State} (h : s.tableLegal) (hvalid : s.status.tableValid = true)
    {syms : List Byte} (hsyms : ∀ sym ∈ syms, entry s.freq sym ≠ 0#32) :
    ∀ sym ∈ syms, s.built.readsBack sym := by
  rw [(h hvalid).2]
  exact fun sym hsym => readsBack_buildFrom s.freq sym (hsyms sym hsym)

/-- Settles O45: the arena reads back each symbol of the alphabet, and the symbols fit. -/
theorem decodeWritesTheCodedSymbols : Obligations.DecodeWritesTheCodedSymbols := by
  intro s syms htable hvalid hin hout hover hsyms hfit hbits
  have hup := (s.upFrontError_none s.streamWindow).2 ⟨hvalid, hin, hout, hover⟩
  exact ⟨_, _, exec_decode_of_codesOf hup (htable.readsBack hvalid hsyms) hfit hbits,
    congrArg State.succeed (s.writeDecoded_eq _), fun _ => s.writeDecoded_readByte_at _,
    fun _ => s.writeDecoded_readByte_outside _⟩

/-! ### Walks that go on after whole codes -/

/-- A walk over the codes of symbols that fit, and more bits, is the walk over the rest with those symbols
emitted. -/
theorem Walk.run_codesOf_append (b : Built) (dcap : Nat) {syms : List Byte} (rest : List Bool)
    (hread : ∀ sym ∈ syms, b.readsBack sym) (hfit : syms.length ≤ dcap) :
    Walk.run b dcap 0 ⟨[], b.rootIndex, 0⟩ (b.codesOf syms ++ rest) =
      Walk.run b dcap (b.codesOf syms).length ⟨syms, b.rootIndex, (b.codesOf syms).length⟩ rest := by
  rw [Walk.run_append, Walk.run_codesOf b dcap 0 _ syms rfl rfl hread (by simpa using hfit)]
  simp only [List.nil_append, Nat.zero_add]

/-- An error of the loop is the error of the whole walk. -/
theorem decodeStream_of_run_error {b : Built} {dcap : Nat} {bits : List Bool} {e : ErrCode × Nat}
    (h : Walk.run b dcap 0 ⟨[], b.rootIndex, 0⟩ bits = .error e) : decodeStream b dcap bits = .error e := by
  rw [decodeStream, h]

/-! ### A stream that ends inside a code (R165) -/

/-- R127: with a code of at least two bits the alphabet has at least two symbols. -/
theorem two_le_length_alphabet {f : SymTable Word} {sym : Byte} (hsym : entry f sym ≠ 0#32)
    (hlen : 2 ≤ ((buildFrom f).codeOf sym).length) : 2 ≤ (alphabet f).length := by
  match ha : alphabet f, (mem_alphabet f sym).2 hsym with
  | [r], hm =>
    rw [codeOf_single (List.mem_singleton.1 hm ▸ ha)] at hlen
    exact hlen
  | _ :: _ :: _, _ => simp

/-- R127: after some but not all bits of a code, the path is at an internal node below the root. -/
theorem follow_part_of_code {f : SymTable Word} {sym : Byte} {part rest : List Bool}
    (hsym : entry f sym ≠ 0#32) (hk : 2 ≤ (alphabet f).length)
    (hcode : (buildFrom f).codeOf sym = part ++ rest) (hpart : part ≠ []) (hrest : rest ≠ []) :
    ∃ m q l r, follow (huffmanForest f).nodes (2 * (alphabet f).length - 2) part = some m ∧
      (huffmanForest f).nodes[m]? = some (.internal q l r) ∧ m < 2 * (alphabet f).length - 2 := by
  obtain ⟨j, -, hpath, -⟩ := (mem_huffmanCodes f hk sym _).1 (hcode ▸ codeOf_mem f sym hsym)
  rw [follow_append] at hpath
  obtain ⟨m, hm, hgo⟩ := Option.bind_eq_some_iff.1 hpath
  obtain ⟨bit, rest', rfl⟩ := List.exists_cons_of_ne_nil hrest
  obtain ⟨q, l, r, hnode, -⟩ := follow_cons_some hgo
  have hdown := (huffmanForest_sound f).follow_le hm
  have hpos := List.length_pos_iff.2 hpart
  exact ⟨m, q, l, r, hm, hnode, by omega⟩

/-- R162: some but not all bits of a code, read from the root, emit nothing and lead away from the root. -/
theorem Walk.run_part_of_code {f : SymTable Word} {sym : Byte} {part rest : List Bool} (dcap j : Nat)
    {w : Walk} (hsym : entry f sym ≠ 0#32) (hcode : (buildFrom f).codeOf sym = part ++ rest)
    (hpart : part ≠ []) (hrest : rest ≠ []) (hw : w.pos = (buildFrom f).rootIndex) :
    ∃ pos, pos ≠ (buildFrom f).rootIndex ∧
      Walk.run (buildFrom f) dcap j w part = .ok { w with pos := pos } := by
  have hk : 2 ≤ (alphabet f).length := two_le_length_alphabet hsym <| by
    rw [hcode, List.length_append]
    exact Nat.add_le_add (List.length_pos_iff.2 hpart) (List.length_pos_iff.2 hrest)
  obtain ⟨m, q, l, r, hm, hnode, hlt⟩ := follow_part_of_code hsym hk hcode hpart hrest
  rw [buildFrom_rootIndex] at hw ⊢
  refine ⟨BitVec.ofNat 9 m, fun e => ?_, Walk.run_follow f dcap part j _ m q l r w hk hw hm hnode⟩
  have hle := length_alphabet_le f
  have := congrArg BitVec.toNat e
  simp only [BitVec.toNat_ofNat] at this
  omega

/-- R165: the codes of symbols that fit and then a part of a code are TRUNCATED at the part's first bit. -/
theorem decodeStream_truncated {f : SymTable Word} {dcap : Nat} {syms : List Byte} {last : Byte}
    {part : List Bool} (hread : ∀ sym ∈ syms, (buildFrom f).readsBack sym) (hfit : syms.length ≤ dcap)
    (hlast : entry f last ≠ 0#32) (hne : part ≠ []) (hpre : part <+: (buildFrom f).codeOf last)
    (hproper : part ≠ (buildFrom f).codeOf last) :
    decodeStream (buildFrom f) dcap ((buildFrom f).codesOf syms ++ part) =
      .error (.truncated, ((buildFrom f).codesOf syms).length) := by
  obtain ⟨rest, hcode⟩ := hpre
  have hrest : rest ≠ [] := by
    rintro rfl
    exact hproper ((List.append_nil part).symm.trans hcode)
  obtain ⟨pos, hpos, hrun⟩ := Walk.run_part_of_code dcap ((buildFrom f).codesOf syms).length
    (w := ⟨syms, (buildFrom f).rootIndex, ((buildFrom f).codesOf syms).length⟩)
    hlast hcode.symm hne hrest rfl
  rw [decodeStream, Walk.run_codesOf_append _ _ _ hread hfit, hrun]
  exact if_pos hpos

/-- Settles O46: the walk stops at an internal node that is not the root. -/
theorem decodeReportsAnUnfinishedCode : Obligations.DecodeReportsAnUnfinishedCode := by
  intro s syms last part htable hvalid hin hout hover hsyms hfit hlast hne hpre hproper hbits
  have hup := (s.upFrontError_none s.streamWindow).2 ⟨hvalid, hin, hout, hover⟩
  have hread := htable.readsBack hvalid hsyms
  refine exec_decode_reports hup ?_
  rw [(htable hvalid).2] at hread hpre hproper hbits ⊢
  rw [hbits]
  exact decodeStream_truncated hread hfit hlast hne hpre hproper

/-! ### A symbol that does not fit (R166) -/

/-- R166: after the codes of DCAP symbols, one more code is DST_OVERFLOW at its last bit. -/
theorem decodeStream_dstOverflow {b : Built} {syms : List Byte} {next : Byte} (tail : List Bool)
    (hread : ∀ sym ∈ syms, b.readsBack sym) (hnext : b.readsBack next) :
    decodeStream b syms.length (b.codesOf syms ++ b.codeOf next ++ tail) =
      .error (.dstOverflow, (b.codesOf syms).length + b.lenOf next - 1) := by
  apply decodeStream_of_run_error
  rw [List.append_assoc, Walk.run_codesOf_append _ _ _ hread le_rfl, Walk.run_append,
    Walk.run_codeOf _ _ _ _ next rfl hnext, if_pos rfl, length_codeOf]

/-- Settles O47: the code after DCAP symbols is read to its last bit, and its symbol is refused there. -/
theorem decodeReportsTheSymbolThatDoesNotFit : Obligations.DecodeReportsTheSymbolThatDoesNotFit := by
  intro s syms next tail htable hvalid hin hout hover hsyms hfull hnext hbits
  have hup := (s.upFrontError_none s.streamWindow).2 ⟨hvalid, hin, hout, hover⟩
  have hread := htable.readsBack hvalid hsyms
  have hreadNext := htable.readsBack hvalid (syms := [next]) (by simpa using hnext) next (by simp)
  refine exec_decode_reports hup ?_
  rw [hbits, ← hfull]
  exact decodeStream_dstOverflow tail hread hreadNext

/-! ### Bits that begin no code (R163, R164) -/

/-- R163: under a single-leaf tree each 0 bit emits the symbol, and a 1 bit after them is BAD_BIT. -/
theorem Walk.run_zeros_one {b : Built} {dcap : Nat} (halpha : b.alpha = 1#9) (n : Nat) (tail : List Bool)
    (j : Nat) (w : Walk) (hfit : w.out.length + n ≤ dcap) :
    Walk.run b dcap j w (List.replicate n false ++ true :: tail) = .error (.badBit, j + n) := by
  induction n generalizing j w with
  | zero => simp [Walk.run, Walk.step_single b dcap j w true halpha]
  | succ n ih =>
    have hroom : w.out.length ≠ dcap := by omega
    have hstep : w.step b dcap j false =
        .ok ⟨w.out ++ [(slot b.nodeInfo b.rootIndex).symbol], b.rootIndex, j + 1⟩ := by
      rw [Walk.step_single b dcap j w false halpha]
      exact if_neg hroom
    rw [List.replicate_succ, List.cons_append, Walk.run, hstep]
    refine (ih (j + 1) _ ?_).trans ?_
    · simp only [List.length_append, List.length_singleton]
      omega
    · rw [Nat.add_assoc, Nat.add_comm 1]

/-- Settles O48: the empty tree accepts the empty stream only, and the single leaf accepts 0 bits only. -/
theorem decodeReportsBitsThatBeginNoCode : Obligations.DecodeReportsBitsThatBeginNoCode := by
  intro s hvalid hin hout hover
  have hup := (s.upFrontError_none s.streamWindow).2 ⟨hvalid, hin, hout, hover⟩
  refine ⟨fun halpha hzero => ?_, fun halpha hne => ?_, fun n tail halpha hfit hbits => ?_⟩
  · rw [exec_decode_of_ok hup (out := []) (by rw [hzero, decodeStream_empty_tree _ _ _ halpha]; rfl),
      s.writeDecoded_eq, hzero]
    rfl
  · refine exec_decode_reports hup (i := 0) ?_
    rw [decodeStream_empty_tree _ _ _ halpha, if_neg]
    intro hnil
    have hlen := s.length_streamBits s.args.src.toNat s.args.nbits.toNat
    rw [hnil] at hlen
    exact hne (BitVec.eq_of_toNat_eq hlen.symm)
  · refine exec_decode_reports hup (decodeStream_of_run_error ?_)
    rw [hbits, Walk.run_zeros_one halpha n tail 0 _ (by simpa using hfit), Nat.zero_add]

/-! ### The round trip (R170) -/

/-- R140: an ENCODE that completes without error passed the up-front checks, found a code for every byte and
room for the codes, and wrote them. -/
theorem exec_encode_succeeds {s t : State} (hdone : s.status.done = false)
    (h : exec .encode s = .next t) (ht : t.status.done = true) :
    s.upFrontError s.inputWindow = none ∧
      (∀ sym ∈ s.readBytes s.inputWindow, s.built.lenOf sym ≠ 0) ∧
      (s.built.codesOf (s.readBytes s.inputWindow)).length ≤ 8 * s.args.dcap.toNat ∧
      t = (s.writeEncoded (s.built.codesOf (s.readBytes s.inputWindow))).succeed := by
  have failed_not_done : (Status.fail s.status).done ≠ true := by simp [Status.fail, hdone]
  rcases execEncode_cases s with ⟨e, i, -, hx⟩ | ⟨-, e, i, -, -, hx⟩ | ⟨hup, hcode, hroom, hx⟩
  · cases h.symm.trans hx
    exact absurd ht failed_not_done
  · cases h.symm.trans hx
    rw [State.raiseRuntime_status] at ht
    exact absurd ht failed_not_done
  · exact ⟨hup, hcode, hroom, Host.Outcome.next.inj (h.symm.trans hx)⟩

/-- R8, R10: the bits that fit a destination window in DMEM are counted in 32 bits. -/
theorem State.sizeLegal.bits_lt {s : State} (hsize : s.sizeLegal)
    (hout : s.outputWindow.inRange s.dmemSize) {n : Nat} (hn : n ≤ 8 * s.args.dcap.toNat) :
    n < 2 ^ 32 := by
  have hmax : s.dmemSize ≤ 2 ^ 28 := hsize.2
  have hdcap : s.args.dst.toNat + s.args.dcap.toNat ≤ s.dmemSize := hout
  omega

/-- R141, R161: where another state holds the bytes ENCODE wrote, it reads ENCODE's stream. -/
theorem State.streamBits_of_writeEncoded {s d : State} {bits : List Bool} {base : Nat}
    (hcopy : ∀ q, q < ceil8 bits.length →
      d.readByte (base + q) = (s.writeEncoded bits).readByte (s.args.dst.toNat + q)) :
    d.streamBits base bits.length = bits := by
  refine d.streamBits_of_packed base bits fun q hq => ?_
  have hlen : q < (packBytes bits).length := by rwa [length_packBytes]
  rw [hcopy q hq, s.writeEncoded_readByte, s.readByte_writeBytes_at _ _ q hlen, getElem_packBytes]

/-- Settles O49: the stream is the codes of the input, and the table reads each of its symbols back. -/
theorem decodeGivesBackWhatEncodeRead : Obligations.DecodeGivesBackWhatEncodeRead := by
  intro s t d hsize htable hdone henc ht hbuilt hvalid hnbits hcopy hin hout hover hfit
  obtain ⟨hupS, hcode, hroom, rfl⟩ := exec_encode_succeeds hdone henc ht
  obtain ⟨hvalidS, -, houtS, -⟩ := State.upFrontError_pass hupS
  have hbits := hsize.bits_lt houtS hroom
  have hbytes := hsize.bits_lt houtS
    (((ceil8_le_iff _ _).2 hroom).trans (Nat.le_mul_of_pos_left _ (by decide)))
  rw [State.succeed_results, State.writeEncoded_results] at hnbits hcopy
  rw [State.succeed_built, State.writeEncoded_built] at hbuilt
  simp only [BitVec.toNat_ofNat, Nat.mod_eq_of_lt hbytes] at hcopy
  have hstream : d.streamBits d.args.src.toNat d.args.nbits.toNat =
      d.built.codesOf (s.readBytes s.inputWindow) := by
    rw [hnbits, BitVec.toNat_ofNat, Nat.mod_eq_of_lt hbits, hbuilt]
    exact State.streamBits_of_writeEncoded hcopy
  have hread : ∀ sym ∈ s.readBytes s.inputWindow, d.built.readsBack sym := by
    rw [hbuilt]
    refine htable.readsBack hvalidS fun sym hsym => (lenOf_buildFrom_ne_zero s.freq sym).1 ?_
    rw [← (htable hvalidS).2]
    exact hcode sym hsym
  have hlen : (s.readBytes s.inputWindow).length = s.args.len.toNat := s.length_readBytes _
  have hup := (d.upFrontError_none d.streamWindow).2 ⟨hvalid, hin, hout, hover⟩
  refine ⟨_, exec_decode_of_codesOf hup hread (hlen ▸ hfit) hstream,
    congrArg ok (d.writeDecoded_status _), ?_, fun i hi => ?_⟩
  · rw [State.succeed_results, State.writeDecoded_results, hlen, BitVec.ofNat_toNat, BitVec.setWidth_eq]
  · rw [State.succeed_readByte, d.writeDecoded_readByte_at _ (hlen ▸ hi), State.getElem_readBytes]
    rfl

end Sys2Proof.Machine
end

section
/-! What completes and changes nothing else: a pending illegal word (R182) and NOP (R180); O6 and O26. -/

namespace Sys2Proof.Machine

/-- R83, R89: the words of both ranges are rejected, each by its field. -/
theorem decode_eq_error_of_range {w : Word}
    (hw : 0x100 ≤ w.toNat ∨ (0x06 ≤ w.toNat ∧ w.toNat ≤ 0xFF)) : ∃ e, decode w = .error e := by
  obtain ⟨hreserved, hopcode⟩ := illegalWordsAreRejectedByTheirField w
  rcases hw with hr | ho
  · exact ⟨.reservedBits, hreserved.2 hr⟩
  · exact ⟨.reservedOpcode, hopcode.2 ho⟩

/-- The core's turn on a pending word that the decoder rejects (R182). -/
theorem coreStep_of_decode_error {s : State} {e : IllegalWord} (hb : s.status.busy = true)
    (hd : decode s.cmd = .error e) : s.coreStep = .next (illegalCommand s) := by
  simp [State.coreStep, hb, hd]

/-- Settles O6: on the core's turn too the word is rejected, in the state with that turn taken. -/
theorem illegalWordCompletesWithIllegalCmd : Obligations.IllegalWordCompletesWithIllegalCmd := by
  rintro s t rest hb hw rfl
  obtain ⟨e, hd⟩ := decode_eq_error_of_range hw
  have hcore := coreStep_of_decode_error hb hd
  refine ⟨hcore, fun ht => ?_, fun ht => ?_, rfl⟩
  · rw [step_of_turns_nil ht]
    exact hcore
  · rw [step_of_turns_core ht]
    exact coreStep_of_decode_error (s := s.endTurn rest) hb hd

/-- Settles O26: NOP's word is 0, and the completion sets DONE and clears BUSY. -/
theorem nopOnlyCompletes : Obligations.NopOnlyCompletes := ⟨rfl, fun _ => rfl⟩

end Sys2Proof.Machine
end

section
/-! Errors (R200 to R205): the numbers of the codes and the host's read of the recorded one, the up-front
errors of ENCODE and DECODE, and what a runtime error leaves; O43, O44 and O58. -/

namespace Sys2Proof.Machine

open Sys2Proof.Spec

/-! ### ERR_CODE (R25, R200) -/

/-- R25: the host reads the code's number. -/
theorem ErrCode.toNat_toWord (e : ErrCode) : e.toWord.toNat = e.number.toNat :=
  BitVec.toNat_setWidth_of_le (by decide)

/-- Settles O58: the numbers are read off the definition, and ERR_CODE is a register like any other. -/
theorem errorCodesHaveTheNumbersOfTheTable : Obligations.ErrorCodesHaveTheNumbersOfTheTable :=
  ⟨rfl, rfl, rfl, rfl, rfl, rfl, rfl, rfl, rfl, rfl, fun s hb =>
    ⟨s.errCode.toWord, hostStep_readReg .errCode fun h => absurd (hb.symm.trans h) nofun,
      s.errCode.toNat_toWord⟩⟩

/-! ### Up-front errors (R202, R204) -/

section
variable {s : State} {w : Window}

/-- R202: TABLE_VALID is checked first. -/
theorem State.upFrontError_of_invalid (h : s.status.tableValid = false) :
    s.upFrontError w = some (.noTable, 0#32) := if_pos h

section
variable (hvalid : s.status.tableValid = true)
include hvalid

/-- R202: the source window is checked second. -/
theorem State.upFrontError_of_source (h : ¬w.inRange s.dmemSize) :
    s.upFrontError w = some (.range, 0#32) := by
  rw [State.upFrontError, if_neg (by simp [hvalid]), if_pos h]

variable (hsource : w.inRange s.dmemSize)
include hsource

/-- R202: the destination window is checked third. -/
theorem State.upFrontError_of_output (h : ¬s.outputWindow.inRange s.dmemSize) :
    s.upFrontError w = some (.range, 1#32) := by
  rw [State.upFrontError, if_neg (by simp [hvalid]), if_neg (not_not.2 hsource), if_pos h]

/-- R202: that the windows do not overlap is checked last. -/
theorem State.upFrontError_of_overlap (hout : s.outputWindow.inRange s.dmemSize)
    (h : w.overlaps s.outputWindow) : s.upFrontError w = some (.overlap, 0#32) := by
  rw [State.upFrontError, if_neg (by simp [hvalid]), if_neg (not_not.2 hsource),
    if_neg (not_not.2 hout), if_pos h]

end

/-- R204: an up-front error over its own source window ends ENCODE or DECODE with that error. -/
theorem exec_of_upFrontError {i : Instr} {e : ErrCode} {info : Word}
    (hw : i = .encode ∧ w = s.inputWindow ∨ i = .decode ∧ w = s.streamWindow)
    (h : s.upFrontError w = some (e, info)) : exec i s = .next (s.raise e info) := by
  rcases hw with ⟨rfl, rfl⟩ | ⟨rfl, rfl⟩
  · simp only [exec, execEncode, h]
  · simp only [exec, execDecode, h]

end

/-- Settles O43: each clause is the check that fails first, and the error changes the flags and the error
registers only. -/
theorem upFrontErrorsComeInOrderAndArePrecise : Obligations.UpFrontErrorsComeInOrderAndArePrecise := by
  rintro s i w hw _ rfl
  refine ⟨fun hinvalid => ?_, fun hvalid hsource => ?_, fun hvalid hsource hout => ?_,
    fun hvalid hsource hout hlen hcap hbelow habove => ?_⟩
  · exact exec_of_upFrontError hw (State.upFrontError_of_invalid hinvalid)
  · exact exec_of_upFrontError hw (State.upFrontError_of_source hvalid (Nat.not_le.2 hsource))
  · exact exec_of_upFrontError hw (State.upFrontError_of_output hvalid hsource (Nat.not_le.2 hout))
  · exact exec_of_upFrontError hw
      (State.upFrontError_of_overlap hvalid hsource hout ⟨hlen, hcap, hbelow, habove⟩)

/-! ### Runtime errors (R205) -/

/-- R205: a runtime error changes DMEM, the result registers, the flags and the error registers, and is one
UNSPEC event. -/
theorem State.raiseRuntime_eq (s : State) (e : ErrCode) (info : Word) :
    s.raiseRuntime e info =
      { s with
        mem := (s.raiseRuntime e info).mem
        results := Results.unspec s.draws
        status := failed s.status
        errCode := e
        errInfo := info
        draws := s.draws + 1 } := by
  conv_lhs => rw [State.raiseRuntime, State.forgetOutput, State.forgetWindow, State.writeBytes_eq]
  rfl

/-- R205: with the output window in range, its bytes are free after a runtime error and no other byte
changes. -/
theorem State.raiseRuntime_readByte_of_inRange {s : State} (hout : s.outputWindow.inRange s.dmemSize)
    (e : ErrCode) (info : Word) (a : Nat) :
    (s.raiseRuntime e info).readByte a =
      if s.outputWindow.has a then Config.unspecByte s.draws (.dmem a) else s.readByte a := by
  have hin : s.outputWindow.has a → a < s.dmemSize := fun h => h.2.trans_le hout
  simp only [State.raiseRuntime_readByte, and_iff_left_of_imp hin]

/-- A command that sets ERR and records one of the runtime errors has passed the up-front checks and ended
by `raiseRuntime`: a success leaves ERR as it was, and the other errors have other codes. -/
theorem exec_runtimeError {i : Instr} {s t : State} (h : exec i s = .next t)
    (hcode : t.errCode = .noCode ∨ t.errCode = .dstOverflow ∨ t.errCode = .truncated ∨
      t.errCode = .badBit)
    (herr : t.status.err = true) (hclear : s.status.err = false) :
    s.outputWindow.inRange s.dmemSize ∧ t = s.raiseRuntime t.errCode t.errInfo := by
  have hset : t.status.err ≠ s.status.err := by simp [herr, hclear]
  rcases exec_cases h with ⟨-, rfl⟩ | ⟨-, rfl⟩ | ⟨-, rfl⟩ | ⟨-, -, rfl⟩ | ⟨-, rfl⟩ |
    ⟨-, e, info, he, rfl⟩ | ⟨-, hout, e, info, -, rfl⟩ | ⟨-, -, bits, -, rfl⟩ | ⟨-, -, out, -, rfl⟩
  · exact absurd rfl hset
  · exact absurd rfl hset
  · exact absurd rfl hset
  · exact absurd rfl hset
  · simp at hcode
  · rcases he with rfl | rfl | rfl <;> simp at hcode
  · exact ⟨hout, by simp⟩
  · exact absurd (by simp) hset
  · exact absurd (by simp) hset

/-- Settles O44: the command ended by `raiseRuntime`, with its output window in range. -/
theorem runtimeErrorsLeaveOnlyTheOutputUnspec : Obligations.RuntimeErrorsLeaveOnlyTheOutputUnspec := by
  intro s t i _ h hcode herr hclear
  obtain ⟨hout, ht⟩ := exec_runtimeError h hcode herr hclear
  have hframe := s.raiseRuntime_eq t.errCode t.errInfo
  rw [← ht] at hframe
  refine ⟨hframe, fun a => ?_⟩
  rw [ht]
  exact State.raiseRuntime_readByte_of_inRange hout _ _ a

end Sys2Proof.Machine
end

section
/-! The two resets: the reset input (R230, R231) and the write of CTRL.SRST (R232); O11 and O13. -/

namespace Sys2Proof.Machine

open Sys2Proof.Spec

/-! ### The reset input (R230, R231) -/

/-- R230: the reset input's turn is the hard reset, whatever is pending. -/
theorem step_of_turns_rst {s : State} {rest : List Turn} (ht : s.turns = .rst :: rest) :
    step s = .next (s.endTurn rest).hardReset := by
  simp [step, ht, State.takeTurn]

/-- R24: STATUS with no flag set reads 0. -/
theorem Status.toWord_clear : Status.toWord ⟨false, false, false, false, false⟩ = 0#32 := by decide

/-- R35: IRQ_EN with no cause enabled reads 0. -/
theorem IrqEnable.toWord_none : IrqEnable.toWord ⟨false, false, false⟩ = 0#32 := by decide

/-- R231: after the hard reset every byte of DMEM is a free value of its draw. -/
theorem State.hardReset_readByte (s : State) (a : Nat) :
    s.hardReset.readByte a = Config.unspecByte s.draws (.dmem a) := rfl

section
variable (draw : Nat)

/-- R49, U2: after a reset each entry of CODE_LEN is a free byte. -/
theorem Built.entry_codeLen_reset (sym : Byte) :
    entry (Built.reset draw).codeLen sym = Config.unspecByte draw (.codeLen sym.toNat) :=
  entry_tabulate _ sym

/-- R49, U2: after a reset each word of CODE_BITS is a free word. -/
theorem Built.codeWord_reset (sym : Byte) (w : Fin 8) :
    (Built.reset draw).codeWord sym w = Config.unspecWord draw (.codeBits sym.toNat w.val) := by
  simp [Built.codeWord, Built.reset]

/-- R49, U3: after a reset each entry of NODE_FREQ is a free word. -/
theorem Built.slot_nodeFreq_reset (i : NodeIdx) :
    slot (Built.reset draw).nodeFreq i = Config.unspecWord draw (.nodeFreq i.toNat) :=
  slot_tabulate _ i

/-- R49, U3, R39: after a reset each entry of NODE_INFO has the fields of a free word. -/
theorem Built.slot_nodeInfo_reset (i : NodeIdx) :
    slot (Built.reset draw).nodeInfo i =
      NodeInfo.ofWord (Config.unspecWord draw (.nodeInfo i.toNat)) :=
  slot_tabulate _ i

end

/-- Settles O11: the registers are read off the reset state, FREQ is the zero table, and each table and DMEM
hold what the draw gives them. -/
theorem resetInputGivesTheResetValues : Obligations.ResetInputGivesTheResetValues := by
  intro s rest ht
  refine ⟨_, step_of_turns_rst ht, rfl, rfl, ?status, rfl, rfl, rfl, rfl, rfl, rfl, rfl, rfl, rfl, ?irqEn,
    rfl, rfl, rfl, ?freq, ?codeLen, ?codeBits, ?nodeFreq, ?nodeInfo, ?dmem⟩
  case status => exact Status.toWord_clear
  case irqEn => exact IrqEnable.toWord_none
  case freq => exact entry_zeroFreq
  case codeLen => exact Built.entry_codeLen_reset s.draws
  case codeBits => exact Built.codeWord_reset s.draws
  case nodeFreq => exact Built.slot_nodeFreq_reset s.draws
  case nodeInfo => exact Built.slot_nodeInfo_reset s.draws
  case dmem => exact (s.endTurn rest).hardReset_readByte

/-! ### The soft reset (R232) -/

/-- R36, R50: a write of 1 to CTRL.SRST is the soft reset, whether BUSY is 0 or 1. -/
theorem hostStep_softReset (s : State) {v : Word} (hv : v.getLsbD 0 = true) :
    s.hostStep (txn .write 0x4C 32 v) = s.softReset.respond .okWrite := by
  have hwrite : s.writeReg v .ctrl = s.softReset := if_pos hv
  rw [← hwrite]
  exact hostStep_txn_write (target := .reg .ctrl) nofun rfl (fun _ => rfl) v

/-- R232: a byte of DMEM after a soft reset, with the pending commands and the window in numbers. -/
theorem State.softReset_readByte_of_lt (s : State) {a : Nat} (ha : a < s.dmemSize) :
    s.softReset.readByte a =
      if s.status.busy = true ∧ (s.cmd = 0x4#32 ∨ s.cmd = 0x5#32) ∧ s.args.dst.toNat ≤ a ∧
          a < s.args.dst.toNat + s.args.dcap.toNat
      then Config.unspecByte s.draws (.dmem a) else s.readByte a := by
  simp only [State.softReset_readByte, State.outputPending_iff, ha, and_true, and_assoc,
    Window.has, State.outputWindow]

/-- Settles O13: the write is the soft reset, which leaves the reset state over the DMEM of R232. -/
theorem softResetKeepsDmemButAPendingWindow : Obligations.SoftResetKeepsDmemButAPendingWindow :=
  fun s _ hv => ⟨_, hostStep_softReset s hv, rfl, fun _ ha => s.softReset_readByte_of_lt ha⟩

end Sys2Proof.Machine
end
